-- ==== Sys2Proof/Word.lean ====
section
/-! DEFINITION. The machine word and the widths of the fields an instruction is made of (spec R9, R12). -/

namespace Sys2Proof

/-- A register, an address, an instruction word: 32 bits, arithmetic modulo 2^32 (R9, R12). -/
abbrev Word := BitVec 32

/-- The smallest addressable unit of the bus (R9, R85). -/
abbrev Byte := BitVec 8

/-- The number of a general register, R0 to R31 (R30). -/
abbrev RegIdx := BitVec 5

/-- The number of a control register, CR[0] to CR[31] (R40). -/
abbrev CrIdx := BitVec 5

end Sys2Proof
end

