-- ==== Sys2Proof/Syntax.lean ====
section
/-! DEFINITION. The abstract syntax: one constructor of `Instr` for each row of spec/opcode_table.json, with the fields
that the row's rule reads, each at the width of its field (spec R152). Bits that a format does not read (R157, R158,
R171) are no part of an instruction. -/

namespace Sys2Proof

/-- The shift type of the R format, field `shtype` (R152, R160). -/
inductive ShiftType where
  | lsl | lsr | asr | ror
  deriving DecidableEq, Repr

/-- What the R format says of the shift of `x[rB]`: the fields `shamt` and `shtype` (R152). -/
structure Shift where
  /-- `shamt`; 0 disables the shift (R160). -/
  amount : BitVec 5
  type   : ShiftType
  deriving DecidableEq, Repr

/-- The operand rB of an instruction whose group is OPEN (R162 (e)): the register alone in group 0x31, which has no shifter
(R157), and the register with the shift fields of format R in group 0x39, every member of which applies the shifter to
x[rB] (R156, log entry 3). -/
inductive SrcB where
  | reg (rB : RegIdx)
  | shifted (rB : RegIdx) (sh : Shift)
  deriving DecidableEq, Repr

/-- The instructions outside the three groups that are selected by their 6-bit opcode (R151, R163: formats I and B). -/
inductive MajorOp where
  | addi | subi | slti | sltis | andi | ori | xori | lui | jalr
  | ldb | ldi | ldl | stb | sti | stl | beq | bne | blt
  deriving DecidableEq, Repr

/-- The members of group 0x39 (R163: format R). -/
inductive RegOp where
  | add | sub | slt | slts | and | or | xor | nor | ldbx | ldix | ldlx | stbx | stix | stlx
  deriving DecidableEq, Repr

/-- The instructions whose group, 0x31 or 0x39, the encoding says (R162 (e)): of format G in the first (R157, R163), of
format R in the second (R156). -/
inductive GrpOp where
  | mul | div | divs | mod | ll | sc | sys | brk
  deriving DecidableEq, Repr

/-- The members of the privileged group 0x29 (R163: format P). -/
inductive PrivOp where
  | fwc | rfe | hlt | ftlb | mtcr | mfcr
  deriving DecidableEq, Repr

/-- The instructions of spec/opcode_table.json, one constructor per row. The operands stand in the order of the
assembler's fields rD, rA, rB, then the immediate or the shift; `mtcr` and `mfcr` name the control register by the
number in their rB field. -/
inductive Instr where
  /-- J (R281). -/
  | j (target29 : BitVec 29)
  /-- JAL (R282). -/
  | jal (target29 : BitVec 29)
  /-- ADDI (R202). -/
  | addi (rD rA : RegIdx) (imm16 : BitVec 16)
  /-- SUBI (R203). -/
  | subi (rD rA : RegIdx) (imm16 : BitVec 16)
  /-- SLTI (R204). -/
  | slti (rD rA : RegIdx) (imm16 : BitVec 16)
  /-- SLTIS (R205). -/
  | sltis (rD rA : RegIdx) (imm16 : BitVec 16)
  /-- ANDI (R206). -/
  | andi (rD rA : RegIdx) (imm16 : BitVec 16)
  /-- ORI (R207). -/
  | ori (rD rA : RegIdx) (imm16 : BitVec 16)
  /-- XORI (R208). -/
  | xori (rD rA : RegIdx) (imm16 : BitVec 16)
  /-- LUI (R209). -/
  | lui (rD rA : RegIdx) (imm16 : BitVec 16)
  /-- JALR (R283). -/
  | jalr (rD rA : RegIdx) (imm16 : BitVec 16)
  /-- LDB (R252). -/
  | ldb (rD rA : RegIdx) (imm16 : BitVec 16)
  /-- LDI (R253). -/
  | ldi (rD rA : RegIdx) (imm16 : BitVec 16)
  /-- LDL (R254). -/
  | ldl (rD rA : RegIdx) (imm16 : BitVec 16)
  /-- STB (R255). -/
  | stb (rD rA : RegIdx) (imm16 : BitVec 16)
  /-- STI (R256). -/
  | sti (rD rA : RegIdx) (imm16 : BitVec 16)
  /-- STL (R257). -/
  | stl (rD rA : RegIdx) (imm16 : BitVec 16)
  /-- BEQ (R284). -/
  | beq (rD : RegIdx) (disp21 : BitVec 21)
  /-- BNE (R285). -/
  | bne (rD : RegIdx) (disp21 : BitVec 21)
  /-- BLT (R286). -/
  | blt (rD : RegIdx) (disp21 : BitVec 21)
  /-- ADD (R210). -/
  | add (rD rA rB : RegIdx) (sh : Shift)
  /-- SUB (R211). -/
  | sub (rD rA rB : RegIdx) (sh : Shift)
  /-- SLT (R212). -/
  | slt (rD rA rB : RegIdx) (sh : Shift)
  /-- SLTS (R213). -/
  | slts (rD rA rB : RegIdx) (sh : Shift)
  /-- AND (R214). -/
  | and (rD rA rB : RegIdx) (sh : Shift)
  /-- OR (R215). -/
  | or (rD rA rB : RegIdx) (sh : Shift)
  /-- XOR (R216). -/
  | xor (rD rA rB : RegIdx) (sh : Shift)
  /-- NOR (R217). -/
  | nor (rD rA rB : RegIdx) (sh : Shift)
  /-- LDBX (R258). -/
  | ldbx (rD rA rB : RegIdx) (sh : Shift)
  /-- LDIX (R259). -/
  | ldix (rD rA rB : RegIdx) (sh : Shift)
  /-- LDLX (R260). -/
  | ldlx (rD rA rB : RegIdx) (sh : Shift)
  /-- STBX (R261). -/
  | stbx (rD rA rB : RegIdx) (sh : Shift)
  /-- STIX (R262). -/
  | stix (rD rA rB : RegIdx) (sh : Shift)
  /-- STLX (R263). -/
  | stlx (rD rA rB : RegIdx) (sh : Shift)
  /-- MUL (R218). -/
  | mul (rD rA : RegIdx) (rB : SrcB)
  /-- DIV (R219). -/
  | div (rD rA : RegIdx) (rB : SrcB)
  /-- DIVS (R220). -/
  | divs (rD rA : RegIdx) (rB : SrcB)
  /-- MOD (R221). -/
  | mod (rD rA : RegIdx) (rB : SrcB)
  /-- LL (R264). -/
  | ll (rD rA : RegIdx)
  /-- SC (R265). -/
  | sc (rD rA : RegIdx) (rB : SrcB)
  /-- SYS (R301). -/
  | sys
  /-- BRK (R302). -/
  | brk
  /-- FWC (R304). -/
  | fwc
  /-- RFE (R305). -/
  | rfe
  /-- HLT (R306). -/
  | hlt
  /-- FTLB (R307). -/
  | ftlb
  /-- MTCR (R308). -/
  | mtcr (cr : CrIdx) (rA : RegIdx)
  /-- MFCR (R309). -/
  | mfcr (rD : RegIdx) (cr : CrIdx)
  deriving DecidableEq, Repr

end Sys2Proof
end

