-- ==== Sys2Proof/Config.lean ====
section
/-! DEFINITION. What an implementation fixes: the parameters of spec R10 as plain data (`Config`, carried by the state
and changed by no step), the encoding numbers that the spec leaves OPEN (`Encoding`, R162), and the values that no rule
gives, as constants without a body (the free values). -/

namespace Sys2Proof

/-- The groups that the eight instructions of R162 (e) may be in: `reg` is 0x39, `grp` is 0x31. -/
inductive ExtGroup where
  | reg | grp
  deriving DecidableEq, Repr

/-- `ENC_<M>` of one of the eight instructions of R162 (e): its group and its function code, both OPEN. -/
structure GrpCode where
  group : ExtGroup
  funct : BitVec 4
  deriving DecidableEq, Repr

/-- The numbers `ENC_<M>` that the spec leaves OPEN (R162, D3): the 6-bit opcode of an instruction outside the groups,
the 4-bit function code of a group member, and for the eight instructions of R162 (e) their group too. -/
structure Encoding where
  addi  : BitVec 6
  subi  : BitVec 6
  slti  : BitVec 6
  sltis : BitVec 6
  andi  : BitVec 6
  ori   : BitVec 6
  xori  : BitVec 6
  lui   : BitVec 6
  jalr  : BitVec 6
  ldb   : BitVec 6
  ldi   : BitVec 6
  ldl   : BitVec 6
  stb   : BitVec 6
  sti   : BitVec 6
  stl   : BitVec 6
  beq   : BitVec 6
  bne   : BitVec 6
  blt   : BitVec 6
  add   : BitVec 4
  sub   : BitVec 4
  slt   : BitVec 4
  slts  : BitVec 4
  and   : BitVec 4
  or    : BitVec 4
  xor   : BitVec 4
  nor   : BitVec 4
  ldbx  : BitVec 4
  ldix  : BitVec 4
  ldlx  : BitVec 4
  stbx  : BitVec 4
  stix  : BitVec 4
  stlx  : BitVec 4
  mul   : GrpCode
  div   : GrpCode
  divs  : GrpCode
  mod   : GrpCode
  ll    : GrpCode
  sc    : GrpCode
  sys   : GrpCode
  brk   : GrpCode
  fwc   : BitVec 4
  rfe   : BitVec 4
  hlt   : BitVec 4
  ftlb  : BitVec 4
  mtcr  : BitVec 4
  mfcr  : BitVec 4
  deriving DecidableEq, Repr

/-- The 6-bit opcode `ENC_<M>` of an instruction outside the groups (R162). -/
def Encoding.opcode (e : Encoding) : MajorOp → BitVec 6
  | .addi => e.addi | .subi => e.subi | .slti => e.slti | .sltis => e.sltis | .andi => e.andi
  | .ori => e.ori | .xori => e.xori | .lui => e.lui | .jalr => e.jalr | .ldb => e.ldb | .ldi => e.ldi
  | .ldl => e.ldl | .stb => e.stb | .sti => e.sti | .stl => e.stl | .beq => e.beq | .bne => e.bne
  | .blt => e.blt

/-- The function code `ENC_<M>` of a member of group 0x39 (R162). -/
def Encoding.regFunct (e : Encoding) : RegOp → BitVec 4
  | .add => e.add | .sub => e.sub | .slt => e.slt | .slts => e.slts | .and => e.and | .or => e.or
  | .xor => e.xor | .nor => e.nor | .ldbx => e.ldbx | .ldix => e.ldix | .ldlx => e.ldlx
  | .stbx => e.stbx | .stix => e.stix | .stlx => e.stlx

/-- The group and function code `ENC_<M>` of one of the eight instructions of R162 (e). -/
def Encoding.grpCode (e : Encoding) : GrpOp → GrpCode
  | .mul => e.mul | .div => e.div | .divs => e.divs | .mod => e.mod | .ll => e.ll | .sc => e.sc
  | .sys => e.sys | .brk => e.brk

/-- The function code `ENC_<M>` of a member of the privileged group 0x29 (R162). -/
def Encoding.privFunct (e : Encoding) : PrivOp → BitVec 4
  | .fwc => e.fwc | .rfe => e.rfe | .hlt => e.hlt | .ftlb => e.ftlb | .mtcr => e.mtcr | .mfcr => e.mfcr

/-- All instructions selected by a 6-bit opcode (R163). -/
def MajorOp.all : List MajorOp :=
  [.addi, .subi, .slti, .sltis, .andi, .ori, .xori, .lui, .jalr, .ldb, .ldi, .ldl, .stb, .sti, .stl,
   .beq, .bne, .blt]

/-- All members of group 0x39 (R163). -/
def RegOp.all : List RegOp :=
  [.add, .sub, .slt, .slts, .and, .or, .xor, .nor, .ldbx, .ldix, .ldlx, .stbx, .stix, .stlx]

/-- The eight instructions whose group is OPEN (R162 (e), R163). -/
def GrpOp.all : List GrpOp := [.mul, .div, .divs, .mod, .ll, .sc, .sys, .brk]

/-- All members of group 0x29 (R163). -/
def PrivOp.all : List PrivOp := [.fwc, .rfe, .hlt, .ftlb, .mtcr, .mfcr]

/-- `STORE_DATA_FIELD` (R155, D45): which field of an immediate-offset store names the register that is stored. -/
inductive StoreDataField where
  | rD | rA
  deriving DecidableEq, Repr

/-- `EPC_CALLTRAP` (R303, R431, D11): the EPC of SYSCALL, BRKPOINT and FWCALL. -/
inductive CallTrapEpc where
  | next | this
  deriving DecidableEq, Repr

/-- `RTC_MS_MODE` (R484, D36): the meaning of the RTC's millisecond commands. -/
inductive RtcMsMode where
  | subsecond | low32
  deriving DecidableEq, Repr

/-- `KBD_SCAN` (R478, D38): the order in which the keyboard's next-event scan looks. -/
inductive KbdScan where
  | interleaved | releasesFirst
  deriving DecidableEq, Repr

/-- The parameters of R10 that a step reads. A step changes none of them. The byte contents that the host also supplies
at construction (ROM, RAM_INIT, NVRAM_INIT, DISKS) are memory and disk contents of the state; only the ROM's length is
here. `RAMDESC`, `FB`, `HOSTCLOCK` and `HUB_CTRL_MAGIC` are the free values below. -/
structure Config where
  /-- `ENC_<M>` of every instruction whose number the spec leaves OPEN (R162). -/
  enc            : Encoding
  /-- `RAM_SIZE` in bytes (R84). -/
  ramSize        : Nat
  /-- The length of `ROM` in bytes (R97). -/
  romLen         : Nat
  /-- `FB_PRESENT` (R88). -/
  fbPresent      : Bool
  /-- `STORE_DATA_FIELD` (R155). -/
  storeDataField : StoreDataField
  /-- `ALIGN_TRAP` (R122). -/
  alignTrap      : Bool
  /-- `MFCR_R0_VISIBLE` (R32). -/
  mfcrR0Visible  : Bool
  /-- `DIVS_OVF` (R220). -/
  divsOvf        : Word
  /-- `EPC_CALLTRAP` (R303). -/
  epcCallTrap    : CallTrapEpc
  /-- `UART_IRQ` (R482): no vector, or the vector raised when a character is received with interrupts enabled. -/
  uartIrq        : Option Nat
  /-- `RTC_MS_MODE` (R484). -/
  rtcMsMode      : RtcMsMode
  /-- `KBD_SCAN` (R478). -/
  kbdScan        : KbdScan
  deriving DecidableEq, Repr

/-- One accepted write to the framebuffer: offset in area 24, number of bytes, value (R88). -/
structure FbWrite where
  off   : Nat
  bytes : Nat
  value : Word
  deriving DecidableEq, Repr

/-- FREE VALUE (log entry 6). `HOSTCLOCK` (R484): the host's epoch milliseconds at the n-th read of the host clock. -/
opaque Config.hostClock : Nat → Nat

/-- FREE VALUE (log entry 7). `RAMDESC` read (R87): offset in area 2 and number of bytes to a value, or `none` for `Fail`. -/
opaque Config.ramDescRead : Nat → Nat → Option Word

/-- FREE VALUE (log entry 7). `RAMDESC` write (R87): offset, number of bytes and value to `true` for `Ok`. -/
opaque Config.ramDescWrite : Nat → Nat → Word → Bool

/-- FREE VALUE (log entry 8). `FB` read (R88) where the source documents no value: the framebuffer's writes so far (newest
first), offset in area 24 and number of bytes to a value, or `none` for `Fail`. -/
opaque Config.fbRead : List FbWrite → Nat → Nat → Option Word

/-- FREE VALUE (log entry 8). The framebuffer's height, in its SIZE value (R88). -/
opaque Config.fbHeight : Word

/-- FREE VALUE (log entry 8). The framebuffer's width, in its SIZE value (R88). -/
opaque Config.fbWidth : Word

/-- FREE VALUE (log entry 8). The framebuffer's VRAM byte count (R88). -/
opaque Config.fbVramBytes : Word

/-- FREE VALUE (log entry 8). `FB` write (R88): the writes so far and this one to `true` for `Ok`. -/
opaque Config.fbWrite : List FbWrite → FbWrite → Bool

/-- FREE VALUE (log entry 20). What Drive size puts into the 32-bit port_b for a count of blocks past 32 bits (R471). -/
opaque Config.longBlockCount : Nat → Word

/-- FREE VALUE (log entry 9). `HUB_CTRL_MAGIC` (R476, D37: OPEN): the magic of the hub's controller. -/
opaque Config.hubCtrlMagic : Word

end Sys2Proof
end

