-- ==== Sys2Proof/WellFormed.lean ====
section
/-! DEFINITION. Which parameters make a machine of the spec: the constraints on the encoding numbers (R162) and the
bounds on the construction's parameters (R10, R84, R97, R482, R495); and which instructions a numbering has. Each operand's
type holds exactly the values of its field (R152), so the one check on an instruction is whether it carries a shift. -/

namespace Sys2Proof

/-- The three group codes (R151, R161). -/
def groupReg : BitVec 6 := 0x39
/-- The default group of MUL, DIV, DIVS, MOD, LL, SC, SYS and BRK (R161, R163). -/
def groupGrp : BitVec 6 := 0x31
/-- The privileged group (R161). -/
def groupPriv : BitVec 6 := 0x29

/-- The opcode of the group that one of the eight instructions of R162 (e) is in. -/
def ExtGroup.code : ExtGroup → BitVec 6
  | .reg => groupReg
  | .grp => groupGrp

/-- R162 (b): a 6-bit opcode that may select an instruction outside the groups: its low three bits are neither 0b110
nor 0b111, and it is no group code. -/
def opcodeFree (op : BitVec 6) : Bool :=
  op.setWidth 3 != 6 && op.setWidth 3 != 7 && op != groupReg && op != groupGrp && op != groupPriv

/-- R162 (a), (b) for the instructions outside the groups. -/
def Encoding.opcodesWf (e : Encoding) : Bool :=
  decide (MajorOp.all.map e.opcode).Nodup && MajorOp.all.all (fun o => opcodeFree (e.opcode o))

/-- R162 (a), (d) for group 0x39: distinct function codes, the three stores at 9, 10 and 11. -/
def Encoding.regWf (e : Encoding) : Bool :=
  decide (RegOp.all.map e.regFunct).Nodup &&
    [RegOp.stbx, .stix, .stlx].all (fun o => e.regFunct o == 9 || e.regFunct o == 10 || e.regFunct o == 11)

/-- R162 (a), (e) for the eight instructions whose group is OPEN: no two have one group and function code, and one that is
in group 0x39 has no other member's function code. -/
def Encoding.grpWf (e : Encoding) : Bool :=
  decide (GrpOp.all.map e.grpCode).Nodup &&
    GrpOp.all.all (fun o => (e.grpCode o).group == .grp || RegOp.all.all (fun r => e.regFunct r != (e.grpCode o).funct))

/-- R162 (a), (c) for group 0x29. -/
def Encoding.privWf (e : Encoding) : Bool := decide (PrivOp.all.map e.privFunct).Nodup

/-- An assignment of the OPEN numbers that R162 allows. -/
def Encoding.wf (e : Encoding) : Bool := e.opcodesWf && e.regWf && e.grpWf && e.privWf

/-- A shift of `x[rB]` is there exactly where the encoding puts the instruction in group 0x39 (R156, R157). -/
def Encoding.srcOk (e : Encoding) (o : GrpOp) : SrcB → Bool
  | .reg _ => (e.grpCode o).group == .grp
  | .shifted _ _ => (e.grpCode o).group == .reg

/-- The instruction is one of the encoding's (R156, R157): its operands fit the format of its group. -/
def Instr.wf (e : Encoding) : Instr → Bool
  | .mul _ _ b => e.srcOk .mul b
  | .div _ _ b => e.srcOk .div b
  | .divs _ _ b => e.srcOk .divs b
  | .mod _ _ b => e.srcOk .mod b
  | .sc _ _ b => e.srcOk .sc b
  | .j _ | .jal _ | .addi _ _ _ | .subi _ _ _ | .slti _ _ _ | .sltis _ _ _ | .andi _ _ _ | .ori _ _ _ | .xori _ _ _
  | .lui _ _ _ | .jalr _ _ _ | .ldb _ _ _ | .ldi _ _ _ | .ldl _ _ _ | .stb _ _ _ | .sti _ _ _ | .stl _ _ _
  | .beq _ _ | .bne _ _ | .blt _ _ | .add _ _ _ _ | .sub _ _ _ _ | .slt _ _ _ _ | .slts _ _ _ _ | .and _ _ _ _
  | .or _ _ _ _ | .xor _ _ _ _ | .nor _ _ _ _ | .ldbx _ _ _ _ | .ldix _ _ _ _ | .ldlx _ _ _ _ | .stbx _ _ _ _
  | .stix _ _ _ _ | .stlx _ _ _ _ | .ll _ _ | .sys | .brk | .fwc | .rfe | .hlt | .ftlb | .mtcr _ _ | .mfcr _ _ => true

/-- The parameters are those of a machine (R10, R84, R97, R162, R482): `RAM_SIZE` in 1..0x1000_0000, a ROM of at most
0x2_0000 bytes, an allowed encoding, and a UART vector in 1..63 where there is one. -/
def Config.wf (c : Config) : Bool :=
  c.enc.wf && decide (0 < c.ramSize) && decide (c.ramSize ≤ 0x10000000) && decide (c.romLen ≤ 0x20000) &&
    (match c.uartIrq with
     | none => true
     | some v => decide (1 ≤ v) && decide (v ≤ 63))

end Sys2Proof
end

