-- ==== Sys2Proof/Decode.lean ====
section
/-! DEFINITION. The decoder (spec R150 to R173), total on every word and on any bytes, rejecting by name; after it the
encoder, written from the same formats; and the candidate numbering that `State.reset` takes for the OPEN numbers. -/

namespace Sys2Proof

/-- Why a word is no instruction (R170). In each case the machine raises INVINST, or INVPRVG for a word of the
privileged group in user mode (R300). -/
inductive Undecoded where
  /-- An opcode that no instruction uses. -/
  | unusedOpcode (op : BitVec 6)
  /-- A function code of group 0x39 that no member uses. -/
  | unusedRegFunct (f : BitVec 4)
  /-- A function code of group 0x31 that no member uses. -/
  | unusedGrpFunct (f : BitVec 4)
  /-- A function code of the privileged group that no member uses. -/
  | unusedPrivFunct (f : BitVec 4)
  /-- Fewer than the four bytes of an instruction (R150); a fetch never gives this. -/
  | truncated
  deriving DecidableEq, Repr

/-- Field `major`, w[2:0] (R152). -/
def fMajor (w : Word) : BitVec 3 := w.extractLsb' 0 3
/-- Field `op`, w[5:0] (R152). -/
def fOp (w : Word) : BitVec 6 := w.extractLsb' 0 6
/-- Field `rD`, w[10:6] (R152). -/
def fRD (w : Word) : RegIdx := w.extractLsb' 6 5
/-- Field `rA`, w[15:11] (R152). -/
def fRA (w : Word) : RegIdx := w.extractLsb' 11 5
/-- Field `rB`, w[20:16] (R152). -/
def fRB (w : Word) : RegIdx := w.extractLsb' 16 5
/-- Field `shamt`, w[25:21] (R152). -/
def fShamt (w : Word) : BitVec 5 := w.extractLsb' 21 5
/-- Field `shtype`, w[27:26] (R152). -/
def fShtype (w : Word) : BitVec 2 := w.extractLsb' 26 2
/-- Field `funct`, w[31:28] (R152). -/
def fFunct (w : Word) : BitVec 4 := w.extractLsb' 28 4
/-- Field `imm16`, w[31:16] (R152). -/
def fImm16 (w : Word) : BitVec 16 := w.extractLsb' 16 16
/-- Field `disp21`, w[31:11] (R152). -/
def fDisp21 (w : Word) : BitVec 21 := w.extractLsb' 11 21
/-- Field `target29`, w[31:3] (R152). -/
def fTarget29 (w : Word) : BitVec 29 := w.extractLsb' 3 29

/-- The shift type a `shtype` field names: 0 LSL, 1 LSR, 2 ASR, 3 ROR (R152). -/
def ShiftType.ofBits (b : BitVec 2) : ShiftType :=
  if b = 0 then .lsl else if b = 1 then .lsr else if b = 2 then .asr else .ror

/-- The `shtype` field of a shift type (R152). -/
def ShiftType.toBits : ShiftType → BitVec 2
  | .lsl => 0 | .lsr => 1 | .asr => 2 | .ror => 3

/-- The instruction outside the groups whose opcode is `b`, if there is one (R151, R162). -/
def Encoding.findMajor (e : Encoding) (b : BitVec 6) : Option MajorOp :=
  MajorOp.all.find? (fun o => e.opcode o == b)
/-- The format R member of group 0x39 whose function code is `f`, if there is one (R151, R162). -/
def Encoding.findReg (e : Encoding) (f : BitVec 4) : Option RegOp :=
  RegOp.all.find? (fun o => e.regFunct o == f)
/-- The instruction among those whose group is OPEN that is in group `g` with function code `f`, if there is one (R151,
R162 (e)). -/
def Encoding.findGrp (e : Encoding) (g : ExtGroup) (f : BitVec 4) : Option GrpOp :=
  GrpOp.all.find? (fun o => e.grpCode o == ⟨g, f⟩)
/-- The member of group 0x29 whose function code is `f`, if there is one (R151, R162). -/
def Encoding.findPriv (e : Encoding) (f : BitVec 4) : Option PrivOp :=
  PrivOp.all.find? (fun o => e.privFunct o == f)

/-- The instruction of format I or B with opcode name `o` in word `w` (R154, R155). -/
def decodeMajor (o : MajorOp) (w : Word) : Instr :=
  match o with
  | .addi => .addi (fRD w) (fRA w) (fImm16 w)
  | .subi => .subi (fRD w) (fRA w) (fImm16 w)
  | .slti => .slti (fRD w) (fRA w) (fImm16 w)
  | .sltis => .sltis (fRD w) (fRA w) (fImm16 w)
  | .andi => .andi (fRD w) (fRA w) (fImm16 w)
  | .ori => .ori (fRD w) (fRA w) (fImm16 w)
  | .xori => .xori (fRD w) (fRA w) (fImm16 w)
  | .lui => .lui (fRD w) (fRA w) (fImm16 w)
  | .jalr => .jalr (fRD w) (fRA w) (fImm16 w)
  | .ldb => .ldb (fRD w) (fRA w) (fImm16 w)
  | .ldi => .ldi (fRD w) (fRA w) (fImm16 w)
  | .ldl => .ldl (fRD w) (fRA w) (fImm16 w)
  | .stb => .stb (fRD w) (fRA w) (fImm16 w)
  | .sti => .sti (fRD w) (fRA w) (fImm16 w)
  | .stl => .stl (fRD w) (fRA w) (fImm16 w)
  | .beq => .beq (fRD w) (fDisp21 w)
  | .bne => .bne (fRD w) (fDisp21 w)
  | .blt => .blt (fRD w) (fDisp21 w)

/-- The shift operand of a format R word (R156). -/
def fShift (w : Word) : Shift := ⟨fShamt w, ShiftType.ofBits (fShtype w)⟩

/-- The member `o` of group 0x39 in word `w` (R156). -/
def decodeReg (o : RegOp) (w : Word) : Instr :=
  match o with
  | .add => .add (fRD w) (fRA w) (fRB w) (fShift w)
  | .sub => .sub (fRD w) (fRA w) (fRB w) (fShift w)
  | .slt => .slt (fRD w) (fRA w) (fRB w) (fShift w)
  | .slts => .slts (fRD w) (fRA w) (fRB w) (fShift w)
  | .and => .and (fRD w) (fRA w) (fRB w) (fShift w)
  | .or => .or (fRD w) (fRA w) (fRB w) (fShift w)
  | .xor => .xor (fRD w) (fRA w) (fRB w) (fShift w)
  | .nor => .nor (fRD w) (fRA w) (fRB w) (fShift w)
  | .ldbx => .ldbx (fRD w) (fRA w) (fRB w) (fShift w)
  | .ldix => .ldix (fRD w) (fRA w) (fRB w) (fShift w)
  | .ldlx => .ldlx (fRD w) (fRA w) (fRB w) (fShift w)
  | .stbx => .stbx (fRD w) (fRA w) (fRB w) (fShift w)
  | .stix => .stix (fRD w) (fRA w) (fRB w) (fShift w)
  | .stlx => .stlx (fRD w) (fRA w) (fRB w) (fShift w)

/-- The operand rB that a word of group `g` gives an instruction of R162 (e): group 0x31 has no shift and does not read
bits 27:21 (R157), every member of group 0x39 has that of format R (R156). DEDUCED (log entry 3): R156 governs there. -/
def ExtGroup.srcB (g : ExtGroup) (w : Word) : SrcB :=
  match g with
  | .reg => .shifted (fRB w) (fShift w)
  | .grp => .reg (fRB w)

/-- The instruction `o` of R162 (e) in word `w` of group `g`; the register fields it does not name are not read (R171), nor
is the shift where it names no rB. -/
def decodeGrp (g : ExtGroup) (o : GrpOp) (w : Word) : Instr :=
  match o with
  | .mul => .mul (fRD w) (fRA w) (g.srcB w)
  | .div => .div (fRD w) (fRA w) (g.srcB w)
  | .divs => .divs (fRD w) (fRA w) (g.srcB w)
  | .mod => .mod (fRD w) (fRA w) (g.srcB w)
  | .ll => .ll (fRD w) (fRA w)
  | .sc => .sc (fRD w) (fRA w) (g.srcB w)
  | .sys => .sys
  | .brk => .brk

/-- The member `o` of the privileged group in word `w` (R158). -/
def decodePriv (o : PrivOp) (w : Word) : Instr :=
  match o with
  | .fwc => .fwc
  | .rfe => .rfe
  | .hlt => .hlt
  | .ftlb => .ftlb
  | .mtcr => .mtcr (fRB w) (fRA w)
  | .mfcr => .mfcr (fRD w) (fRB w)

/-- The decoder: the decode order of R151, for any assignment of the OPEN numbers. -/
def decode (e : Encoding) (w : Word) : Except Undecoded Instr :=
  if fMajor w = 6 then .ok (.j (fTarget29 w))
  else if fMajor w = 7 then .ok (.jal (fTarget29 w))
  else if fOp w = groupReg then
    match e.findReg (fFunct w) with
    | some o => .ok (decodeReg o w)
    | none =>
      match e.findGrp .reg (fFunct w) with
      | some o => .ok (decodeGrp .reg o w)
      | none => .error (.unusedRegFunct (fFunct w))
  else if fOp w = groupGrp then
    match e.findGrp .grp (fFunct w) with
    | some o => .ok (decodeGrp .grp o w)
    | none => .error (.unusedGrpFunct (fFunct w))
  else if fOp w = groupPriv then
    match e.findPriv (fFunct w) with
    | some o => .ok (decodePriv o w)
    | none => .error (.unusedPrivFunct (fFunct w))
  else
    match e.findMajor (fOp w) with
    | some o => .ok (decodeMajor o w)
    | none => .error (.unusedOpcode (fOp w))

/-- The 32-bit word that four bytes hold, the first at the lowest address: little-endian (R85, D1). -/
def wordOfBytes (b0 b1 b2 b3 : Byte) : Word := b3 ++ b2 ++ b1 ++ b0

/-- Byte `k` of a word in the order it lies in memory: bits 8k+7..8k (R85). -/
def byteOfWord (w : Word) (k : Nat) : Byte := w.extractLsb' (8 * k) 8

/-- The decoder on bytes: one instruction from the first four bytes, little-endian (R85, R150), and the bytes after. -/
def decodeBytes (e : Encoding) : List Byte → Except Undecoded (Instr × List Byte)
  | b0 :: b1 :: b2 :: b3 :: rest =>
    match decode e (wordOfBytes b0 b1 b2 b3) with
    | .ok i => .ok (i, rest)
    | .error u => .error u
  | _ => .error .truncated

/-- Format J (R153): target29 ++ major. -/
def packJ (major : BitVec 3) (target29 : BitVec 29) : Word := target29 ++ major
/-- Format B (R154): disp21 ++ rD ++ op. -/
def packB (op : BitVec 6) (rD : RegIdx) (disp21 : BitVec 21) : Word := disp21 ++ rD ++ op
/-- Format I (R155): imm16 ++ rA ++ rD ++ op. -/
def packI (op : BitVec 6) (rD rA : RegIdx) (imm16 : BitVec 16) : Word := imm16 ++ rA ++ rD ++ op
/-- Format R (R156): funct ++ shtype ++ shamt ++ rB ++ rA ++ rD ++ 0b111001. -/
def packR (f : BitVec 4) (rD rA rB : RegIdx) (sh : Shift) : Word :=
  f ++ sh.type.toBits ++ sh.amount ++ rB ++ rA ++ rD ++ groupReg
/-- The register field of an operand rB (R152). -/
def SrcB.idx : SrcB → RegIdx
  | .reg r => r
  | .shifted r _ => r
/-- Bits 27:21 of a group member's word: shtype ++ shamt where it has a shift (R156), else ignored and 0 (R157, R158). -/
def SrcB.shiftBits : SrcB → BitVec 7
  | .reg _ => 0
  | .shifted _ sh => sh.type.toBits ++ sh.amount
/-- A member of a group (R156 to R158): funct ++ bits 27:21 ++ rB ++ rA ++ rD ++ group. -/
def packG (group : BitVec 6) (f : BitVec 4) (rD rA : RegIdx) (b : SrcB) : Word :=
  f ++ b.shiftBits ++ b.idx ++ rA ++ rD ++ group

/-- The encoder: the word of an instruction under an assignment of the OPEN numbers (R153 to R158); bits and fields that
the format does not read are 0. -/
def encode (e : Encoding) : Instr → Word
  | .j t => packJ 6 t
  | .jal t => packJ 7 t
  | .addi d a i => packI e.addi d a i
  | .subi d a i => packI e.subi d a i
  | .slti d a i => packI e.slti d a i
  | .sltis d a i => packI e.sltis d a i
  | .andi d a i => packI e.andi d a i
  | .ori d a i => packI e.ori d a i
  | .xori d a i => packI e.xori d a i
  | .lui d a i => packI e.lui d a i
  | .jalr d a i => packI e.jalr d a i
  | .ldb d a i => packI e.ldb d a i
  | .ldi d a i => packI e.ldi d a i
  | .ldl d a i => packI e.ldl d a i
  | .stb d a i => packI e.stb d a i
  | .sti d a i => packI e.sti d a i
  | .stl d a i => packI e.stl d a i
  | .beq d p => packB e.beq d p
  | .bne d p => packB e.bne d p
  | .blt d p => packB e.blt d p
  | .add d a b sh => packR e.add d a b sh
  | .sub d a b sh => packR e.sub d a b sh
  | .slt d a b sh => packR e.slt d a b sh
  | .slts d a b sh => packR e.slts d a b sh
  | .and d a b sh => packR e.and d a b sh
  | .or d a b sh => packR e.or d a b sh
  | .xor d a b sh => packR e.xor d a b sh
  | .nor d a b sh => packR e.nor d a b sh
  | .ldbx d a b sh => packR e.ldbx d a b sh
  | .ldix d a b sh => packR e.ldix d a b sh
  | .ldlx d a b sh => packR e.ldlx d a b sh
  | .stbx d a b sh => packR e.stbx d a b sh
  | .stix d a b sh => packR e.stix d a b sh
  | .stlx d a b sh => packR e.stlx d a b sh
  | .mul d a b => packG e.mul.group.code e.mul.funct d a b
  | .div d a b => packG e.div.group.code e.div.funct d a b
  | .divs d a b => packG e.divs.group.code e.divs.funct d a b
  | .mod d a b => packG e.mod.group.code e.mod.funct d a b
  | .sc d a b => packG e.sc.group.code e.sc.funct d a b
  | .ll d a => packG e.ll.group.code e.ll.funct d a (.reg 0)
  | .sys => packG e.sys.group.code e.sys.funct 0 0 (.reg 0)
  | .brk => packG e.brk.group.code e.brk.funct 0 0 (.reg 0)
  | .fwc => packG groupPriv e.fwc 0 0 (.reg 0)
  | .rfe => packG groupPriv e.rfe 0 0 (.reg 0)
  | .hlt => packG groupPriv e.hlt 0 0 (.reg 0)
  | .ftlb => packG groupPriv e.ftlb 0 0 (.reg 0)
  | .mtcr c a => packG groupPriv e.mtcr 0 a (.reg c)
  | .mfcr d c => packG groupPriv e.mfcr d 0 (.reg c)

/-- The numbering that `State.reset` takes for the OPEN `ENC_<M>`. PRESUMED (log entry 2): for the instructions outside
the groups and group 0x39 it is the candidate of R164; for groups 0x31 and 0x29 the spec has no candidate and the codes
are those recalled of the XR/17032 family. The placement in group 0x31 is R163's default. No
statement rests on a number of it but those that name it. -/
def Encoding.candidate : Encoding where
  addi  := 0x3c
  subi  := 0x34
  slti  := 0x2c
  sltis := 0x24
  andi  := 0x1c
  ori   := 0xc
  xori  := 0x14
  lui   := 0x4
  jalr  := 0x38
  ldb   := 0x3b
  ldi   := 0x33
  ldl   := 0x2b
  stb   := 0x3a
  sti   := 0x32
  stl   := 0x2a
  beq   := 0x3d
  bne   := 0x35
  blt   := 0x2d
  add   := 7
  sub   := 6
  slt   := 5
  slts  := 4
  and   := 3
  or    := 1
  xor   := 2
  nor   := 0
  ldbx  := 15
  ldix  := 14
  ldlx  := 13
  stbx  := 11
  stix  := 10
  stlx  := 9
  mul   := ⟨.grp, 15⟩
  div   := ⟨.grp, 13⟩
  divs  := ⟨.grp, 12⟩
  mod   := ⟨.grp, 11⟩
  ll    := ⟨.grp, 9⟩
  sc    := ⟨.grp, 8⟩
  sys   := ⟨.grp, 0⟩
  brk   := ⟨.grp, 1⟩
  fwc   := 10
  rfe   := 11
  hlt   := 12
  ftlb  := 13
  mtcr  := 14
  mfcr  := 15

/-- The instruction that the decoder reads from an instruction whose bits are `w`, numbered as the opcode table numbers
them: the bits are laid out as four bytes, lowest first (R85), every bit from `nbits` up 0, and given to the decoder
under the numbering of `State.reset`. -/
def decodeTableWord (nbits w : Nat) : Option Instr :=
  let v : Word := BitVec.ofNat 32 (w % 2 ^ nbits)
  match decodeBytes Encoding.candidate [byteOfWord v 0, byteOfWord v 1, byteOfWord v 2, byteOfWord v 3] with
  | .ok (i, _) => some i
  | .error _ => none

end Sys2Proof
end

