-- ==== Sys2Proof/Machine/Defaults.lean ====
section
/-! DEFINITION. The parameters of the machine that `State.reset` describes: each default that spec R10 names, and a
value named in the assumption log where R10 leaves the parameter OPEN. -/

namespace Sys2Proof.Machine

/-- The parameters at `State.reset`. R10 gives the defaults of `STORE_DATA_FIELD`, `ALIGN_TRAP`, `MFCR_R0_VISIBLE`,
`DIVS_OVF`, `EPC_CALLTRAP`, `UART_IRQ`, `RTC_MS_MODE` and `KBD_SCAN` (log entry 11). For the OPEN ones: PRESUMED (log
entry 2) the numbering; DESIGN CHOICE (log entries 4, 8) 1 MiB of RAM (the value of the spec's own vectors), an empty
ROM, and no framebuffer. -/
def defaultConfig : Config where
  enc            := Encoding.candidate
  ramSize        := 0x100000
  romLen         := 0
  fbPresent      := false
  storeDataField := .rD
  alignTrap      := false
  mfcrR0Visible  := true
  divsOvf        := 0x80000000
  epcCallTrap    := .next
  uartIrq        := none
  rtcMsMode      := .subsecond
  kbdScan        := .interleaved

end Sys2Proof.Machine
end

