-- ==== Sys2Proof/Machine/State.lean ====
section
/-! DEFINITION. The machine's state as plain data: the CPU (spec R51), the platform (R51, R80 to R101, R410, R469 to R489),
the parameters, and the host's calls still to come (R8, R490); the reasons a step can stop; and the state after reset
(R505). -/

namespace Sys2Proof.Machine

/-- Why a step stops with a fault. -/
inductive Fault where
  /-- The fatal state (R434): a non-recoverable exception was raised while `exc_pending` was nonzero (R430). Raised by
  `step` and by no instruction's meaning. Safe: the spec itself ends the run there. -/
  | nestedException
  deriving DecidableEq, Repr

/-- Why there is no meaning to give. -/
inductive Refusal where
  /-- An instruction that has no meaning in this model; raised by an arm of `exec` only. Safe: nothing can be proved of
  a next state. No arm of this model uses it. -/
  | notModelled (mnemonic : String)
  /-- A construction that is no machine of the spec (R495: a RAM size, ROM length or number of disks out of bounds, or
  encoding numbers that R162 forbids); raised by `State.construct` only. Safe: the spec refuses it too. -/
  | notAMachine
  deriving DecidableEq, Repr

/-- Bytes by address: a list of (address, byte) with the addresses strictly rising and no entry equal to 0, which is what
an unlisted address reads as (log entry 5). -/
abbrev Memory := List Host.Cell

/-- The width of a bus access (R102): byte, int, long. -/
inductive Width where
  | byte | int | long
  deriving DecidableEq, Repr

/-- The kind of a CPU access (R120, R124). -/
inductive AccessKind where
  | read | write
  deriving DecidableEq, Repr

/-- The exceptions of R400. -/
inductive Exc where
  | interrupt | syscall | fwcall | buserror | brkpoint | invinst | invprvg | unaligned | pagefault | pagewrite
  deriving DecidableEq, Repr

/-- A general register file, entry 0 the R0 cell (R30, R31). -/
abbrev RegFile := Vector Word 32

/-- The control registers CR[0] to CR[31] (R40). -/
abbrev CrFile := Vector Word 32

/-- The CPU (R51). -/
structure Cpu where
  /-- R0 to R31; entry 0 is the R0 cell (R30 to R32). -/
  regs       : RegFile
  /-- The program counter (R34). -/
  pc         : Word
  /-- The control registers (R40 to R50). -/
  cr         : CrFile
  /-- `exc_pending` (R37): `none` for the code 0, else the exception raised and not yet delivered. -/
  excPending : Option Exc
  /-- The LL/SC flag (R38). -/
  locked     : Bool
  /-- The HLT latch (R39). -/
  halted     : Bool
  deriving DecidableEq, Repr

/-- The interrupt controller's registers (R410); the claim/complete port holds no state. -/
structure Lsic where
  mask0 : Word
  mask1 : Word
  pend0 : Word
  pend1 : Word
  deriving DecidableEq, Repr

/-- One attached disk image (R469): its length and its bytes by position. -/
structure DiskImage where
  size  : Nat
  bytes : Memory
  deriving DecidableEq, Repr

/-- The disk controller (R469). Its 512-byte transfer buffer is the bytes at 0xF802_0000 of the memory (R95). -/
structure Disk where
  images      : List DiskImage
  /-- `selected`; `none` for -1. -/
  selected    : Option Nat
  portA       : Word
  portB       : Word
  lastWhat    : Word
  lastDetails : Word
  irqEnabled  : Bool
  deriving DecidableEq, Repr

/-- One UART (R479) and the bytes it has emitted, in order (R494). -/
structure Uart where
  data       : Word
  lastData   : Word
  irqEnabled : Bool
  output     : List Byte
  deriving DecidableEq, Repr

/-- The real-time clock (R484). -/
structure Rtc where
  interval : Word
  acc      : Nat
  /-- `overridden` and `T`: the overridden clock in milliseconds, `none` when not overridden. -/
  override : Option Nat
  data     : Word
  deriving DecidableEq, Repr

/-- The Amanatsu hub and its controller, slot 0 (R476, R487). -/
structure Hub where
  selected : BitVec 4
  /-- Every slot's `interrupt_line` (R476); 0 is disabled. -/
  lines    : Vector Nat 16
  portA    : Word
  portB    : Word
  deriving DecidableEq, Repr

/-- The keyboard, slot 1 (R477); its interrupt line is entry 1 of the hub's lines. -/
structure Keyboard where
  isPressed          : Vector Bool 86
  outstandingPress   : Vector Bool 86
  outstandingRelease : Vector Bool 86
  portA              : Word
  portB              : Word
  deriving DecidableEq, Repr

/-- The platform block (R51): everything behind the bus. -/
structure Platform where
  /-- The bytes of RAM, NVRAM, the disk buffer and the boot ROM, by physical address (R84, R94, R95, R97). -/
  mem       : Memory
  /-- The 32 board registers; entry 0 is never read or written (R93). -/
  boardRegs : Vector Word 32
  lsic      : Lsic
  disk      : Disk
  uart0     : Uart
  uart1     : Uart
  rtc       : Rtc
  hub       : Hub
  kbd       : Keyboard
  /-- The accepted framebuffer writes, newest first: all that the opaque `FB` may depend on (R88). -/
  fbWrites  : List FbWrite
  /-- THE MODEL'S OWN: how often the host clock has been read, the argument of the free value `hostClock` (log entry 6). -/
  hostReads : Nat
  deriving DecidableEq, Repr

/-- Which UART (R479). -/
inductive UartId where
  | uart0 | uart1
  deriving DecidableEq, Repr

/-- A call the host makes between CPU steps (R490). -/
inductive HostEvent where
  /-- `rtc.tick(ms)` (R491). -/
  | rtcTick (ms : Nat)
  /-- A key pressed, by internal code (R492). -/
  | keyDown (code : Nat)
  /-- A key released, by internal code (R492). -/
  | keyUp (code : Nat)
  /-- A character received by a UART (R493). -/
  | uartReceive (uart : UartId) (char : Byte)
  deriving DecidableEq, Repr

/-- The machine. -/
structure State where
  /-- The parameters (R10); no step changes them. -/
  config   : Config
  cpu      : Cpu
  plat     : Platform
  /-- The fatal mark (R434, R505). -/
  fatal    : Bool
  /-- THE MODEL'S OWN: the host's calls still to come, one list for each CPU step, made before it (R8, log entry 10). -/
  schedule : List (List HostEvent)
  deriving DecidableEq, Repr

/-- RS, CR[0] (R41). -/
def crRS : CrIdx := 0
/-- ECAUSE, CR[1] (R42). -/
def crECAUSE : CrIdx := 1
/-- ERS, CR[2] (R43). -/
def crERS : CrIdx := 2
/-- EPC, CR[3] (R44). -/
def crEPC : CrIdx := 3
/-- EVEC, CR[4] (R45). -/
def crEVEC : CrIdx := 4
/-- PGTB, CR[5] (R46). -/
def crPGTB : CrIdx := 5
/-- ASID, CR[6] (R48). -/
def crASID : CrIdx := 6
/-- EBADADDR, CR[7] (R49). -/
def crEBADADDR : CrIdx := 7
/-- CPUID, CR[8] (R47). -/
def crCPUID : CrIdx := 8
/-- FWVEC, CR[9] (R50). -/
def crFWVEC : CrIdx := 9

/-- The CPU at power-on (R505). R1 to R31, ECAUSE, ERS, EPC, PGTB, ASID, EBADADDR and CR[10..31] are unspecified by the
spec (D18); DESIGN CHOICE (log entry 1): 0. -/
def Cpu.reset : Cpu where
  regs       := Vector.replicate 32 0
  pc         := 0xFFFE0000
  cr         := (Vector.replicate 32 0).set 8 0x80060000
  excPending := none
  locked     := false
  halted     := false

/-- R410: all four words 0. -/
def Lsic.reset : Lsic := ⟨0, 0, 0, 0⟩

/-- R474 at power-on, with no image attached (log entry 4). -/
def Disk.reset : Disk where
  images      := []
  selected    := none
  portA       := 0
  portB       := 0
  lastWhat    := 0
  lastDetails := 0
  irqEnabled  := false

/-- R483 at power-on. -/
def Uart.reset : Uart := ⟨0, 0xFFFF, false, []⟩

/-- R486. -/
def Rtc.reset : Rtc := ⟨0, 0, none, 0⟩

/-- R488, without the keyboard. -/
def Hub.reset : Hub := ⟨0, Vector.replicate 16 0, 0, 0⟩

/-- R489. -/
def Keyboard.reset : Keyboard :=
  ⟨Vector.replicate 86 false, Vector.replicate 86 false, Vector.replicate 86 false, 0, 0⟩

/-- The platform at power-on (R505). RAM_INIT and NVRAM_INIT are OPEN; DESIGN CHOICE (log entry 5): nothing listed. -/
def Platform.reset : Platform where
  mem       := []
  boardRegs := Vector.replicate 32 0
  lsic      := Lsic.reset
  disk      := Disk.reset
  uart0     := Uart.reset
  uart1     := Uart.reset
  rtc       := Rtc.reset
  hub       := Hub.reset
  kbd       := Keyboard.reset
  fbWrites  := []
  hostReads := 0

/-- The machine right after power-on reset (R500, R505) with the parameters of `defaultConfig`. -/
def State.reset : State where
  config   := defaultConfig
  cpu      := Cpu.reset
  plat     := Platform.reset
  fatal    := false
  schedule := []

end Sys2Proof.Machine
end

