-- ==== Sys2Proof/Machine/Lsic.lean ====
section
/-! DEFINITION. The interrupt controller LSIC: registers, claim, complete, raise and the pending signal (spec R410 to R418). -/

namespace Sys2Proof.Machine

/-- `MASK(v)` (R410): set masks the vector. -/
def Lsic.masked (l : Lsic) (v : Nat) : Bool := if v < 32 then l.mask0.getLsbD v else l.mask1.getLsbD (v - 32)

/-- `PEND(v)` (R410). -/
def Lsic.pending (l : Lsic) (v : Nat) : Bool := if v < 32 then l.pend0.getLsbD v else l.pend1.getLsbD (v - 32)

/-- The bit of a vector in its word: bit `v & 31` (R410). -/
def vectorBit (v : Nat) : Word := BitVec.ofNat 32 (2 ^ (v % 32))

/-- `PEND(v) <- 1`. -/
def Lsic.setPend (l : Lsic) (v : Nat) : Lsic :=
  if v < 32 then { l with pend0 := l.pend0 ||| vectorBit v } else { l with pend1 := l.pend1 ||| vectorBit v }

/-- `PEND(v) <- 0`. -/
def Lsic.clearPend (l : Lsic) (v : Nat) : Lsic :=
  if v < 32 then { l with pend0 := l.pend0 &&& ~~~(vectorBit v) } else { l with pend1 := l.pend1 &&& ~~~(vectorBit v) }

/-- Raise(v) (R415): sets the pending bit of a vector 1..63; a raise of any other vector is not performed. -/
def Lsic.raise (l : Lsic) (v : Nat) : Lsic := if 1 ≤ v ∧ v ≤ 63 then l.setPend v else l

/-- Claim, a read of register 4 (R413): the lowest pending unmasked vector of 1..63, or 0. -/
def Lsic.claim (l : Lsic) : Nat := ((List.range' 1 63).find? (fun v => l.pending v && !l.masked v)).getD 0

/-- Complete, a write of register 4 (R414): clears the pending bit of a vector up to 63. -/
def Lsic.complete (l : Lsic) (c : Word) : Lsic := if c.toNat ≤ 63 then l.clearPend c.toNat else l

/-- The pending signal to the CPU (R416). -/
def Lsic.signal (l : Lsic) : Bool := ((~~~l.mask0 &&& l.pend0) ||| (~~~l.mask1 &&& l.pend1)) != 0

/-- A register read, index 0..4 (R411, R413); `none` where there is no register (R96). -/
def Lsic.readReg (l : Lsic) (k : Nat) : Option Word :=
  match k with
  | 0 => some l.mask0
  | 1 => some l.mask1
  | 2 => some l.pend0
  | 3 => some l.pend1
  | 4 => some (BitVec.ofNat 32 l.claim)
  | _ => none

/-- A register write, index 0..4 (R412, R414); `none` where there is no register (R96). -/
def Lsic.writeReg (l : Lsic) (k : Nat) (v : Word) : Option Lsic :=
  match k with
  | 0 => some { l with mask0 := v }
  | 1 => some { l with mask1 := v }
  | 2 => some { l with pend0 := v }
  | 3 => some { l with pend1 := v }
  | 4 => some (l.complete v)
  | _ => none

end Sys2Proof.Machine
end

