-- ==== Sys2Proof/Machine/Memory.lean ====
section
/-! DEFINITION. Byte-addressed memory: one byte, the little-endian accesses of 1, 2 and 4 bytes built from it (spec R85),
and the block copy of the disk controller (R471). -/

namespace Sys2Proof.Machine

/-- The number of bytes an access moves (R102). -/
def Width.bytes : Width → Nat
  | .byte => 1
  | .int => 2
  | .long => 4

/-- The low 8n bits of a value, the rest 0: what an access of n bytes reads or writes (R15, R92). -/
def Width.trunc (n : Width) (v : Word) : Word :=
  match n with
  | .byte => (v.setWidth 8).setWidth 32
  | .int => (v.setWidth 16).setWidth 32
  | .long => v

/-- What an address that the list does not name reads as (R84, R94, D30: OPEN; log entry 5). DESIGN CHOICE: 0. -/
def Memory.unlisted : Byte := 0

/-- The byte at an address. -/
def Memory.read : Memory → Nat → Byte
  | [], _ => Memory.unlisted
  | (a, b) :: m, k => if k < a then Memory.unlisted else if k = a then b else Memory.read m k

/-- Write one byte, keeping the canonical form: the value of an unlisted address removes the entry. -/
def Memory.write : Memory → Nat → Byte → Memory
  | [], k, v => if v = Memory.unlisted then [] else [(k, v)]
  | (a, b) :: m, k, v =>
    if k < a then (if v = Memory.unlisted then (a, b) :: m else (k, v) :: (a, b) :: m)
    else if k = a then (if v = Memory.unlisted then m else (k, v) :: m)
    else (a, b) :: Memory.write m k v

/-- Every address of the list is at least `lo`, the addresses rise strictly, and no entry reads as an unlisted one. -/
def Memory.wfFrom : Nat → Memory → Bool
  | _, [] => true
  | lo, (a, b) :: m => decide (lo ≤ a) && b != Memory.unlisted && Memory.wfFrom (a + 1) m

/-- The canonical form: equal memories are equal lists. -/
def Memory.wf (m : Memory) : Bool := Memory.wfFrom 0 m

/-- Read 1, 2 or 4 bytes from address `a` on, little-endian (R85), as a value of 32 bits. -/
def Memory.readLE (m : Memory) (a : Nat) : Width → Word
  | .byte => (m.read a).setWidth 32
  | .int => (m.read (a + 1) ++ m.read a).setWidth 32
  | .long => m.read (a + 3) ++ m.read (a + 2) ++ m.read (a + 1) ++ m.read a

/-- Write the low 1, 2 or 4 bytes of `v` from address `a` on: byte k of `v` at `a + k` (R85). -/
def Memory.writeLE (m : Memory) (a : Nat) (n : Width) (v : Word) : Memory :=
  match n with
  | .byte => m.write a (byteOfWord v 0)
  | .int => (m.write a (byteOfWord v 0)).write (a + 1) (byteOfWord v 1)
  | .long =>
    (((m.write a (byteOfWord v 0)).write (a + 1) (byteOfWord v 1)).write (a + 2) (byteOfWord v 2)).write (a + 3)
      (byteOfWord v 3)

/-- Copy `n` bytes of `src` from `sa` on into `dst` from `da` on. -/
def Memory.copy (dst : Memory) (da : Nat) (src : Memory) (sa : Nat) : Nat → Memory
  | 0 => dst
  | n + 1 => Memory.copy (dst.write da (src.read sa)) (da + 1) src (sa + 1) n

/-- Place a list of bytes from address `a` on. -/
def Memory.place (m : Memory) (a : Nat) : List Byte → Memory
  | [] => m
  | b :: bs => Memory.place (m.write a b) (a + 1) bs

end Sys2Proof.Machine
end

