-- ==== Sys2Proof/Machine/Devices.lean ====
section
/-! DEFINITION. The devices behind the citron ports: disk controller (spec R469 to R475), UARTs (R479 to R483), RTC (R484 to
R486), Amanatsu hub and keyboard (R476 to R478, R487 to R489), each with its reset, and the board reset (R101). -/

namespace Sys2Proof.Machine

/-- Raise a vector on the platform's LSIC (R415). -/
def Platform.raiseIrq (p : Platform) (v : Nat) : Platform := { p with lsic := p.lsic.raise v }

/-- The physical address of the disk transfer buffer (R95). -/
def dbufBase : Nat := 0xF8020000

/-- `block_count` of an image (R469); bytes past the last whole block do not count. -/
def DiskImage.blockCount (i : DiskImage) : Nat := i.size / 512

/-- The disk's LSIC vector (R472). -/
def diskVector : Nat := 3

/-- `write_info(what, details)` (R472). -/
def Platform.diskWriteInfo (p : Platform) (what details : Word) : Platform :=
  let p' := { p with disk := { p.disk with lastWhat := what, lastDetails := details } }
  if p.disk.irqEnabled then p'.raiseIrq diskVector else p'

/-- The selected image and the block number that port_a names, where a block command may run: a drive is selected and
`port_a < block_count` (R471, R475). -/
def Disk.target (d : Disk) : Option (Nat × DiskImage) :=
  match d.selected with
  | none => none
  | some i =>
    match d.images[i]? with
    | none => none
    | some img => if d.portA.toNat < img.blockCount then some (i, img) else none

/-- Command 2, read block (R471): the image's block into the buffer. -/
def Platform.diskRead (p : Platform) : Platform :=
  match p.disk.target with
  | none => p
  | some (_, img) =>
    { p with mem := p.mem.copy dbufBase img.bytes (p.disk.portA.toNat * 512) 512 }.diskWriteInfo 0 p.disk.portA

/-- Command 3, write block (R471): the buffer into the image's block. -/
def Platform.diskWrite (p : Platform) : Platform :=
  match p.disk.target with
  | none => p
  | some (i, img) =>
    let img' := { img with bytes := img.bytes.copy (p.disk.portA.toNat * 512) p.mem dbufBase 512 }
    { p with disk := { p.disk with images := p.disk.images.set i img' } }.diskWriteInfo 0 p.disk.portA

/-- A drive's block count as the 32-bit port_b takes it (R471). DESIGN CHOICE (log entry 20): the spec bounds no image and
states no value for a count of 2^32 or more, which is a free value. -/
def DiskImage.countWord (i : DiskImage) : Word :=
  if i.blockCount < 2 ^ 32 then BitVec.ofNat 32 i.blockCount else Config.longBlockCount i.blockCount

/-- Command 5, drive size (R471): the count is that of the drive port_a named before the command. -/
def Disk.driveSize (d : Disk) : Disk :=
  match d.images[d.portA.toNat]? with
  | some img => { d with portA := 1, portB := img.countWord }
  | none => { d with portA := 0, portB := 0 }

/-- A write to the disk's command port (R471). -/
def Platform.diskCommand (p : Platform) (c : Word) : Platform :=
  match c.toNat with
  | 1 => { p with disk := { p.disk with
      selected := if p.disk.portA.toNat < p.disk.images.length then some p.disk.portA.toNat else none } }
  | 2 => p.diskRead
  | 3 => p.diskWrite
  | 4 => { p with disk := { p.disk with portA := p.disk.lastWhat, portB := p.disk.lastDetails } }
  | 5 => { p with disk := p.disk.driveSize }
  | 6 => { p with disk := { p.disk with irqEnabled := true } }
  | 7 => { p with disk := { p.disk with irqEnabled := false } }
  | _ => p

/-- Disk controller reset (R474): the images and the buffer keep their contents. -/
def Disk.boardReset (d : Disk) : Disk := { Disk.reset with images := d.images }

/-- A write to a UART's command port (R480). -/
def Uart.command (u : Uart) (c : Word) : Uart :=
  match c.toNat with
  | 1 => { u with output := u.output ++ [byteOfWord u.data 0] }
  | 2 => { u with data := u.lastData, lastData := 0xFFFF }
  | 3 => { u with irqEnabled := true }
  | 4 => { u with irqEnabled := false }
  | _ => u

/-- UART reset (R483); the bytes already emitted are the host's. -/
def Uart.boardReset (u : Uart) : Uart := { Uart.reset with output := u.output }

/-- A UART of the platform. -/
def Platform.uart (p : Platform) : UartId → Uart
  | .uart0 => p.uart0
  | .uart1 => p.uart1

/-- The platform with one UART replaced. -/
def Platform.setUart (p : Platform) (n : UartId) (u : Uart) : Platform :=
  match n with
  | .uart0 => { p with uart0 := u }
  | .uart1 => { p with uart1 := u }

/-- `NOW` and the platform after it was read (R484): the overridden clock, or the next draw of the host's clock. -/
def Platform.rtcNow (p : Platform) : Nat × Platform :=
  match p.rtc.override with
  | some t => (t, p)
  | none => (Config.hostClock p.hostReads, { p with hostReads := p.hostReads + 1 })

/-- The RTC command 3 value of a clock reading (R484, D36). -/
def rtcMillis (mode : RtcMsMode) (now : Nat) : Word :=
  match mode with
  | .subsecond => BitVec.ofNat 32 (now % 1000)
  | .low32 => BitVec.ofNat 32 now

/-- The platform after a clock reading, with the RTC's data register set (R484). -/
def Platform.rtcGive (p : Platform) (v : Word) : Platform :=
  { p.rtcNow.2 with rtc := { p.rtc with data := v } }

/-- The platform after a clock reading, with the clock overridden (R484). -/
def Platform.rtcOverride (p : Platform) (t : Nat) : Platform :=
  { p.rtcNow.2 with rtc := { p.rtc with override := some t } }

/-- A write to the RTC's command port (R484). -/
def Platform.rtcCommand (mode : RtcMsMode) (p : Platform) (c : Word) : Platform :=
  match c.toNat with
  | 1 => { p with rtc := { p.rtc with interval := p.rtc.data } }
  | 2 => p.rtcGive (BitVec.ofNat 32 (p.rtcNow.1 / 1000))
  | 3 => p.rtcGive (rtcMillis mode p.rtcNow.1)
  | 4 => p.rtcOverride (p.rtc.data.toNat * 1000 + p.rtcNow.1 % 1000)
  | 5 =>
    match mode with
    | .subsecond => p.rtcOverride (p.rtcNow.1 / 1000 * 1000 + p.rtc.data.toNat % 1000)
    | .low32 => { p with rtc := { p.rtc with override := some p.rtc.data.toNat } }
  | _ => p

/-- The keyboard's slot (R477). -/
def kbdSlot : Nat := 1

/-- Magic of the keyboard (R477). -/
def kbdMagic : Word := 0x8FC48FC4

/-- Give out the release of key `i` (R478): its press is dropped with it. -/
def Keyboard.takeRelease (k : Keyboard) (i : Fin 86) : Keyboard :=
  { k with
    portA := BitVec.ofNat 32 i.val ||| (0x8000 : Word)
    outstandingRelease := k.outstandingRelease.set i.val false
    outstandingPress := k.outstandingPress.set i.val false }

/-- Give out the press of key `i` (R478). -/
def Keyboard.takePress (k : Keyboard) (i : Fin 86) : Keyboard :=
  { k with portA := BitVec.ofNat 32 i.val, outstandingPress := k.outstandingPress.set i.val false }

/-- Keyboard action 1, next event (R478). -/
def Keyboard.nextEvent (scan : KbdScan) (k : Keyboard) : Keyboard :=
  match scan with
  | .interleaved =>
    match (List.finRange 86).find? (fun i => k.outstandingRelease[i.val] || k.outstandingPress[i.val]) with
    | some i => if k.outstandingRelease[i.val] then k.takeRelease i else k.takePress i
    | none => { k with portA := 0xFFFF }
  | .releasesFirst =>
    match (List.finRange 86).find? (fun i => k.outstandingRelease[i.val]) with
    | some i => k.takeRelease i
    | none =>
      match (List.finRange 86).find? (fun i => k.outstandingPress[i.val]) with
      | some i => k.takePress i
      | none => { k with portA := 0xFFFF }

/-- Keyboard action 3, the is-down query (R478). -/
def Keyboard.isDown (k : Keyboard) : Keyboard :=
  if h : k.portA.toNat < 86 then { k with portA := if k.isPressed[k.portA.toNat] then 1 else 0 } else k

/-- A keyboard action (R478, R489). -/
def Keyboard.action (scan : KbdScan) (k : Keyboard) (v : Word) : Keyboard :=
  match v.toNat with
  | 1 => k.nextEvent scan
  | 2 => Keyboard.reset
  | 3 => k.isDown
  | _ => k

/-- Set the interrupt line of slot `d`, where there is a slot `d` (R476). -/
def Hub.setLine (h : Hub) (d : Word) (line : Nat) : Hub :=
  if hd : d.toNat < 16 then { h with lines := h.lines.set d.toNat line } else h

/-- Hub reset (R488), the keyboard's with it (R489). -/
def Platform.hubReset (p : Platform) : Platform := { p with hub := Hub.reset, kbd := Keyboard.reset }

/-- An action of the hub's controller, slot 0 (R476, D37): none has an effect where port_b is 16 or more. -/
def Platform.hubCtrlAction (p : Platform) (v : Word) : Platform :=
  if 16 ≤ p.hub.portB.toNat then p
  else
    match v.toNat with
    | 1 => { p with hub := p.hub.setLine p.hub.portB (48 + p.hub.portB.toNat) }
    | 2 => p.hubReset
    | 3 => { p with hub := p.hub.setLine p.hub.portB 0 }
    | _ => p

/-- A write to hub port 0x32: the selected slot's action (R487). -/
def Platform.hubAction (scan : KbdScan) (p : Platform) (v : Word) : Platform :=
  match p.hub.selected.toNat with
  | 0 => p.hubCtrlAction v
  | 1 => { p with kbd := p.kbd.action scan v }
  | _ => p

/-- A read of hub port 0x31: the selected slot's magic (R487). -/
def Platform.hubMagic (p : Platform) : Word :=
  match p.hub.selected.toNat with
  | 0 => Config.hubCtrlMagic
  | 1 => kbdMagic
  | _ => 0

/-- A read of hub port 0x33 (R487). -/
def Platform.hubPortA (p : Platform) : Word :=
  match p.hub.selected.toNat with
  | 0 => p.hub.portA
  | 1 => p.kbd.portA
  | _ => 0

/-- A read of hub port 0x34 (R487). -/
def Platform.hubPortB (p : Platform) : Word :=
  match p.hub.selected.toNat with
  | 0 => p.hub.portB
  | 1 => p.kbd.portB
  | _ => 0

/-- A write to hub port 0x33 (R487). -/
def Platform.hubSetPortA (p : Platform) (v : Word) : Platform :=
  match p.hub.selected.toNat with
  | 0 => { p with hub := { p.hub with portA := v } }
  | 1 => { p with kbd := { p.kbd with portA := v } }
  | _ => p

/-- A write to hub port 0x34 (R487). -/
def Platform.hubSetPortB (p : Platform) (v : Word) : Platform :=
  match p.hub.selected.toNat with
  | 0 => { p with hub := { p.hub with portB := v } }
  | 1 => { p with kbd := { p.kbd with portB := v } }
  | _ => p

/-- A write to hub port 0x30 (R487): values from 16 up are ignored. -/
def Hub.select (h : Hub) (v : Word) : Hub := if v.toNat < 16 then { h with selected := v.setWidth 4 } else h

/-- Board reset (R101): the LSIC and every port device; memory, board registers and disk images keep their contents. -/
def Platform.boardReset (p : Platform) : Platform :=
  { p with
    lsic := Lsic.reset
    disk := p.disk.boardReset
    uart0 := p.uart0.boardReset
    uart1 := p.uart1.boardReset
    rtc := Rtc.reset }.hubReset

end Sys2Proof.Machine
end

