-- ==== Sys2Proof/Machine/Bus.lean ====
section
/-! DEFINITION. The physical bus: the area dispatch (spec R80 to R88), the platform board (R89 to R101) and its ports (R90 to
R92). `none` is the result `Fail`. A bus read changes nothing (R103); a bus write answers the platform after it. -/

namespace Sys2Proof.Machine

/-- The area of a physical address, 0..31 (R80). -/
def areaOf (pa : Word) : Nat := (pa >>> 27).toNat

/-- The offset within the area (R80). -/
def offsetOf (pa : Word) : Nat := (pa &&& (0x07FFFFFF : Word)).toNat

/-- The regions of the platform board (R89). -/
inductive Region where
  | ports | boardRegs | nvram | diskBuffer | lsic | resetTrigger | rom | unmapped
  deriving DecidableEq, Repr

/-- The region of an area-31 offset, tested in the order of R89. -/
def regionOf (c : Config) (off : Nat) : Region :=
  if off ≤ 0x3FF then .ports
  else if 0x800 ≤ off ∧ off ≤ 0x87F then .boardRegs
  else if 0x1000 ≤ off ∧ off ≤ 0x10FFF then .nvram
  else if 0x20000 ≤ off ∧ off ≤ 0x201FF then .diskBuffer
  else if 0x30000 ≤ off ∧ off ≤ 0x300FF then .lsic
  else if off = 0x800000 then .resetTrigger
  else if 0x7FE0000 ≤ off ∧ off < 0x7FE0000 + c.romLen then .rom
  else .unmapped

/-- A port's 32-bit read value (R91); `none` for an unregistered port (R90, D25). -/
def portRead (p : Platform) (port : Nat) : Option Word :=
  match port with
  | 0x10 => some 0
  | 0x11 => some p.uart0.data
  | 0x12 => some 0
  | 0x13 => some p.uart1.data
  | 0x19 => some 0
  | 0x1A => some p.disk.portA
  | 0x1B => some p.disk.portB
  | 0x20 => some 0
  | 0x21 => some p.rtc.data
  | 0x30 => some (p.hub.selected.setWidth 32)
  | 0x31 => some p.hubMagic
  | 0x32 => some 0
  | 0x33 => some p.hubPortA
  | 0x34 => some p.hubPortB
  | _ => none

/-- A port write of an already zero-extended value (R91, R92); `none` for an unregistered port (R90, D25). -/
def portWrite (c : Config) (p : Platform) (port : Nat) (v : Word) : Option Platform :=
  match port with
  | 0x10 => some { p with uart0 := p.uart0.command v }
  | 0x11 => some { p with uart0 := { p.uart0 with data := v } }
  | 0x12 => some { p with uart1 := p.uart1.command v }
  | 0x13 => some { p with uart1 := { p.uart1 with data := v } }
  | 0x19 => some (p.diskCommand v)
  | 0x1A => some { p with disk := { p.disk with portA := v } }
  | 0x1B => some { p with disk := { p.disk with portB := v } }
  | 0x20 => some (p.rtcCommand c.rtcMsMode v)
  | 0x21 => some { p with rtc := { p.rtc with data := v } }
  | 0x30 => some { p with hub := p.hub.select v }
  | 0x31 => some p
  | 0x32 => some (p.hubAction c.kbdScan v)
  | 0x33 => some (p.hubSetPortA v)
  | 0x34 => some (p.hubSetPortB v)
  | _ => none

/-- The constant of board register 0 (R93). -/
def boardReg0 : Word := 0x00030001

/-- A read of board register `k` (R93). -/
def boardRegRead (p : Platform) (k : Nat) : Word :=
  if k = 0 then boardReg0 else if h : k < 32 then p.boardRegs[k] else 0

/-- A write of board register `k` (R93): register 0 ignores it. -/
def boardRegWrite (p : Platform) (k : Nat) (v : Word) : Platform :=
  if k = 0 then p else if h : k < 32 then { p with boardRegs := p.boardRegs.set k v } else p

/-- The last byte of an access still lies below the end of the region (R100). -/
def within (off : Nat) (n : Width) (limit : Nat) : Bool := decide (off + n.bytes ≤ limit)

/-- A long access at a 4-aligned offset: what the register windows take (R93, R96). -/
def alignedLong (off : Nat) (n : Width) : Bool := n == .long && off % 4 == 0

/-- A read of area 31 at offset `off`, physical address `pa` (R89 to R100). -/
def boardRead (c : Config) (p : Platform) (pa off : Nat) (n : Width) : Option Word :=
  match regionOf c off with
  | .ports => (portRead p (off / 4)).map n.trunc
  | .boardRegs => if alignedLong off n then some (boardRegRead p ((off - 0x800) / 4)) else none
  | .nvram => if within off n 0x11000 then some (p.mem.readLE pa n) else none
  | .diskBuffer => if within off n 0x20200 then some (p.mem.readLE pa n) else none
  | .lsic => if alignedLong off n then p.lsic.readReg ((off - 0x30000) / 4) else none
  | .resetTrigger => none
  | .rom => if within off n (0x7FE0000 + c.romLen) then some (p.mem.readLE pa n) else none
  | .unmapped => none

/-- The value that resets the board (R98). -/
def boardResetValue : Word := 0xAABBCCDD

/-- A write of area 31 at offset `off`, physical address `pa` (R89 to R101). -/
def boardWrite (c : Config) (p : Platform) (pa off : Nat) (n : Width) (v : Word) : Option Platform :=
  match regionOf c off with
  | .ports => portWrite c p (off / 4) (n.trunc v)
  | .boardRegs => if alignedLong off n then some (boardRegWrite p ((off - 0x800) / 4) v) else none
  | .nvram => if within off n 0x11000 then some { p with mem := p.mem.writeLE pa n v } else none
  | .diskBuffer => if within off n 0x20200 then some { p with mem := p.mem.writeLE pa n v } else none
  | .lsic =>
    if alignedLong off n then (p.lsic.writeReg ((off - 0x30000) / 4) v).map (fun l => { p with lsic := l }) else none
  | .resetTrigger =>
    if n = .long then (if v = boardResetValue then some p.boardReset else some p) else none
  | .rom => if within off n (0x7FE0000 + c.romLen) then some p else none
  | .unmapped => none

/-- The framebuffer's documented slot-info bytes from offset 0 on (R88): the longs 0x0C00_7CA1 and 0x4B49_4E35, then
"kinnowfb,16" and its NUL. DEDUCED (log entry 17): "then" is the next byte, and every width reads these bytes. -/
def fbSlotInfo : List Byte :=
  [0xA1, 0x7C, 0x00, 0x0C, 0x35, 0x4E, 0x49, 0x4B, 0x6B, 0x69, 0x6E, 0x6E, 0x6F, 0x77, 0x66, 0x62, 0x2C, 0x31, 0x36, 0x00]

/-- The framebuffer's SIZE value (R88): height and width are free values (log entry 8). -/
def fbSize : Word := Config.fbHeight <<< 12 ||| Config.fbWidth

/-- The framebuffer's documented values (R88), and `FB` for every other read. -/
def fbRead (p : Platform) (off : Nat) (n : Width) : Option Word :=
  if off + n.bytes ≤ fbSlotInfo.length then some ((Memory.place [] 0 fbSlotInfo).readLE off n)
  else if off = 0x3000 ∧ n = .long then some fbSize
  else if off = 0x3004 ∧ n = .long then some Config.fbVramBytes
  else (Config.fbRead p.fbWrites off n.bytes).map n.trunc

/-- A framebuffer write (R88): it changes framebuffer state only, which is the list of the writes `FB` accepted. -/
def fbWrite (p : Platform) (off : Nat) (n : Width) (v : Word) : Option Platform :=
  let w : FbWrite := ⟨off, n.bytes, n.trunc v⟩
  if Config.fbWrite p.fbWrites w then some { p with fbWrites := w :: p.fbWrites } else none

/-- `BusRead(pa, n)` (R80 to R88). -/
def busRead (c : Config) (p : Platform) (pa : Word) (n : Width) : Option Word :=
  let a := areaOf pa
  if a ≤ 1 then (if pa.toNat + n.bytes ≤ c.ramSize then some (p.mem.readLE pa.toNat n) else none)
  else if a = 2 then (Config.ramDescRead (offsetOf pa) n.bytes).map n.trunc
  else if a < 24 then none
  else if a = 24 ∧ c.fbPresent = true then fbRead p (offsetOf pa) n
  else if a = 31 then boardRead c p pa.toNat (offsetOf pa) n
  else some 0

/-- `BusWrite(pa, n, v)` (R80 to R88). -/
def busWrite (c : Config) (p : Platform) (pa : Word) (n : Width) (v : Word) : Option Platform :=
  let a := areaOf pa
  if a ≤ 1 then (if pa.toNat + n.bytes ≤ c.ramSize then some { p with mem := p.mem.writeLE pa.toNat n v } else none)
  else if a = 2 then (if Config.ramDescWrite (offsetOf pa) n.bytes (n.trunc v) then some p else none)
  else if a < 24 then none
  else if a = 24 ∧ c.fbPresent = true then fbWrite p (offsetOf pa) n v
  else if a = 31 then boardWrite c p pa.toNat (offsetOf pa) n v
  else some p

end Sys2Proof.Machine
end

