-- ==== Sys2Proof/Machine/Ops.lean ====
section
/-! DEFINITION. The named operations over the state: registers (spec R31, R32, R40), the MMU walk and the CPU's virtual
accesses (R110 to R126), raising an exception (R430 to R434), taking it (R440 to R443), returning from it (R305, R445),
and the fetch (R421). `s.cpu.pc` is the address of the instruction while a meaning runs (the rules' pc0); `advance` sets
it to pc0 + 4. -/

namespace Sys2Proof.Machine

/-! ### Registers -/

/-- `x[i]` (R31): the register, for R0 its cell. -/
def State.reg (s : State) (i : RegIdx) : Word := s.cpu.regs[i.toNat]'i.isLt

/-- A write of any register's cell, R0's too: what MFCR into R0 does (R32). -/
def State.setCell (s : State) (i : RegIdx) (v : Word) : State :=
  { s with cpu := { s.cpu with regs := s.cpu.regs.set i.toNat v i.isLt } }

/-- `x[i] <- v` (R32): a write to R0 is discarded. -/
def State.setReg (s : State) (i : RegIdx) (v : Word) : State := if i = 0 then s else s.setCell i v

/-- `CR[i]` (R40). -/
def State.cr (s : State) (i : CrIdx) : Word := s.cpu.cr[i.toNat]'i.isLt

/-- `CR[i] <- v` (R40): all 32 bits are stored. -/
def State.setCr (s : State) (i : CrIdx) (v : Word) : State :=
  { s with cpu := { s.cpu with cr := s.cpu.cr.set i.toNat v i.isLt } }

/-- `pc <- t` (R34). -/
def State.setPc (s : State) (t : Word) : State := { s with cpu := { s.cpu with pc := t } }

/-- `pc <- pc0 + 4` (R34, R35: wraps). -/
def State.advance (s : State) : State := s.setPc (s.cpu.pc + 4)

/-- The LL/SC flag (R38). -/
def State.setLocked (s : State) (b : Bool) : State := { s with cpu := { s.cpu with locked := b } }

/-- The HLT latch (R39). -/
def State.setHalted (s : State) (b : Bool) : State := { s with cpu := { s.cpu with halted := b } }

/-- The exception latch (R37). -/
def State.setExc (s : State) (e : Option Exc) : State := { s with cpu := { s.cpu with excPending := e } }

/-- The fatal mark (R434). -/
def State.setFatal (s : State) (b : Bool) : State := { s with fatal := b }

/-- The platform after a bus write. -/
def State.setPlat (s : State) (p : Platform) : State := { s with plat := p }

/-- RS.USER, bit 0 (R41): user mode (R450). -/
def State.user (s : State) : Bool := (s.cr crRS).getLsbD 0
/-- RS.INT, bit 1 (R41): interrupts enabled. -/
def State.intEnabled (s : State) : Bool := (s.cr crRS).getLsbD 1
/-- RS.MMU, bit 2 (R41): translation on. -/
def State.mmuOn (s : State) : Bool := (s.cr crRS).getLsbD 2

/-! ### Exceptions: what is raised -/

/-- The code of an exception (R400). -/
def Exc.code : Exc → Word
  | .interrupt => 1
  | .syscall => 2
  | .fwcall => 3
  | .buserror => 4
  | .brkpoint => 6
  | .invinst => 7
  | .invprvg => 8
  | .unaligned => 9
  | .pagefault => 12
  | .pagewrite => 13

/-- The kinds that may be raised while another is pending (R430). -/
def Exc.recoverable : Exc → Bool
  | .interrupt | .syscall | .fwcall | .brkpoint => true
  | .buserror | .invinst | .invprvg | .unaligned | .pagefault | .pagewrite => false

/-- The call-type traps, whose EPC is `EPC_CALLTRAP`'s (R303, R431). -/
def Exc.callTrap : Exc → Bool
  | .syscall | .fwcall | .brkpoint => true
  | .interrupt | .buserror | .invinst | .invprvg | .unaligned | .pagefault | .pagewrite => false

/-- `E(info)` of R16: the exception and the EBADADDR value it records, if it records one. -/
structure Raised where
  exc     : Exc
  badAddr : Option Word
  deriving DecidableEq, Repr

/-- PAGEFAULT for a read, PAGEWRITE for a write (R112, R114, R121). -/
def AccessKind.pageExc : AccessKind → Exc
  | .read => .pagefault
  | .write => .pagewrite

/-! ### Virtual accesses -/

/-- `pdeAddr` (R110). -/
def pdeAddr (pgtb va : Word) : Word := pgtb + ((va >>> 22) <<< 2)

/-- `pteAddr` (R113). -/
def pteAddr (pde va : Word) : Word := ((pde >>> 5) <<< 12) + (((va >>> 12) &&& (0x3FF : Word)) <<< 2)

/-- The physical address that a valid PTE gives (R115). -/
def pageAddr (pte va : Word) : Word := (((pte >>> 5) &&& (0xFFFFF : Word)) <<< 12) + (va &&& (0xFFF : Word))

/-- The valid bit of a PDE or PTE (R116). -/
def entryValid (entry : Word) : Bool := entry.getLsbD 0

/-- The two-level walk (R110 to R116): both reads are physical, unchecked and untranslated (R118). -/
def State.walk (s : State) (va : Word) (kind : AccessKind) : Except Raised Word :=
  match busRead s.config s.plat (pdeAddr (s.cr crPGTB) va) .long with
  | none => .error ⟨.buserror, some (pdeAddr (s.cr crPGTB) va)⟩
  | some pde =>
    if entryValid pde then
      match busRead s.config s.plat (pteAddr pde va) .long with
      | none => .error ⟨.buserror, some (pteAddr pde va)⟩
      | some pte =>
        if entryValid pte then .ok (pageAddr pte va) else .error ⟨kind.pageExc, some va⟩
    else .error ⟨kind.pageExc, some va⟩

/-- The boundary check (R121): the address is one the CPU may use. -/
def inBounds (va : Word) : Bool := decide (0x1000 ≤ va.toNat) && decide (va.toNat < 0xFFFFF000)

/-- The alignment check (R122): the access raises UNALIGNED. -/
def alignFault (c : Config) (va : Word) (n : Width) : Bool := c.alignTrap && n == .long && decide (va.toNat % 4 ≠ 0)

/-- Steps (1) to (3) of an access (R120): boundary, alignment, translation; the physical address. -/
def State.translate (s : State) (va : Word) (n : Width) (kind : AccessKind) : Except Raised Word :=
  if !inBounds va then .error ⟨kind.pageExc, some va⟩
  else if alignFault s.config va n then .error ⟨.unaligned, some va⟩
  else if s.mmuOn then s.walk va kind
  else .ok va

/-- `MemRead(va, n)` (R120, R123). -/
def State.memRead (s : State) (va : Word) (n : Width) : Except Raised Word :=
  match s.translate va n .read with
  | .error x => .error x
  | .ok pa =>
    match busRead s.config s.plat pa n with
    | none => .error ⟨.buserror, some pa⟩
    | some v => .ok v

/-- `MemWrite(va, n, v)` (R120, R123): the platform after it. -/
def State.memWrite (s : State) (va : Word) (n : Width) (v : Word) : Except Raised Platform :=
  match s.translate va n .write with
  | .error x => .error x
  | .ok pa =>
    match busWrite s.config s.plat pa n v with
    | none => .error ⟨.buserror, some pa⟩
    | some p => .ok p

/-! ### Raising -/

/-- The value `pc` holds after an exception is raised at pc0, and so the EPC (R431). -/
def State.epcOf (s : State) (e : Exc) : Word :=
  if e.callTrap && decide (s.config.epcCallTrap = .next) then s.cpu.pc + 4 else s.cpu.pc

/-- Record the EBADADDR of an exception that has one (R49, R430). -/
def State.setBadAddr (s : State) : Option Word → State
  | none => s
  | some a => s.setCr crEBADADDR a

/-- `raise E(info)` (R430): the fatal state for a non-recoverable exception raised while one is pending; else the latch,
EBADADDR and pc (R431). -/
def State.raise (s : State) (x : Raised) : State :=
  if s.cpu.excPending.isSome && !x.exc.recoverable then s.setFatal true
  else ((s.setBadAddr x.badAddr).setExc (some x.exc)).setPc (s.epcOf x.exc)

/-! ### Taking an exception, and returning from one -/

/-- CPU reset (R501). -/
def State.cpuReset (s : State) : State :=
  (((((((((s.setPc 0xFFFE0000).setCr crRS 0).setCr crEVEC 0).setCr crCPUID 0x80060000).setCr crFWVEC 0).setLocked
    false).setExc none).setHalted false).setCell 0 0)

/-- The delivery condition (R440). -/
def State.deliverable (s : State) : Bool := s.cpu.excPending.isSome || (s.intEnabled && s.plat.lsic.signal)

/-- The vector that delivery takes (R441): FWVEC for FWCALL, EVEC for every other exception. -/
def State.vector (s : State) : Word := if s.cpu.excPending = some .fwcall then s.cr crFWVEC else s.cr crEVEC

/-- RS after delivery (R441): USER and INT cleared; MMU cleared for FWCALL and where TMMU (bit 7) is set. -/
def State.deliveredRS (s : State) : Word :=
  if s.cpu.excPending = some .fwcall ∨ (s.cr crRS).getLsbD 7 = true then s.cr crRS &&& ~~~(7 : Word)
  else s.cr crRS &&& ~~~(3 : Word)

/-- The cause that delivery stores (R441). -/
def State.cause (s : State) : Exc := s.cpu.excPending.getD .interrupt

/-- Taking the pending exception or interrupt (R441, R443). -/
def State.takeException (s : State) : State :=
  if s.vector = 0 then s.cpuReset
  else (((((s.setCr crEPC s.cpu.pc).setCr crECAUSE s.cause.code).setCr crERS (s.cr crRS)).setCr crRS
    s.deliveredRS).setPc s.vector).setExc none

/-- The delivery check at the top of a step (R420, R440). -/
def State.deliver (s : State) : State := if s.deliverable then s.takeException else s

/-- The return from an exception (R305, R445). -/
def State.returnFromException (s : State) : State :=
  ((s.setLocked false).setPc (s.cr crEPC)).setCr crRS (s.cr crERS)

/-! ### Fetch and decode -/

/-- The fetch (R125, R421): the word at pc. -/
def State.fetch (s : State) : Except Raised Word := s.memRead s.cpu.pc .long

/-- What an undecoded word raises (R170, R300): INVPRVG for the privileged group in user mode, else INVINST. -/
def State.undecodedExc (s : State) : Undecoded → Exc
  | .unusedPrivFunct _ => if s.user then .invprvg else .invinst
  | .unusedOpcode _ | .unusedRegFunct _ | .unusedGrpFunct _ | .truncated => .invinst

/-- The step of an undecoded word (R170). -/
def State.raiseUndecoded (s : State) (u : Undecoded) : State := s.raise ⟨s.undecodedExc u, none⟩

/-! ### Shapes that the meanings share -/

/-- The outcome of a meaning. -/
abbrev Result := Host.Outcome State Fault Refusal

/-- An instruction that writes `v` to `x[rD]` and goes on to the next. -/
def State.finish (s : State) (rD : RegIdx) (v : Word) : Result := .next (s.setReg rD v).advance

/-- A load of n bytes from `ea` into `x[rD]` (R251); where the access raises, nothing is written (R432). -/
def State.loadTo (s : State) (rD : RegIdx) (ea : Word) (n : Width) : Result :=
  match s.memRead ea n with
  | .ok v => s.finish rD v
  | .error x => .next (s.raise x)

/-- A store of the low n bytes of `v` at `ea` (R251); where the access raises, nothing is written (R432). -/
def State.storeAt (s : State) (ea : Word) (n : Width) (v : Word) : Result :=
  match s.memWrite ea n v with
  | .ok p => .next (s.setPlat p).advance
  | .error x => .next (s.raise x)

/-- The privilege check of group 0x29 (R300): INVPRVG in user mode, else the instruction. -/
def State.privileged (s : State) (next : State) : Result :=
  if s.user then .next (s.raise ⟨.invprvg, none⟩) else .next next

end Sys2Proof.Machine
end

