-- ==== Sys2Proof/Machine/Flags.lean ====
section
/-! DEFINITION. The hardware has no flags (spec R36): a comparison writes 0 or 1 into a register, and a branch tests a
register. Here are those comparisons and tests. -/

namespace Sys2Proof.Machine

/-- The 0 or 1 that a comparison writes (R36). -/
def truth (b : Bool) : Word := if b then 1 else 0

/-- Unsigned less-than as 0 or 1: SLT, SLTI (R201). -/
def setLess (a b : Word) : Word := truth (a.ult b)

/-- Two's-complement less-than as 0 or 1: SLTS, SLTIS (R201). -/
def setLessSigned (a b : Word) : Word := truth (a.slt b)

/-- BEQ's test (R284, D10). -/
def testZero (x : Word) : Bool := x == 0

/-- BNE's test (R285, D10). -/
def testNotZero (x : Word) : Bool := x != 0

/-- BLT's test: the sign bit (R286). -/
def testNegative (x : Word) : Bool := x.getLsbD 31

end Sys2Proof.Machine
end

