-- ==== Sys2Proof/Machine/Operands.lean ====
section
/-! DEFINITION. Every operand form: the immediates (spec R159), the operand shifter of format R (R160), the effective
addresses (R250), and which field of an immediate store holds the data (R155, R255). -/

namespace Sys2Proof.Machine

/-- `zext_16` (R13, R159). -/
def zext16 (imm : BitVec 16) : Word := imm.setWidth 32

/-- `sext_16` (R13, R159). -/
def sext16 (imm : BitVec 16) : Word := imm.signExtend 32

/-- `sext_5` (R13): the source's law names it; no instruction of this table uses it (91 N3). -/
def sext5 (v : BitVec 5) : Word := v.signExtend 32

/-- The upper immediate `imm16 << 16` (R159). -/
def upperImm (imm : BitVec 16) : Word := imm.setWidth 32 <<< 16

/-- The offset of JALR: `sext_18(imm16 << 2)` (R159). -/
def jalrOffset (imm : BitVec 16) : Word := (imm.setWidth 18 <<< 2).signExtend 32

/-- The offset of a branch: `sext_23(disp21 << 2)` (R159). -/
def branchOffset (disp : BitVec 21) : Word := (disp.setWidth 23 <<< 2).signExtend 32

/-- The target of J and JAL (R159): the bank bit of pc0, the field shifted left by 2. -/
def jumpTarget (pc0 : Word) (target : BitVec 29) : Word := (pc0 &&& (0x80000000 : Word)) ||| (target.setWidth 32 <<< 2)

/-- A memory offset: zero-extended, scaled by the access size (R159, R250). -/
def memOffset (n : Width) (imm : BitVec 16) : Word :=
  match n with
  | .byte => imm.setWidth 32
  | .int => imm.setWidth 32 <<< 1
  | .long => imm.setWidth 32 <<< 2

/-- `shift(x, n, type)` for 1 ≤ n ≤ 31 (R160). -/
def shiftBy (x : Word) (n : Nat) : ShiftType → Word
  | .lsl => x <<< n
  | .lsr => x >>> n
  | .asr => x >>> n ||| (if x.getLsbD 31 then ~~~((0xFFFFFFFF : Word) >>> n) else 0)
  | .ror => x >>> n ||| x <<< (32 - n)

/-- The operand shifter (R160): an amount of 0 passes the operand through. -/
def shiftOperand (sh : Shift) (x : Word) : Word :=
  if sh.amount = 0 then x else shiftBy x sh.amount.toNat sh.type

/-- `opB` (R160). -/
def State.opB (s : State) (rB : RegIdx) (sh : Shift) : Word := shiftOperand sh (s.reg rB)

/-- The second operand of MUL, DIV, DIVS, MOD and SC: `x[rB]` in group 0x31 (R157, R218 to R221, R265), the shifter's output
in group 0x39 (R156, log entry 3). -/
def State.opG (s : State) : SrcB → Word
  | .reg rB => s.reg rB
  | .shifted rB sh => s.opB rB sh

/-- The effective address of the immediate-offset forms (R250). -/
def State.eaImm (s : State) (base : RegIdx) (n : Width) (imm : BitVec 16) : Word := s.reg base + memOffset n imm

/-- The effective address of the register-indexed forms (R250). -/
def State.eaIdx (s : State) (rA rB : RegIdx) (sh : Shift) : Word := s.reg rA + s.opB rB sh

/-- The register an immediate-offset store takes its data from (R255, D45). -/
def State.storeData (s : State) (rD rA : RegIdx) : RegIdx :=
  match s.config.storeDataField with
  | .rD => rD
  | .rA => rA

/-- The base register of an immediate-offset store: the other field (R255, D45). -/
def State.storeBase (s : State) (rD rA : RegIdx) : RegIdx :=
  match s.config.storeDataField with
  | .rD => rA
  | .rA => rD

end Sys2Proof.Machine
end

