-- ==== Sys2Proof/Machine/Alu.lean ====
section
/-! DEFINITION. The integer ALU instructions (spec 40_alu.md, R200 to R221): each writes `x[rD]` and goes on. -/

namespace Sys2Proof.Machine

/-! ### Immediate forms (format I) -/

/-- ADDI (R202). -/
def execAddi (rD rA : RegIdx) (imm16 : BitVec 16) (s : State) : Result :=
  s.finish rD (s.reg rA + zext16 imm16)

/-- SUBI (R203). -/
def execSubi (rD rA : RegIdx) (imm16 : BitVec 16) (s : State) : Result :=
  s.finish rD (s.reg rA - zext16 imm16)

/-- SLTI: unsigned, the immediate zero-extended (D8) (R204). -/
def execSlti (rD rA : RegIdx) (imm16 : BitVec 16) (s : State) : Result :=
  s.finish rD (setLess (s.reg rA) (zext16 imm16))

/-- SLTIS: signed, the immediate sign-extended (R205). -/
def execSltis (rD rA : RegIdx) (imm16 : BitVec 16) (s : State) : Result :=
  s.finish rD (setLessSigned (s.reg rA) (sext16 imm16))

/-- ANDI (R206). -/
def execAndi (rD rA : RegIdx) (imm16 : BitVec 16) (s : State) : Result :=
  s.finish rD (s.reg rA &&& zext16 imm16)

/-- ORI (R207). -/
def execOri (rD rA : RegIdx) (imm16 : BitVec 16) (s : State) : Result :=
  s.finish rD (s.reg rA ||| zext16 imm16)

/-- XORI (R208). -/
def execXori (rD rA : RegIdx) (imm16 : BitVec 16) (s : State) : Result :=
  s.finish rD (s.reg rA ^^^ zext16 imm16)

/-- LUI: or-combines the upper immediate with rA (C7, D9) (R209). -/
def execLui (rD rA : RegIdx) (imm16 : BitVec 16) (s : State) : Result :=
  s.finish rD (s.reg rA ||| upperImm imm16)

/-! ### Register forms with shifted operand (format R) -/

/-- ADD (R210). -/
def execAdd (rD rA rB : RegIdx) (sh : Shift) (s : State) : Result :=
  s.finish rD (s.reg rA + s.opB rB sh)

/-- SUB (R211). -/
def execSub (rD rA rB : RegIdx) (sh : Shift) (s : State) : Result :=
  s.finish rD (s.reg rA - s.opB rB sh)

/-- SLT (R212). -/
def execSlt (rD rA rB : RegIdx) (sh : Shift) (s : State) : Result :=
  s.finish rD (setLess (s.reg rA) (s.opB rB sh))

/-- SLTS (R213). -/
def execSlts (rD rA rB : RegIdx) (sh : Shift) (s : State) : Result :=
  s.finish rD (setLessSigned (s.reg rA) (s.opB rB sh))

/-- AND (R214). -/
def execAnd (rD rA rB : RegIdx) (sh : Shift) (s : State) : Result :=
  s.finish rD (s.reg rA &&& s.opB rB sh)

/-- OR (R215). -/
def execOr (rD rA rB : RegIdx) (sh : Shift) (s : State) : Result :=
  s.finish rD (s.reg rA ||| s.opB rB sh)

/-- XOR (R216). -/
def execXor (rD rA rB : RegIdx) (sh : Shift) (s : State) : Result :=
  s.finish rD (s.reg rA ^^^ s.opB rB sh)

/-- NOR (R217). -/
def execNor (rD rA rB : RegIdx) (sh : Shift) (s : State) : Result :=
  s.finish rD (~~~(s.reg rA ||| s.opB rB sh))

/-! ### Multiply and divide (format G in group 0x31, format R in group 0x39) -/

/-- The quotient of DIV (R219): 0 for a zero divisor. -/
def divUnsigned (a b : Word) : Word := if b = 0 then 0 else BitVec.ofNat 32 (a.toNat / b.toNat)

/-- The quotient of DIVS (R220): 0 for a zero divisor, `DIVS_OVF` for the one quotient that overflows (D20), else
truncated toward zero. -/
def divSigned (ovf a b : Word) : Word :=
  if b = 0 then 0
  else if a = 0x80000000 ∧ b = 0xFFFFFFFF then ovf
  else BitVec.ofInt 32 (a.toInt.tdiv b.toInt)

/-- The remainder of MOD (R221): 0 for a zero divisor. -/
def modUnsigned (a b : Word) : Word := if b = 0 then 0 else a - b * BitVec.ofNat 32 (a.toNat / b.toNat)

/-- MUL (R218). -/
def execMul (rD rA : RegIdx) (rB : SrcB) (s : State) : Result :=
  s.finish rD (s.reg rA * s.opG rB)

/-- DIV (R219). -/
def execDiv (rD rA : RegIdx) (rB : SrcB) (s : State) : Result :=
  s.finish rD (divUnsigned (s.reg rA) (s.opG rB))

/-- DIVS (R220). -/
def execDivs (rD rA : RegIdx) (rB : SrcB) (s : State) : Result :=
  s.finish rD (divSigned s.config.divsOvf (s.reg rA) (s.opG rB))

/-- MOD (R221). -/
def execMod (rD rA : RegIdx) (rB : SrcB) (s : State) : Result :=
  s.finish rD (modUnsigned (s.reg rA) (s.opG rB))

end Sys2Proof.Machine
end

