-- ==== Sys2Proof/Machine/Control.lean ====
section
/-! DEFINITION. Control transfer (spec 42_control.md, R280 to R287). -/

namespace Sys2Proof.Machine

/-- J (R281). -/
def execJ (target29 : BitVec 29) (s : State) : Result := .next (s.setPc (jumpTarget s.cpu.pc target29))

/-- JAL (R282): the link, pc0 + 4, in R31; the bank bit is pc0's. -/
def execJal (target29 : BitVec 29) (s : State) : Result :=
  .next ((s.setReg 31 (s.cpu.pc + 4)).setPc (jumpTarget s.cpu.pc target29))

/-- JALR (R283): the target uses x[rA] as it was before the link is written (D41). -/
def execJalr (rD rA : RegIdx) (imm16 : BitVec 16) (s : State) : Result :=
  .next ((s.setReg rD (s.cpu.pc + 4)).setPc (s.reg rA + jalrOffset imm16))

/-- A branch (R280, R284 to R286): to pc0 plus the offset where it is taken, else on. -/
def State.branchIf (s : State) (taken : Bool) (disp21 : BitVec 21) : Result :=
  if taken then .next (s.setPc (s.cpu.pc + branchOffset disp21)) else .next s.advance

/-- BEQ (R284). -/
def execBeq (rD : RegIdx) (disp21 : BitVec 21) (s : State) : Result := s.branchIf (testZero (s.reg rD)) disp21

/-- BNE (R285). -/
def execBne (rD : RegIdx) (disp21 : BitVec 21) (s : State) : Result := s.branchIf (testNotZero (s.reg rD)) disp21

/-- BLT (R286). -/
def execBlt (rD : RegIdx) (disp21 : BitVec 21) (s : State) : Result := s.branchIf (testNegative (s.reg rD)) disp21

end Sys2Proof.Machine
end

