-- ==== Sys2Proof/Machine/LoadStore.lean ====
section
/-! DEFINITION. Loads, stores, load-linked and store-conditional (spec 41_loadstore.md, R250 to R266). -/

namespace Sys2Proof.Machine

/-! ### Immediate offset (format I) -/

/-- LDB (R252). -/
def execLdb (rD rA : RegIdx) (imm16 : BitVec 16) (s : State) : Result :=
  s.loadTo rD (s.eaImm rA .byte imm16) .byte

/-- LDI (R253). -/
def execLdi (rD rA : RegIdx) (imm16 : BitVec 16) (s : State) : Result :=
  s.loadTo rD (s.eaImm rA .int imm16) .int

/-- LDL (R254). -/
def execLdl (rD rA : RegIdx) (imm16 : BitVec 16) (s : State) : Result :=
  s.loadTo rD (s.eaImm rA .long imm16) .long

/-- STB (R255). -/
def execStb (rD rA : RegIdx) (imm16 : BitVec 16) (s : State) : Result :=
  s.storeAt (s.eaImm (s.storeBase rD rA) .byte imm16) .byte (s.reg (s.storeData rD rA))

/-- STI (R256). -/
def execSti (rD rA : RegIdx) (imm16 : BitVec 16) (s : State) : Result :=
  s.storeAt (s.eaImm (s.storeBase rD rA) .int imm16) .int (s.reg (s.storeData rD rA))

/-- STL (R257). -/
def execStl (rD rA : RegIdx) (imm16 : BitVec 16) (s : State) : Result :=
  s.storeAt (s.eaImm (s.storeBase rD rA) .long imm16) .long (s.reg (s.storeData rD rA))

/-! ### Register-indexed (format R) -/

/-- LDBX (R258). -/
def execLdbx (rD rA rB : RegIdx) (sh : Shift) (s : State) : Result :=
  s.loadTo rD (s.eaIdx rA rB sh) .byte

/-- LDIX (R259). -/
def execLdix (rD rA rB : RegIdx) (sh : Shift) (s : State) : Result :=
  s.loadTo rD (s.eaIdx rA rB sh) .int

/-- LDLX (R260). -/
def execLdlx (rD rA rB : RegIdx) (sh : Shift) (s : State) : Result :=
  s.loadTo rD (s.eaIdx rA rB sh) .long

/-- STBX (R261). -/
def execStbx (rD rA rB : RegIdx) (sh : Shift) (s : State) : Result :=
  s.storeAt (s.eaIdx rA rB sh) .byte (s.reg rD)

/-- STIX (R262). -/
def execStix (rD rA rB : RegIdx) (sh : Shift) (s : State) : Result :=
  s.storeAt (s.eaIdx rA rB sh) .int (s.reg rD)

/-- STLX (R263). -/
def execStlx (rD rA rB : RegIdx) (sh : Shift) (s : State) : Result :=
  s.storeAt (s.eaIdx rA rB sh) .long (s.reg rD)

/-! ### Load-linked and store-conditional (format G in group 0x31, format R in group 0x39) -/

/-- LL (R264): the flag is set before the load, so it stays set where the load raises (D12). -/
def execLl (rD rA : RegIdx) (s : State) : Result := (s.setLocked true).loadTo rD (s.reg rA) .long

/-- SC (R265): stores only while the flag is set, leaves the flag, and writes the flag to rD; where the store raises, rD
is not written. -/
def execSc (rD rA : RegIdx) (rB : SrcB) (s : State) : Result :=
  if s.cpu.locked then
    match s.memWrite (s.reg rA) .long (s.opG rB) with
    | .ok p => (s.setPlat p).finish rD 1
    | .error x => .next (s.raise x)
  else s.finish rD 0

end Sys2Proof.Machine
end

