-- ==== Sys2Proof/Machine/System.lean ====
section
/-! DEFINITION. System and privileged instructions (spec 43_system.md, R300 to R309). An instruction that raises latches the
exception (R430); the next step's delivery check takes it (R420, R441). -/

namespace Sys2Proof.Machine

/-- SYS (R301). -/
def execSys (s : State) : Result := .next (s.raise ⟨.syscall, none⟩)

/-- BRK (R302). -/
def execBrk (s : State) : Result := .next (s.raise ⟨.brkpoint, none⟩)

/-- FWC (R304). -/
def execFwc (s : State) : Result := s.privileged (s.raise ⟨.fwcall, none⟩)

/-- RFE (R305). -/
def execRfe (s : State) : Result := s.privileged s.returnFromException

/-- HLT (R306). -/
def execHlt (s : State) : Result := s.privileged (s.setHalted true).advance

/-- FTLB (R307): there is no TLB, so only the pc changes. -/
def execFtlb (s : State) : Result := s.privileged s.advance

/-- MTCR (R308). -/
def execMtcr (cr : CrIdx) (rA : RegIdx) (s : State) : Result := s.privileged (s.setCr cr (s.reg rA)).advance

/-- The write of MFCR's destination (R32, R309): into R0 it sets the R0 cell where `MFCR_R0_VISIBLE`, else it is
discarded (D19). -/
def State.setRegMfcr (s : State) (rD : RegIdx) (v : Word) : State :=
  if s.config.mfcrR0Visible then s.setCell rD v else s.setReg rD v

/-- MFCR (R309). -/
def execMfcr (rD : RegIdx) (cr : CrIdx) (s : State) : Result :=
  s.privileged (s.setRegMfcr rD (s.cr cr)).advance

end Sys2Proof.Machine
end

