-- ==== Sys2Proof/Machine/Dispatch.lean ====
section
/-! DEFINITION. The dispatch: one arm per constructor of `Instr`, each one call of that instruction's meaning. -/

namespace Sys2Proof.Machine

-- The state given to a meaning has pc at the instruction itself (the rules' pc0).
def exec (i : Instr) (s : State) : Host.Outcome State Fault Refusal :=
  match i with
  | .j t => Sys2Proof.Machine.execJ t s
  | .jal t => Sys2Proof.Machine.execJal t s
  | .addi rD rA imm => Sys2Proof.Machine.execAddi rD rA imm s
  | .subi rD rA imm => Sys2Proof.Machine.execSubi rD rA imm s
  | .slti rD rA imm => Sys2Proof.Machine.execSlti rD rA imm s
  | .sltis rD rA imm => Sys2Proof.Machine.execSltis rD rA imm s
  | .andi rD rA imm => Sys2Proof.Machine.execAndi rD rA imm s
  | .ori rD rA imm => Sys2Proof.Machine.execOri rD rA imm s
  | .xori rD rA imm => Sys2Proof.Machine.execXori rD rA imm s
  | .lui rD rA imm => Sys2Proof.Machine.execLui rD rA imm s
  | .jalr rD rA imm => Sys2Proof.Machine.execJalr rD rA imm s
  | .ldb rD rA imm => Sys2Proof.Machine.execLdb rD rA imm s
  | .ldi rD rA imm => Sys2Proof.Machine.execLdi rD rA imm s
  | .ldl rD rA imm => Sys2Proof.Machine.execLdl rD rA imm s
  | .stb rD rA imm => Sys2Proof.Machine.execStb rD rA imm s
  | .sti rD rA imm => Sys2Proof.Machine.execSti rD rA imm s
  | .stl rD rA imm => Sys2Proof.Machine.execStl rD rA imm s
  | .beq rD disp => Sys2Proof.Machine.execBeq rD disp s
  | .bne rD disp => Sys2Proof.Machine.execBne rD disp s
  | .blt rD disp => Sys2Proof.Machine.execBlt rD disp s
  | .add rD rA rB sh => Sys2Proof.Machine.execAdd rD rA rB sh s
  | .sub rD rA rB sh => Sys2Proof.Machine.execSub rD rA rB sh s
  | .slt rD rA rB sh => Sys2Proof.Machine.execSlt rD rA rB sh s
  | .slts rD rA rB sh => Sys2Proof.Machine.execSlts rD rA rB sh s
  | .and rD rA rB sh => Sys2Proof.Machine.execAnd rD rA rB sh s
  | .or rD rA rB sh => Sys2Proof.Machine.execOr rD rA rB sh s
  | .xor rD rA rB sh => Sys2Proof.Machine.execXor rD rA rB sh s
  | .nor rD rA rB sh => Sys2Proof.Machine.execNor rD rA rB sh s
  | .ldbx rD rA rB sh => Sys2Proof.Machine.execLdbx rD rA rB sh s
  | .ldix rD rA rB sh => Sys2Proof.Machine.execLdix rD rA rB sh s
  | .ldlx rD rA rB sh => Sys2Proof.Machine.execLdlx rD rA rB sh s
  | .stbx rD rA rB sh => Sys2Proof.Machine.execStbx rD rA rB sh s
  | .stix rD rA rB sh => Sys2Proof.Machine.execStix rD rA rB sh s
  | .stlx rD rA rB sh => Sys2Proof.Machine.execStlx rD rA rB sh s
  | .mul rD rA rB => Sys2Proof.Machine.execMul rD rA rB s
  | .div rD rA rB => Sys2Proof.Machine.execDiv rD rA rB s
  | .divs rD rA rB => Sys2Proof.Machine.execDivs rD rA rB s
  | .mod rD rA rB => Sys2Proof.Machine.execMod rD rA rB s
  | .ll rD rA => Sys2Proof.Machine.execLl rD rA s
  | .sc rD rA rB => Sys2Proof.Machine.execSc rD rA rB s
  | .sys => Sys2Proof.Machine.execSys s
  | .brk => Sys2Proof.Machine.execBrk s
  | .fwc => Sys2Proof.Machine.execFwc s
  | .rfe => Sys2Proof.Machine.execRfe s
  | .hlt => Sys2Proof.Machine.execHlt s
  | .ftlb => Sys2Proof.Machine.execFtlb s
  | .mtcr c rA => Sys2Proof.Machine.execMtcr c rA s
  | .mfcr rD c => Sys2Proof.Machine.execMfcr rD c s

end Sys2Proof.Machine
end

