-- ==== Sys2Proof/Machine/Env.lean ====
section
/-! DEFINITION. The host's calls between CPU steps (spec R490 to R493) and the construction of a machine (R495, R500, R505). -/

namespace Sys2Proof.Machine

/-- `tick(ms)` on the RTC: the overridden clock, then the interval accumulator (R491). -/
def Rtc.tick (r : Rtc) (ms : Nat) : Rtc :=
  { r with
    override := r.override.map (· + ms)
    acc :=
      if r.interval = 0 then r.acc
      else if r.interval.toNat ≤ r.acc + ms then r.acc + ms - r.interval.toNat
      else r.acc + ms }

/-- A tick raises the RTC's vector: an interval is set and the accumulator reaches it (R491). -/
def Rtc.tickRaises (r : Rtc) (ms : Nat) : Bool := r.interval != 0 && decide (r.interval.toNat ≤ r.acc + ms)

/-- The RTC's LSIC vector (R417, R491). -/
def rtcVector : Nat := 1

/-- `rtc.tick(ms)` (R491). -/
def Platform.rtcTick (p : Platform) (ms : Nat) : Platform :=
  if p.rtc.tickRaises ms then { p with rtc := p.rtc.tick ms }.raiseIrq rtcVector else { p with rtc := p.rtc.tick ms }

/-- The keyboard's interrupt line (R477). -/
def Platform.kbdLine (p : Platform) : Nat := p.hub.lines[kbdSlot]

/-- The host raises the keyboard's line where it is enabled (R492). -/
def Platform.raiseKbd (p : Platform) : Platform := if p.kbdLine = 0 then p else p.raiseIrq p.kbdLine

/-- A key pressed (R492); codes outside 1..85 are not in the table. -/
def Platform.keyDown (p : Platform) (code : Nat) : Platform :=
  if h : 1 ≤ code ∧ code ≤ 85 then
    { p with kbd := { p.kbd with
        isPressed := p.kbd.isPressed.set code true (by omega)
        outstandingPress := p.kbd.outstandingPress.set code true (by omega) } }.raiseKbd
  else p

/-- A key released (R492). -/
def Platform.keyUp (p : Platform) (code : Nat) : Platform :=
  if h : 1 ≤ code ∧ code ≤ 85 then
    { p with kbd := { p.kbd with
        isPressed := p.kbd.isPressed.set code false (by omega)
        outstandingRelease := p.kbd.outstandingRelease.set code true (by omega) } }.raiseKbd
  else p

/-- A character received by a UART (R493): it replaces the latch. It raises `UART_IRQ`'s vector, where there is one,
while the UART's interrupts are enabled (R482). -/
def Platform.uartReceive (irq : Option Nat) (p : Platform) (n : UartId) (char : Byte) : Platform :=
  let p' := p.setUart n { p.uart n with lastData := char.setWidth 32 }
  match irq with
  | none => p'
  | some v => if (p.uart n).irqEnabled then p'.raiseIrq v else p'

/-- One call of the host (R490). -/
def Platform.hostEvent (c : Config) (p : Platform) : HostEvent → Platform
  | .rtcTick ms => p.rtcTick ms
  | .keyDown code => p.keyDown code
  | .keyUp code => p.keyUp code
  | .uartReceive n char => p.uartReceive c.uartIrq n char

/-- The host's calls before this step (R8, R490): the next list of the schedule, in order. -/
def State.hostCalls (s : State) : State :=
  match s.schedule with
  | [] => s
  | batch :: rest => { s with plat := batch.foldl (Platform.hostEvent s.config) s.plat, schedule := rest }

/-- What the host supplies when it constructs a machine (R10, R495). -/
structure Construction where
  /-- The parameters; the ROM's length is taken from `rom`. -/
  config    : Config
  /-- `ROM` (R97). -/
  rom       : List Byte
  /-- `RAM_INIT` by physical address (R84). -/
  ramInit   : Memory
  /-- `NVRAM_INIT` by index 0..0xFFFF (R94). -/
  nvramInit : List Byte
  /-- `DISKS` (R469). -/
  disks     : List DiskImage
  deriving DecidableEq, Repr

/-- The physical address of the boot ROM (R97). -/
def romBase : Nat := 0xFFFE0000

/-- The physical address of NVRAM (R94). -/
def nvramBase : Nat := 0xF8001000

/-- The parameters of the machine that a construction makes. -/
def Construction.parameters (k : Construction) : Config := { k.config with romLen := k.rom.length }

/-- The bounds of a construction (R84, R94, R97, R162, R469, R495). -/
def Construction.allowed (k : Construction) : Bool :=
  k.parameters.wf && k.ramInit.wf && k.ramInit.all (fun c => decide (c.1 < k.config.ramSize)) &&
    decide (k.nvramInit.length ≤ 0x10000) && decide (k.disks.length ≤ 8) &&
    k.disks.all (fun i => i.bytes.wf && i.bytes.all (fun c => decide (c.1 < i.size)))

/-- Power-on reset: the construction of the machine by the host (R500, R505). A construction out of bounds is no machine
and is refused (R495). -/
def State.construct (k : Construction) : Result :=
  if k.allowed then
    .next { State.reset with
      config := k.parameters
      plat := { Platform.reset with
        mem := (k.ramInit.place nvramBase k.nvramInit).place romBase k.rom
        disk := { Disk.reset with images := k.disks } } }
  else .refused .notAMachine

/-- The physical address of the next fetch: the host's calls and the delivery come first (R8, R420). Where the
translation faults there is no such address, and pc stands for it. -/
def State.nextFetchAddr (s : State) : Word :=
  let t := s.hostCalls.deliver
  match t.translate t.cpu.pc .long .read with
  | .ok pa => pa
  | .error _ => t.cpu.pc

/-- The ROM made long enough to hold a word at `pa`, where `pa` lies in its window (R97). -/
def romLenFor (len : Nat) (pa : Nat) : Nat := if romBase ≤ pa then max len (pa + 4 - romBase) else len

/-- The RAM made large enough to hold a word at `pa`, where `pa` lies in its areas (R84). -/
def ramSizeFor (size : Nat) (pa : Nat) : Nat := if pa < 0x10000000 then max size (pa + 4) else size

/-- The machine with a word of its program loaded from outside at a physical address of RAM or ROM (log entry 4). -/
def State.loadWord (s : State) (pa w : Word) : State :=
  { s with
    config := { s.config with
      romLen := romLenFor s.config.romLen pa.toNat
      ramSize := ramSizeFor s.config.ramSize pa.toNat }
    plat := { s.plat with mem := s.plat.mem.writeLE pa.toNat .long w } }

end Sys2Proof.Machine
end

