-- ==== Sys2Proof/Machine/Step.lean ====
section
/-! DEFINITION. One step of the machine (spec R8, R420 to R422): the host's calls that come before it, the delivery check,
and the fetch, decode and execution of one instruction; and the state with a given word where the next fetch reads. -/

namespace Sys2Proof.Machine

/-- Fetch, decode and execute one instruction at pc (R421): the second half of a CPU step (R420). -/
def State.runOne (s : State) : Host.Outcome State Fault Refusal :=
  match s.fetch with
  | .error x => .next (s.raise x)
  | .ok w =>
    match decode s.config.enc w with
    | .ok i => exec i s
    | .error u => .next (s.raiseUndecoded u)

/-- One step: a machine in the fatal state takes none (R434); the host's calls come first (R8); a halted CPU does
nothing (R460); else delivery and one instruction (R420). -/
def step (s : State) : Host.Outcome State Fault Refusal :=
  if s.fatal then .fault .nestedException
  else if s.cpu.halted then .next s.hostCalls
  else s.hostCalls.deliver.runOne

/-- `s` with the instruction whose bits are `w` (those from `nbits` up 0) where the next step fetches, and running: in
RAM or in the ROM, which are made long enough to hold it; not halted and not fatal. -/
def State.withFetchWord (s : State) (nbits w : Nat) : State :=
  ((s.loadWord s.nextFetchAddr (BitVec.ofNat 32 (w % 2 ^ nbits))).setHalted false).setFatal false

end Sys2Proof.Machine
end

