-- ==== Sys2Proof/Safety.lean ====
section
/-! DEFINITION. What counts as a safe run and as a well-formed state, and the words the statements use for what a step
changes and what it leaves: the CPU after a step, the bytes of memory, the devices. -/

namespace Sys2Proof.Machine

/-! ### Runs and invariants -/

/-- The machine goes on: the step answers a next state. -/
def Goes (s : State) : Prop := ∃ t, step s = .next t

/-- A disk image's bytes are in canonical form and lie below its size (R469). -/
def DiskImage.Wf (i : DiskImage) : Prop := i.bytes.wf = true ∧ ∀ c ∈ i.bytes, c.1 < i.size

/-- The selected drive is an attached one (R469: `selected` is -1 or the number of an image). -/
def Disk.SelectedWf (d : Disk) : Prop := ∀ i, d.selected = some i → i < d.images.length

/-- Every slot's interrupt line is 0 or 48 plus the slot's number (R417, R476). -/
def Hub.LinesWf (h : Hub) : Prop := ∀ d : Fin 16, h.lines[d.val] = 0 ∨ h.lines[d.val] = 48 + d.val

/-- Code 0 of the keyboard is never set (R477). -/
def Keyboard.ZeroUnset (k : Keyboard) : Prop :=
  k.isPressed[0] = false ∧ k.outstandingPress[0] = false ∧ k.outstandingRelease[0] = false

/-- The platform's invariants: canonical memory, canonical images, at most 8 of them (R9), a selected drive that exists,
interrupt lines of their slots, no key with code 0. -/
structure Platform.Wf (p : Platform) : Prop where
  mem      : p.mem.wf = true
  images   : ∀ i ∈ p.disk.images, DiskImage.Wf i
  count    : p.disk.images.length ≤ 8
  selected : p.disk.SelectedWf
  lines    : p.hub.LinesWf
  keys     : p.kbd.ZeroUnset

/-- The R0 cell is 0 where MFCR cannot write it (R31, R32). -/
def State.ZeroCell (s : State) : Prop := s.config.mfcrR0Visible = false → s.reg 0 = 0

/-- A state that the machine keeps to: the platform's invariants, the R0 cell, and no fatal mark (R430). -/
structure State.Wf (s : State) : Prop where
  plat   : s.plat.Wf
  cell   : s.ZeroCell
  alive  : s.fatal = false

/-! ### What a step leaves -/

/-- Every byte of memory reads as before. -/
def BytesKept (p q : Platform) : Prop := ∀ a, q.mem.read a = p.mem.read a

/-- Everything behind the bus but memory is as before. -/
structure DevicesKept (p q : Platform) : Prop where
  boardRegs : q.boardRegs = p.boardRegs
  lsic      : q.lsic = p.lsic
  disk      : q.disk = p.disk
  uart0     : q.uart0 = p.uart0
  uart1     : q.uart1 = p.uart1
  rtc       : q.rtc = p.rtc
  hub       : q.hub = p.hub
  kbd       : q.kbd = p.kbd
  fbWrites  : q.fbWrites = p.fbWrites
  hostReads : q.hostReads = p.hostReads

/-- The CPU of `t` holds the values given; the parameters, the fatal mark and the schedule are those of `s`. -/
structure CpuAfter (s t : State) (regs : RegIdx → Word) (pc : Word) (crs : CrIdx → Word) (exc : Option Exc)
    (locked halted : Bool) : Prop where
  regs     : ∀ i, t.reg i = regs i
  pc       : t.cpu.pc = pc
  crs      : ∀ c, t.cr c = crs c
  exc      : t.cpu.excPending = exc
  locked   : t.cpu.locked = locked
  halted   : t.cpu.halted = halted
  config   : t.config = s.config
  fatal    : t.fatal = s.fatal
  schedule : t.schedule = s.schedule

/-- The general registers after `x[rD] <- v` (R32): a write to R0 is discarded, every other register is kept. -/
def State.regsWith (s : State) (rD : RegIdx) (v : Word) : RegIdx → Word :=
  fun i => if i = rD ∧ rD ≠ 0 then v else s.reg i

/-- The control registers after `CR[c] <- v` (R40). -/
def State.crsWith (s : State) (c : CrIdx) (v : Word) : CrIdx → Word := fun d => if d = c then v else s.cr d

/-- The control registers after an exception that records a bad address, or records none (R49). -/
def State.crsBad (s : State) : Option Word → CrIdx → Word
  | none => s.cr
  | some a => s.crsWith crEBADADDR a

/-- `t` is `s` with `x[rD] <- v` and the pc given, and nothing else changed. -/
structure WroteReg (s t : State) (rD : RegIdx) (v pc : Word) : Prop where
  cpu     : CpuAfter s t (s.regsWith rD v) pc s.cr s.cpu.excPending s.cpu.locked s.cpu.halted
  bytes   : BytesKept s.plat t.plat
  devices : DevicesKept s.plat t.plat

/-- `t` is `s` with the pc given, and nothing else changed. -/
structure WentTo (s t : State) (pc : Word) : Prop where
  cpu     : CpuAfter s t s.reg pc s.cr s.cpu.excPending s.cpu.locked s.cpu.halted
  bytes   : BytesKept s.plat t.plat
  devices : DevicesKept s.plat t.plat

/-- `t` is `s` with exception `e` latched, its bad address (if it has one) in EBADADDR and the pc given, and nothing
else changed (R430, R432). -/
structure Trapped (s t : State) (e : Exc) (bad : Option Word) (pc : Word) : Prop where
  cpu     : CpuAfter s t s.reg pc (s.crsBad bad) (some e) s.cpu.locked s.cpu.halted
  bytes   : BytesKept s.plat t.plat
  devices : DevicesKept s.plat t.plat

/-! ### Windows of bytes -/

/-- The address is one of the n bytes from `pa` on. -/
def InAccess (pa : Word) (n : Width) (a : Nat) : Prop := pa.toNat ≤ a ∧ a < pa.toNat + n.bytes

/-- The bytes from `pa` on hold the low bytes of `v`, lowest first (R85), and every other byte reads as before. -/
structure BytesStored (p q : Platform) (pa : Word) (n : Width) (v : Word) : Prop where
  stored : ∀ k, k < n.bytes → q.mem.read (pa.toNat + k) = BitVec.ofNat 8 (v.toNat / 2 ^ (8 * k))
  kept   : ∀ a, ¬ InAccess pa n a → q.mem.read a = p.mem.read a

/-- The access lies whole in a window of bytes that a store changes: RAM (R84), NVRAM (R94), the disk buffer (R95). -/
def Writable (c : Config) (pa : Word) (n : Width) : Prop :=
  (pa.toNat < 0x10000000 ∧ pa.toNat + n.bytes ≤ c.ramSize) ∨
    (0xF8001000 ≤ pa.toNat ∧ pa.toNat + n.bytes ≤ 0xF8011000) ∨
    (0xF8020000 ≤ pa.toNat ∧ pa.toNat + n.bytes ≤ 0xF8020200)

/-- The access lies whole in a window of bytes that a load reads: those of `Writable`, and the boot ROM (R97). -/
def Readable (c : Config) (pa : Word) (n : Width) : Prop :=
  Writable c pa n ∨ (0xFFFE0000 ≤ pa.toNat ∧ pa.toNat + n.bytes ≤ 0xFFFE0000 + c.romLen)

/-- The value of the n bytes from `pa` on, lowest first (R85). -/
def bytesValue (m : Memory) (pa : Word) : Width → Nat
  | .byte => (m.read pa.toNat).toNat
  | .int => (m.read pa.toNat).toNat + 2 ^ 8 * (m.read (pa.toNat + 1)).toNat
  | .long => (m.read pa.toNat).toNat + 2 ^ 8 * (m.read (pa.toNat + 1)).toNat +
      2 ^ 16 * (m.read (pa.toNat + 2)).toNat + 2 ^ 24 * (m.read (pa.toNat + 3)).toNat

/-- The address is one of the disk buffer's bytes (R95). -/
def InDiskBuffer (a : Nat) : Prop := 0xF8020000 ≤ a ∧ a < 0xF8020200

/-- The physical address selects the disk's command port, 0x19 (R90, R91). -/
def DiskCommandPort (pa : Word) : Prop := 0xF8000064 ≤ pa.toNat ∧ pa.toNat ≤ 0xF8000067

/-! ### What a load and a store do -/

/-- The access meets no alignment trap (R122). -/
def AlignedEnough (c : Config) (va : Word) (n : Width) : Prop :=
  c.alignTrap = false ∨ n ≠ .long ∨ va.toNat % 4 = 0

/-- A virtual access to RAM with translation off: past the boundary check, aligned enough, whole in RAM (R84, R119 to
R122). -/
structure PlainRam (s : State) (va : Word) (n : Width) : Prop where
  mmu   : (s.cr crRS).getLsbD 2 = false
  low   : 0x1000 ≤ va.toNat
  area  : va.toNat < 0x10000000
  ram   : va.toNat + n.bytes ≤ s.config.ramSize
  align : AlignedEnough s.config va n

/-- The exceptions that an access of n bytes at `ea` may raise (R252 to R265): the page exception of its kind, BUSERROR,
and with `ALIGN_TRAP` UNALIGNED for a long at no multiple of 4. -/
def MayRaise (s : State) (ea : Word) (n : Width) (page e : Exc) : Prop :=
  e = page ∨ e = .buserror ∨ (e = .unaligned ∧ n = .long ∧ s.config.alignTrap = true ∧ ea.toNat % 4 ≠ 0)

/-- Instruction `i` at `s` is a load of n bytes from `ea` into `rD` (R251): where the read answers a value, its low
bytes, zero-extended, go to the register; where the read raises, that exception is all, and it is PAGEFAULT, BUSERROR or
UNALIGNED. -/
def Loads (i : Instr) (s : State) (rD : RegIdx) (ea : Word) (n : Width) : Prop :=
  (∀ v, s.memRead ea n = .ok v → ∃ t, exec i s = .next t ∧
    WroteReg s t rD (BitVec.ofNat 32 (v.toNat % 2 ^ (8 * n.bytes))) (s.cpu.pc + 4)) ∧
  (∀ x, s.memRead ea n = .error x → MayRaise s ea n .pagefault x.exc ∧ (s.cpu.excPending = none →
    ∃ t, exec i s = .next t ∧ Trapped s t x.exc x.badAddr s.cpu.pc))

/-- Instruction `i` at `s` is a store of the low n bytes of `v` at `ea`, which leaves the general registers at `regs`
(R251, R265). Where `ea` translates to `pa` and the bus takes the write, the platform is the one after it, the pc moves
on and the rest of the CPU is kept; where the bus fails or the translation raises, that exception is all. Of memory,
nothing changes but the bytes at `pa`, where they lie in a window of bytes, and the disk buffer, where `pa` is the
disk's command port. -/
def Stores (i : Instr) (s : State) (regs : RegIdx → Word) (ea : Word) (n : Width) (v : Word) : Prop :=
  (∀ pa p, s.translate ea n .write = .ok pa → busWrite s.config s.plat pa n v = some p → ∃ t, exec i s = .next t ∧
    CpuAfter s t regs (s.cpu.pc + 4) s.cr s.cpu.excPending s.cpu.locked s.cpu.halted ∧ t.plat = p) ∧
  (∀ pa, s.translate ea n .write = .ok pa → busWrite s.config s.plat pa n v = none → s.cpu.excPending = none →
    ∃ t, exec i s = .next t ∧ Trapped s t .buserror (some pa) s.cpu.pc) ∧
  (∀ x, s.translate ea n .write = .error x → MayRaise s ea n .pagewrite x.exc ∧ (s.cpu.excPending = none →
    ∃ t, exec i s = .next t ∧ Trapped s t x.exc x.badAddr s.cpu.pc)) ∧
  (∀ pa t, s.translate ea n .write = .ok pa → exec i s = .next t → s.plat.mem.wf = true →
    (Writable s.config pa n → BytesStored s.plat t.plat pa n v ∧ DevicesKept s.plat t.plat) ∧
    (∀ a, ¬ (Writable s.config pa n ∧ InAccess pa n a) → ¬ (DiskCommandPort pa ∧ InDiskBuffer a) →
      t.plat.mem.read a = s.plat.mem.read a)) ∧
  (∀ x t, s.translate ea n .write = .error x → exec i s = .next t →
    BytesKept s.plat t.plat ∧ DevicesKept s.plat t.plat)

/-- Instruction `i` at `s` stores the low n bytes of `v` at `ea` in RAM, leaves the general registers at `regs`, and goes
on. -/
def StoresInRam (i : Instr) (s : State) (regs : RegIdx → Word) (ea : Word) (n : Width) (v : Word) : Prop :=
  PlainRam s ea n → s.plat.mem.wf = true → ∃ t, exec i s = .next t ∧
    CpuAfter s t regs (s.cpu.pc + 4) s.cr s.cpu.excPending s.cpu.locked s.cpu.halted ∧
    BytesStored s.plat t.plat ea n v ∧ DevicesKept s.plat t.plat

/-- Instruction `i` at `s` loads the n bytes at `ea` in RAM into `rD`, zero-extended, and goes on. -/
def LoadsFromRam (i : Instr) (s : State) (rD : RegIdx) (ea : Word) (n : Width) : Prop :=
  PlainRam s ea n → ∃ t, exec i s = .next t ∧
    WroteReg s t rD (BitVec.ofNat 32 (bytesValue s.plat.mem ea n)) (s.cpu.pc + 4)

/-! ### What DIVS and SC do -/

/-- `q` is the quotient of the signed values of `a` and `b` as DIVS gives it (R220): 0 for a zero divisor, `ovf` for
0x8000_0000 by -1, else rounded toward zero: its magnitude is the quotient of the magnitudes, its sign that of the
product. -/
def SignedQuotient (ovf a b q : Word) : Prop :=
  (b = 0 → q = 0) ∧
  (a = 0x80000000 → b = 0xFFFFFFFF → q = ovf) ∧
  (b ≠ 0 → ¬ (a = 0x80000000 ∧ b = 0xFFFFFFFF) →
    q.toInt.natAbs = a.toInt.natAbs / b.toInt.natAbs ∧
    (q ≠ 0 → (0 ≤ q.toInt ↔ (0 ≤ a.toInt ↔ 0 ≤ b.toInt))))

/-- Instruction `i` at `s` stores the long `data` at x[rA] only while the flag is set, and writes the flag to `rD`, or takes
the store's exception and writes nothing (R265). -/
def StoresWhileLocked (i : Instr) (s : State) (rD rA : RegIdx) (data : Word) : Prop :=
  (s.cpu.locked = false → ∃ t, exec i s = .next t ∧ WroteReg s t rD 0 (s.cpu.pc + 4)) ∧
  (s.cpu.locked = true → Stores i s (s.regsWith rD 1) (s.reg rA) .long data) ∧
  (s.cpu.locked = true → StoresInRam i s (s.regsWith rD 1) (s.reg rA) .long data)

/-! ### Encodings -/

/-- The bits of an instruction's word that its format reads (R153 to R158, R171); the others are ignored. -/
def readBits : Instr → Word
  | .j _ | .jal _ | .addi _ _ _ | .subi _ _ _ | .slti _ _ _ | .sltis _ _ _ | .andi _ _ _ | .ori _ _ _ | .xori _ _ _
  | .lui _ _ _ | .jalr _ _ _ | .ldb _ _ _ | .ldi _ _ _ | .ldl _ _ _ | .stb _ _ _ | .sti _ _ _ | .stl _ _ _
  | .beq _ _ | .bne _ _ | .blt _ _ | .add _ _ _ _ | .sub _ _ _ _ | .slt _ _ _ _ | .slts _ _ _ _ | .and _ _ _ _
  | .or _ _ _ _ | .xor _ _ _ _ | .nor _ _ _ _ | .ldbx _ _ _ _ | .ldix _ _ _ _ | .ldlx _ _ _ _ | .stbx _ _ _ _
  | .stix _ _ _ _ | .stlx _ _ _ _ => 0xFFFFFFFF
  | .mul _ _ b | .div _ _ b | .divs _ _ b | .mod _ _ b | .sc _ _ b =>
    match b with
    | .reg _ => 0xF01FFFFF
    | .shifted _ _ => 0xFFFFFFFF
  | .ll _ _ => 0xF000FFFF
  | .sys | .brk | .fwc | .rfe | .hlt | .ftlb => 0xF000003F
  | .mtcr _ _ => 0xF01FF83F
  | .mfcr _ _ => 0xF01F07FF

/-- The instruction is of the privileged group (R163, R300). -/
def privileged : Instr → Bool
  | .fwc | .rfe | .hlt | .ftlb | .mtcr _ _ | .mfcr _ _ => true
  | .j _ | .jal _ | .addi _ _ _ | .subi _ _ _ | .slti _ _ _ | .sltis _ _ _ | .andi _ _ _ | .ori _ _ _ | .xori _ _ _
  | .lui _ _ _ | .jalr _ _ _ | .ldb _ _ _ | .ldi _ _ _ | .ldl _ _ _ | .stb _ _ _ | .sti _ _ _ | .stl _ _ _
  | .beq _ _ | .bne _ _ | .blt _ _ | .add _ _ _ _ | .sub _ _ _ _ | .slt _ _ _ _ | .slts _ _ _ _ | .and _ _ _ _
  | .or _ _ _ _ | .xor _ _ _ _ | .nor _ _ _ _ | .ldbx _ _ _ _ | .ldix _ _ _ _ | .ldlx _ _ _ _ | .stbx _ _ _ _
  | .stix _ _ _ _ | .stlx _ _ _ _ | .mul _ _ _ | .div _ _ _ | .divs _ _ _ | .mod _ _ _ | .sc _ _ _ | .ll _ _
  | .sys | .brk => false

end Sys2Proof.Machine
end

