-- ==== Sys2Proof/Certificates/Slice0/Obligations.lean ====
section
/-! DEFINITION. The statements for the provers. Each docstring names the rule of spec/ it formalises. Statements about the
machine hold for every numbering of the OPEN `ENC_<M>`, every parameter and every value of the free constants. -/

open Sys2Proof Sys2Proof.Machine

/-! ### Encoding (spec 30_encoding.md) -/

/-- Every instruction of an encoding, with every operand, is decoded from its own word and from its four bytes, lowest
first (R85, R150 to R158), under every numbering `Encoding.wf` allows: R162's, with each of MUL, DIV, DIVS, MOD, LL, SC, SYS
and BRK in group 0x31 or 0x39. That MUL, DIV, DIVS, MOD and SC have the shift of format R in group 0x39 is read from R156,
against their own rules' format G (DEDUCED, log entry 3). -/
def Obligations.DecodeInvertsEncode : Prop :=
  ∀ e : Encoding, e.wf = true → ∀ i : Instr, i.wf e = true →
    decode e (encode e i) = .ok i ∧
    ∀ rest : List Byte, decodeBytes e
      (BitVec.ofNat 8 (encode e i).toNat :: BitVec.ofNat 8 ((encode e i).toNat / 2 ^ 8) ::
        BitVec.ofNat 8 ((encode e i).toNat / 2 ^ 16) :: BitVec.ofNat 8 ((encode e i).toNat / 2 ^ 24) :: rest) =
      .ok (i, rest)

/-- A word is decoded as an instruction exactly when the instruction is one of the encoding's and the word agrees with
its word on the bits its format reads: ignored bits do not matter (R171), every other bit does. Every instruction is one
of the encoding's but MUL, DIV, DIVS, MOD and SC with a shift in group 0x31, or without one in group 0x39. The words of
these five and of LL, SYS and BRK have the group their encoding gives, 0x31 or 0x39 (R162 (e)). That in group 0x39 the
five have the shift of format R, and LL, SYS and BRK, which name no rB, ignore it, is read from R156 against their own
rules' format G (DEDUCED, log entry 3). -/
def Obligations.DecodeReadsExactlyTheFormat : Prop :=
  ∀ e : Encoding, e.wf = true →
    (∀ (w : Word) (i : Instr),
      decode e w = .ok i ↔ i.wf e = true ∧ w &&& readBits i = encode e i &&& readBits i) ∧
    (∀ i : Instr, i.wf e = false → ∃ rD rA b, i = .mul rD rA b ∨ i = .div rD rA b ∨ i = .divs rD rA b ∨
      i = .mod rD rA b ∨ i = .sc rD rA b) ∧
    ∀ (rD rA rB : RegIdx) (sh : Shift) (c : GrpCode),
      let inGrp := decide (c.group = .grp)
      let word := fun (mid : BitVec 7) (rB rA rD : RegIdx) =>
        c.funct ++ mid ++ rB ++ rA ++ rD ++ (if c.group = .grp then 0b110001 else 0b111001 : BitVec 6)
      let five := fun (i : SrcB → Instr) =>
        (i (.reg rB)).wf e = inGrp ∧ (i (.shifted rB sh)).wf e = !inGrp ∧ encode e (i (.reg rB)) = word 0 rB rA rD ∧
          encode e (i (.shifted rB sh)) = word (sh.type.toBits ++ sh.amount) rB rA rD
      (e.mul = c → five (.mul rD rA)) ∧ (e.div = c → five (.div rD rA)) ∧ (e.divs = c → five (.divs rD rA)) ∧
      (e.mod = c → five (.mod rD rA)) ∧ (e.sc = c → five (.sc rD rA)) ∧
      (e.ll = c → encode e (.ll rD rA) = word 0 0 rA rD) ∧ (e.sys = c → encode e .sys = word 0 0 0 0) ∧
      (e.brk = c → encode e .brk = word 0 0 0 0)

/-- Words written out by hand decode to the instructions they stand for (95_test_vectors.md V1 to V6). The numbering is
`Encoding.candidate`, the model's choice (PRESUMED, log entry 2); J and JAL are the source's. -/
def Obligations.SampleWordsDecode : Prop :=
  decode Encoding.candidate 0x0000000E = .ok (.j 1) ∧
  decode Encoding.candidate 0x0000003F = .ok (.jal 7) ∧
  decode Encoding.candidate 0xFFFF107C = .ok (.addi 1 2 0xFFFF) ∧
  decode Encoding.candidate 0xFFFFF075 = .ok (.bne 1 0x1FFFFE) ∧
  decode Encoding.candidate 0x7BE30079 = .ok (.add 1 0 3 ⟨31, .asr⟩) ∧
  decode Encoding.candidate 0x0002106A = .ok (.stl 1 2 2) ∧
  decode Encoding.candidate 0xD04310B9 = .ok (.ldlx 2 2 3 ⟨2, .lsl⟩) ∧
  decode Encoding.candidate 0xFFE31071 = .ok (.mul 1 2 (.reg 3)) ∧
  decode Encoding.candidate 0xE0040829 = .ok (.mtcr 4 1) ∧
  decode Encoding.candidate 0xF0080069 = .ok (.mfcr 1 8)

/-! ### Operands -/

/-- The operand shifter (R160): an amount of 0 passes the operand whatever the type; LSL, LSR and ASR multiply by, divide
by and floor-divide by 2^n; ROR moves bit (k + n) mod 32 to bit k; rotating on by 32 - n gives the operand back. -/
def Obligations.OperandShifter : Prop :=
  ∀ (amount : BitVec 5) (ty : ShiftType) (x : Word),
    (amount = 0 → shiftOperand ⟨amount, ty⟩ x = x) ∧
    shiftOperand ⟨amount, .lsl⟩ x = BitVec.ofNat 32 (x.toNat * 2 ^ amount.toNat) ∧
    shiftOperand ⟨amount, .lsr⟩ x = BitVec.ofNat 32 (x.toNat / 2 ^ amount.toNat) ∧
    shiftOperand ⟨amount, .asr⟩ x = BitVec.ofInt 32 (x.toInt / 2 ^ amount.toNat) ∧
    (∀ k, k < 32 → (shiftOperand ⟨amount, .ror⟩ x).getLsbD k = x.getLsbD ((k + amount.toNat) % 32)) ∧
    shiftOperand ⟨-amount, .ror⟩ (shiftOperand ⟨amount, .ror⟩ x) = x

/-- Every immediate of R159 as a number: zero-extended, sign-extended, upper, scaled, and the jump target. -/
def Obligations.ImmediateValues : Prop :=
  ∀ (imm : BitVec 16) (disp : BitVec 21) (target : BitVec 29) (pc0 : Word),
    (jumpTarget pc0 target).toNat = pc0.toNat / 2 ^ 31 * 2 ^ 31 + 4 * target.toNat ∧
    (branchOffset disp).toInt = 4 * disp.toInt ∧
    (zext16 imm).toNat = imm.toNat ∧
    (sext16 imm).toInt = imm.toInt ∧
    (upperImm imm).toNat = 2 ^ 16 * imm.toNat ∧
    (jalrOffset imm).toInt = 4 * imm.toInt ∧
    (memOffset .byte imm).toNat = imm.toNat ∧
    (memOffset .int imm).toNat = 2 * imm.toNat ∧
    (memOffset .long imm).toNat = 4 * imm.toNat

/-! ### Integer ALU (spec 40_alu.md) -/

/-- ADDI, SUBI, SLTI, SLTIS (R202 to R205): they complete from every state, write the sum, the difference or the
comparison to rD (nothing where rD is R0), go on to pc0 + 4 and change nothing else; their words are of format I. -/
def Obligations.ImmediateArithmetic : Prop :=
  ∀ (s : State) (rD rA : RegIdx) (imm : BitVec 16),
    (∃ t, exec (.addi rD rA imm) s = .next t ∧
      WroteReg s t rD (BitVec.ofNat 32 ((s.reg rA).toNat + imm.toNat)) (s.cpu.pc + 4)) ∧
    (∃ t, exec (.subi rD rA imm) s = .next t ∧
      WroteReg s t rD (BitVec.ofInt 32 ((s.reg rA).toNat - imm.toNat)) (s.cpu.pc + 4)) ∧
    (∃ t, exec (.slti rD rA imm) s = .next t ∧
      WroteReg s t rD (if (s.reg rA).toNat < imm.toNat then 1 else 0) (s.cpu.pc + 4)) ∧
    (∃ t, exec (.sltis rD rA imm) s = .next t ∧
      WroteReg s t rD (if (s.reg rA).toInt < imm.toInt then 1 else 0) (s.cpu.pc + 4)) ∧
    ∀ e : Encoding,
      encode e (.addi rD rA imm) = imm ++ rA ++ rD ++ e.addi ∧ encode e (.subi rD rA imm) = imm ++ rA ++ rD ++ e.subi ∧
      encode e (.slti rD rA imm) = imm ++ rA ++ rD ++ e.slti ∧ encode e (.sltis rD rA imm) = imm ++ rA ++ rD ++ e.sltis

/-- ANDI, ORI, XORI, LUI (R206 to R209): bitwise with the zero-extended immediate, LUI with the immediate moved up 16
bits; nothing else changes. -/
def Obligations.ImmediateLogic : Prop :=
  ∀ (s : State) (rD rA : RegIdx) (imm : BitVec 16),
    (∃ t, exec (.andi rD rA imm) s = .next t ∧
      WroteReg s t rD (BitVec.ofNat 32 ((s.reg rA).toNat &&& imm.toNat)) (s.cpu.pc + 4)) ∧
    (∃ t, exec (.ori rD rA imm) s = .next t ∧
      WroteReg s t rD (BitVec.ofNat 32 ((s.reg rA).toNat ||| imm.toNat)) (s.cpu.pc + 4)) ∧
    (∃ t, exec (.xori rD rA imm) s = .next t ∧
      WroteReg s t rD (BitVec.ofNat 32 ((s.reg rA).toNat ^^^ imm.toNat)) (s.cpu.pc + 4)) ∧
    (∃ t, exec (.lui rD rA imm) s = .next t ∧
      WroteReg s t rD (BitVec.ofNat 32 ((s.reg rA).toNat ||| imm.toNat * 2 ^ 16)) (s.cpu.pc + 4)) ∧
    ∀ e : Encoding,
      encode e (.andi rD rA imm) = imm ++ rA ++ rD ++ e.andi ∧ encode e (.ori rD rA imm) = imm ++ rA ++ rD ++ e.ori ∧
      encode e (.xori rD rA imm) = imm ++ rA ++ rD ++ e.xori ∧ encode e (.lui rD rA imm) = imm ++ rA ++ rD ++ e.lui

/-- ADD, SUB, SLT, SLTS (R210 to R213) on x[rA] and the shifter's output (R160, `OperandShifter`): they complete from every
state, write the result to rD (nothing where rD is R0) and change nothing else; their words are of format R. -/
def Obligations.RegisterArithmetic : Prop :=
  ∀ (s : State) (rD rA rB : RegIdx) (sh : Shift),
    (∃ t, exec (.add rD rA rB sh) s = .next t ∧
      WroteReg s t rD (BitVec.ofNat 32 ((s.reg rA).toNat + (shiftOperand sh (s.reg rB)).toNat)) (s.cpu.pc + 4)) ∧
    (∃ t, exec (.sub rD rA rB sh) s = .next t ∧
      WroteReg s t rD (BitVec.ofInt 32 ((s.reg rA).toNat - (shiftOperand sh (s.reg rB)).toNat)) (s.cpu.pc + 4)) ∧
    (∃ t, exec (.slt rD rA rB sh) s = .next t ∧
      WroteReg s t rD (if (s.reg rA).toNat < (shiftOperand sh (s.reg rB)).toNat then 1 else 0) (s.cpu.pc + 4)) ∧
    (∃ t, exec (.slts rD rA rB sh) s = .next t ∧
      WroteReg s t rD (if (s.reg rA).toInt < (shiftOperand sh (s.reg rB)).toInt then 1 else 0) (s.cpu.pc + 4)) ∧
    ∀ e : Encoding,
      encode e (.add rD rA rB sh) = e.add ++ sh.type.toBits ++ sh.amount ++ rB ++ rA ++ rD ++ (0b111001 : BitVec 6) ∧
      encode e (.sub rD rA rB sh) = e.sub ++ sh.type.toBits ++ sh.amount ++ rB ++ rA ++ rD ++ (0b111001 : BitVec 6) ∧
      encode e (.slt rD rA rB sh) = e.slt ++ sh.type.toBits ++ sh.amount ++ rB ++ rA ++ rD ++ (0b111001 : BitVec 6) ∧
      encode e (.slts rD rA rB sh) = e.slts ++ sh.type.toBits ++ sh.amount ++ rB ++ rA ++ rD ++ (0b111001 : BitVec 6)

/-- AND, OR, XOR (R214 to R216) on x[rA] and the shifter's output: bitwise; nothing else changes. -/
def Obligations.RegisterLogic : Prop :=
  ∀ (s : State) (rD rA rB : RegIdx) (sh : Shift),
    (∃ t, exec (.and rD rA rB sh) s = .next t ∧
      WroteReg s t rD (BitVec.ofNat 32 ((s.reg rA).toNat &&& (shiftOperand sh (s.reg rB)).toNat)) (s.cpu.pc + 4)) ∧
    (∃ t, exec (.or rD rA rB sh) s = .next t ∧
      WroteReg s t rD (BitVec.ofNat 32 ((s.reg rA).toNat ||| (shiftOperand sh (s.reg rB)).toNat)) (s.cpu.pc + 4)) ∧
    (∃ t, exec (.xor rD rA rB sh) s = .next t ∧
      WroteReg s t rD (BitVec.ofNat 32 ((s.reg rA).toNat ^^^ (shiftOperand sh (s.reg rB)).toNat)) (s.cpu.pc + 4)) ∧
    ∀ e : Encoding,
      encode e (.and rD rA rB sh) = e.and ++ sh.type.toBits ++ sh.amount ++ rB ++ rA ++ rD ++ (0b111001 : BitVec 6) ∧
      encode e (.or rD rA rB sh) = e.or ++ sh.type.toBits ++ sh.amount ++ rB ++ rA ++ rD ++ (0b111001 : BitVec 6) ∧
      encode e (.xor rD rA rB sh) = e.xor ++ sh.type.toBits ++ sh.amount ++ rB ++ rA ++ rD ++ (0b111001 : BitVec 6)

/-- NOR and MUL: the complement of the or with the shifter's output, and the low word of the product; nothing else
changes; bits 27..21 of MUL's word in group 0x31 do not matter. R217 and R218 are marked `[from general knowledge, not in
source]` by the spec, which admits them by D4. And the form of group 0x39 (R162 (e)) of MUL, DIV, DIVS, MOD and SC: the
second operand is the shifter's output, as for every member of that group (R156, D21), where the instructions' own rules
say x[rB] (DEDUCED, log entry 3); `DecodeReadsExactlyTheFormat` says their words there. -/
def Obligations.NotOrMultiplyAndShiftedForms : Prop :=
  ∀ (s : State) (rD rA rB : RegIdx) (sh : Shift),
    let opB := shiftOperand sh (s.reg rB)
    (∃ t, exec (.nor rD rA rB sh) s = .next t ∧
      WroteReg s t rD (BitVec.ofNat 32 (2 ^ 32 - 1 - ((s.reg rA).toNat ||| opB.toNat))) (s.cpu.pc + 4)) ∧
    (∃ t, exec (.mul rD rA (.reg rB)) s = .next t ∧
      WroteReg s t rD (BitVec.ofNat 32 ((s.reg rA).toNat * (s.reg rB).toNat)) (s.cpu.pc + 4)) ∧
    (∃ t, exec (.mul rD rA (.shifted rB sh)) s = .next t ∧
      WroteReg s t rD (BitVec.ofNat 32 ((s.reg rA).toNat * opB.toNat)) (s.cpu.pc + 4)) ∧
    (∃ t, exec (.div rD rA (.shifted rB sh)) s = .next t ∧
      WroteReg s t rD (if opB = 0 then 0 else BitVec.ofNat 32 ((s.reg rA).toNat / opB.toNat)) (s.cpu.pc + 4)) ∧
    (∃ t, exec (.mod rD rA (.shifted rB sh)) s = .next t ∧
      WroteReg s t rD (if opB = 0 then 0 else BitVec.ofNat 32 ((s.reg rA).toNat % opB.toNat)) (s.cpu.pc + 4)) ∧
    (∃ t, exec (.divs rD rA (.shifted rB sh)) s = .next t ∧ ∃ q, WroteReg s t rD q (s.cpu.pc + 4) ∧
      SignedQuotient s.config.divsOvf (s.reg rA) opB q) ∧
    StoresWhileLocked (.sc rD rA (.shifted rB sh)) s rD rA opB ∧
    ∀ e : Encoding, ∀ k : BitVec 7,
      encode e (.nor rD rA rB sh) = e.nor ++ sh.type.toBits ++ sh.amount ++ rB ++ rA ++ rD ++ (0b111001 : BitVec 6) ∧
      (e.mul.group = .grp → encode e (.mul rD rA (.reg rB)) &&& 0xF01FFFFF =
        (e.mul.funct ++ k ++ rB ++ rA ++ rD ++ (0b110001 : BitVec 6)) &&& 0xF01FFFFF)

/-- DIV, DIVS, MOD in format G (R219 to R221): 0 for a zero divisor, with no exception; the unsigned quotient and remainder;
for DIVS `DIVS_OVF` for 0x8000_0000 by -1, else the quotient of the signed values rounded toward zero. Nothing else
changes; bits 27..21 of the words in group 0x31 do not matter. `NotOrMultiplyAndShiftedForms` says their form of group
0x39. -/
def Obligations.Division : Prop :=
  ∀ (s : State) (rD rA rB : RegIdx),
    (∃ t, exec (.div rD rA (.reg rB)) s = .next t ∧
      WroteReg s t rD (if s.reg rB = 0 then 0 else BitVec.ofNat 32 ((s.reg rA).toNat / (s.reg rB).toNat))
        (s.cpu.pc + 4)) ∧
    (∃ t, exec (.mod rD rA (.reg rB)) s = .next t ∧
      WroteReg s t rD (if s.reg rB = 0 then 0 else BitVec.ofNat 32 ((s.reg rA).toNat % (s.reg rB).toNat))
        (s.cpu.pc + 4)) ∧
    (∃ t, exec (.divs rD rA (.reg rB)) s = .next t ∧ ∃ q, WroteReg s t rD q (s.cpu.pc + 4) ∧
      SignedQuotient s.config.divsOvf (s.reg rA) (s.reg rB) q) ∧
    ∀ e : Encoding, ∀ k : BitVec 7,
      (e.div.group = .grp → encode e (.div rD rA (.reg rB)) &&& 0xF01FFFFF =
        (e.div.funct ++ k ++ rB ++ rA ++ rD ++ (0b110001 : BitVec 6)) &&& 0xF01FFFFF) ∧
      (e.divs.group = .grp → encode e (.divs rD rA (.reg rB)) &&& 0xF01FFFFF =
        (e.divs.funct ++ k ++ rB ++ rA ++ rD ++ (0b110001 : BitVec 6)) &&& 0xF01FFFFF) ∧
      (e.mod.group = .grp → encode e (.mod rD rA (.reg rB)) &&& 0xF01FFFFF =
        (e.mod.funct ++ k ++ rB ++ rA ++ rD ++ (0b110001 : BitVec 6)) &&& 0xF01FFFFF)

/-! ### Loads and stores (spec 41_loadstore.md) -/

/-- LDB, LDI, LDL (R250 to R254): a load of 1, 2 or 4 bytes from x[rA] plus the offset scaled by the size, zero-extended to
rD; where the read raises, that exception (PAGEFAULT, BUSERROR, or UNALIGNED with `ALIGN_TRAP`) and nothing else; their
words are of format I. -/
def Obligations.ImmediateLoads : Prop :=
  ∀ (s : State) (rD rA : RegIdx) (imm : BitVec 16),
    Loads (.ldb rD rA imm) s rD (BitVec.ofNat 32 ((s.reg rA).toNat + imm.toNat)) .byte ∧
    Loads (.ldi rD rA imm) s rD (BitVec.ofNat 32 ((s.reg rA).toNat + 2 * imm.toNat)) .int ∧
    Loads (.ldl rD rA imm) s rD (BitVec.ofNat 32 ((s.reg rA).toNat + 4 * imm.toNat)) .long ∧
    ∀ e : Encoding, encode e (.ldb rD rA imm) = imm ++ rA ++ rD ++ e.ldb ∧
      encode e (.ldi rD rA imm) = imm ++ rA ++ rD ++ e.ldi ∧ encode e (.ldl rD rA imm) = imm ++ rA ++ rD ++ e.ldl

/-- LDBX, LDIX, LDLX (R250, R251): a load of 1, 2 or 4 bytes from x[rA] plus the shifter's output, zero-extended to rD, or
the exception of the read and nothing else; their words are of format R. R258 to R260 are marked
`[from general knowledge, not in source]` by the spec, which admits them by D4. -/
def Obligations.IndexedLoads : Prop :=
  ∀ (s : State) (rD rA rB : RegIdx) (sh : Shift),
    let ea := BitVec.ofNat 32 ((s.reg rA).toNat + (shiftOperand sh (s.reg rB)).toNat)
    Loads (.ldbx rD rA rB sh) s rD ea .byte ∧
    Loads (.ldix rD rA rB sh) s rD ea .int ∧
    Loads (.ldlx rD rA rB sh) s rD ea .long ∧
    ∀ e : Encoding,
      encode e (.ldbx rD rA rB sh) = e.ldbx ++ sh.type.toBits ++ sh.amount ++ rB ++ rA ++ rD ++ (0b111001 : BitVec 6) ∧
      encode e (.ldix rD rA rB sh) = e.ldix ++ sh.type.toBits ++ sh.amount ++ rB ++ rA ++ rD ++ (0b111001 : BitVec 6) ∧
      encode e (.ldlx rD rA rB sh) = e.ldlx ++ sh.type.toBits ++ sh.amount ++ rB ++ rA ++ rD ++ (0b111001 : BitVec 6)

/-- Every load completes from RAM with translation off and gives the bytes there, lowest first (R84, R85, R119 to R122). -/
def Obligations.LoadsCompleteFromRam : Prop :=
  ∀ (s : State) (rD rA rB : RegIdx) (imm : BitVec 16) (sh : Shift),
    LoadsFromRam (.ldb rD rA imm) s rD (BitVec.ofNat 32 ((s.reg rA).toNat + imm.toNat)) .byte ∧
    LoadsFromRam (.ldi rD rA imm) s rD (BitVec.ofNat 32 ((s.reg rA).toNat + 2 * imm.toNat)) .int ∧
    LoadsFromRam (.ldl rD rA imm) s rD (BitVec.ofNat 32 ((s.reg rA).toNat + 4 * imm.toNat)) .long ∧
    LoadsFromRam (.ldbx rD rA rB sh) s rD
      (BitVec.ofNat 32 ((s.reg rA).toNat + (shiftOperand sh (s.reg rB)).toNat)) .byte ∧
    LoadsFromRam (.ldix rD rA rB sh) s rD
      (BitVec.ofNat 32 ((s.reg rA).toNat + (shiftOperand sh (s.reg rB)).toNat)) .int ∧
    LoadsFromRam (.ldlx rD rA rB sh) s rD
      (BitVec.ofNat 32 ((s.reg rA).toNat + (shiftOperand sh (s.reg rB)).toNat)) .long

/-- STB, STI, STL (R250, R251, R255 to R257): a store of 1, 2 or 4 bytes at the base plus the offset scaled by the size,
the data and base registers being those `STORE_DATA_FIELD` says. -/
def Obligations.ImmediateStores : Prop :=
  ∀ (s : State) (rD rA : RegIdx) (imm : BitVec 16),
    let base := if s.config.storeDataField = .rD then rA else rD
    let data := if s.config.storeDataField = .rD then rD else rA
    Stores (.stb rD rA imm) s s.reg (s.eaImm base .byte imm) .byte (s.reg data) ∧
    Stores (.sti rD rA imm) s s.reg (s.eaImm base .int imm) .int (s.reg data) ∧
    Stores (.stl rD rA imm) s s.reg (s.eaImm base .long imm) .long (s.reg data) ∧
    s.eaImm base .byte imm = BitVec.ofNat 32 ((s.reg base).toNat + imm.toNat) ∧
    s.eaImm base .int imm = BitVec.ofNat 32 ((s.reg base).toNat + 2 * imm.toNat) ∧
    s.eaImm base .long imm = BitVec.ofNat 32 ((s.reg base).toNat + 4 * imm.toNat) ∧
    ∀ e : Encoding, encode e (.stb rD rA imm) = imm ++ rA ++ rD ++ e.stb ∧
      encode e (.sti rD rA imm) = imm ++ rA ++ rD ++ e.sti ∧ encode e (.stl rD rA imm) = imm ++ rA ++ rD ++ e.stl

/-- STBX, STIX, STLX (R250, R251, R261 to R263): a store of x[rD] at x[rA] plus the shifter's output; where rD is R0 the
value R0 reads is stored; their function codes are 9, 10 and 11. -/
def Obligations.IndexedStores : Prop :=
  ∀ (s : State) (rD rA rB : RegIdx) (sh : Shift),
    Stores (.stbx rD rA rB sh) s s.reg (s.eaIdx rA rB sh) .byte (s.reg rD) ∧
    Stores (.stix rD rA rB sh) s s.reg (s.eaIdx rA rB sh) .int (s.reg rD) ∧
    Stores (.stlx rD rA rB sh) s s.reg (s.eaIdx rA rB sh) .long (s.reg rD) ∧
    s.eaIdx rA rB sh = BitVec.ofNat 32 ((s.reg rA).toNat + (shiftOperand sh (s.reg rB)).toNat) ∧
    ∀ e : Encoding,
      encode e (.stbx rD rA rB sh) = e.stbx ++ sh.type.toBits ++ sh.amount ++ rB ++ rA ++ rD ++ (0b111001 : BitVec 6) ∧
      encode e (.stix rD rA rB sh) = e.stix ++ sh.type.toBits ++ sh.amount ++ rB ++ rA ++ rD ++ (0b111001 : BitVec 6) ∧
      encode e (.stlx rD rA rB sh) = e.stlx ++ sh.type.toBits ++ sh.amount ++ rB ++ rA ++ rD ++ (0b111001 : BitVec 6) ∧
      (e.wf = true → (e.stbx = 9 ∨ e.stbx = 10 ∨ e.stbx = 11) ∧ (e.stix = 9 ∨ e.stix = 10 ∨ e.stix = 11) ∧
        (e.stlx = 9 ∨ e.stlx = 10 ∨ e.stlx = 11))

/-- Every store completes in RAM with translation off: the low bytes of the data register, lowest first, at the effective
address, and every other byte as before (R84, R85, R119 to R122). -/
def Obligations.StoresCompleteInRam : Prop :=
  ∀ (s : State) (rD rA rB : RegIdx) (imm : BitVec 16) (sh : Shift),
    let base := if s.config.storeDataField = .rD then rA else rD
    let data := if s.config.storeDataField = .rD then rD else rA
    StoresInRam (.stb rD rA imm) s s.reg (s.eaImm base .byte imm) .byte (s.reg data) ∧
    StoresInRam (.sti rD rA imm) s s.reg (s.eaImm base .int imm) .int (s.reg data) ∧
    StoresInRam (.stl rD rA imm) s s.reg (s.eaImm base .long imm) .long (s.reg data) ∧
    StoresInRam (.stbx rD rA rB sh) s s.reg (s.eaIdx rA rB sh) .byte (s.reg rD) ∧
    StoresInRam (.stix rD rA rB sh) s s.reg (s.eaIdx rA rB sh) .int (s.reg rD) ∧
    StoresInRam (.stlx rD rA rB sh) s s.reg (s.eaIdx rA rB sh) .long (s.reg rD)

/-- LL (R264): sets the flag and loads the long at x[rA]; the flag is set also where the load raises (PAGEFAULT, BUSERROR,
or UNALIGNED with `ALIGN_TRAP`); bits 27..16 of its word in group 0x31 do not matter (`DecodeReadsExactlyTheFormat` says
its word in group 0x39). -/
def Obligations.LoadLinked : Prop :=
  ∀ (s : State) (rD rA : RegIdx),
    (∀ v, s.memRead (s.reg rA) .long = .ok v → ∃ t, exec (.ll rD rA) s = .next t ∧
      CpuAfter s t (s.regsWith rD v) (s.cpu.pc + 4) s.cr s.cpu.excPending true s.cpu.halted ∧
      BytesKept s.plat t.plat ∧ DevicesKept s.plat t.plat) ∧
    (∀ x, s.memRead (s.reg rA) .long = .error x → MayRaise s (s.reg rA) .long .pagefault x.exc ∧
      (s.cpu.excPending = none → ∃ t, exec (.ll rD rA) s = .next t ∧
        CpuAfter s t s.reg s.cpu.pc (s.crsBad x.badAddr) (some x.exc) true s.cpu.halted ∧
        BytesKept s.plat t.plat ∧ DevicesKept s.plat t.plat)) ∧
    (PlainRam s (s.reg rA) .long → ∃ t, exec (.ll rD rA) s = .next t ∧
      CpuAfter s t (s.regsWith rD (BitVec.ofNat 32 (bytesValue s.plat.mem (s.reg rA) .long))) (s.cpu.pc + 4) s.cr
        s.cpu.excPending true s.cpu.halted ∧
      BytesKept s.plat t.plat ∧ DevicesKept s.plat t.plat) ∧
    ∀ e : Encoding, ∀ k : BitVec 12,
      e.ll.group = .grp → encode e (.ll rD rA) &&& 0xF000FFFF =
        (e.ll.funct ++ k ++ rA ++ rD ++ (0b110001 : BitVec 6)) &&& 0xF000FFFF

/-- SC in format G (R265): without the flag it stores nothing, cannot fault and writes 0 to rD; with it, it stores x[rB] at
x[rA] and writes 1, or takes the store's exception and writes nothing; the flag stays; bits 27..21 of its word in group
0x31 do not matter. `NotOrMultiplyAndShiftedForms` says its form of group 0x39. -/
def Obligations.StoreConditional : Prop :=
  ∀ (s : State) (rD rA rB : RegIdx),
    StoresWhileLocked (.sc rD rA (.reg rB)) s rD rA (s.reg rB) ∧
    ∀ e : Encoding, ∀ k : BitVec 7,
      e.sc.group = .grp → encode e (.sc rD rA (.reg rB)) &&& 0xF01FFFFF =
        (e.sc.funct ++ k ++ rB ++ rA ++ rD ++ (0b110001 : BitVec 6)) &&& 0xF01FFFFF

/-- Only LL sets the LL/SC flag and only RFE clears it (R38, R266); only HLT sets the halt latch (R39), among
instructions. -/
def Obligations.LatchesChangeOnlyByTheirInstructions : Prop :=
  ∀ (i : Instr) (s t : State), exec i s = .next t →
    (t.cpu.locked ≠ s.cpu.locked →
      (∃ rD rA, i = .ll rD rA ∧ t.cpu.locked = true) ∨
        (i = .rfe ∧ (s.cr crRS).getLsbD 0 = false ∧ t.cpu.locked = false)) ∧
    (t.cpu.halted ≠ s.cpu.halted → i = .hlt ∧ (s.cr crRS).getLsbD 0 = false ∧ t.cpu.halted = true)

/-! ### Memory, bus, translation (spec 20_memory.md) -/

/-- A virtual access (R119 to R123): the boundary check, then the alignment check, then with RS.MMU clear the address itself;
then the bus, and where the bus fails, BUSERROR with the physical address. -/
def Obligations.AccessChecks : Prop :=
  ∀ (s : State) (va : Word) (n : Width) (kind : AccessKind),
    (va.toNat < 0x1000 ∨ 0xFFFFF000 ≤ va.toNat →
      s.translate va n kind = .error ⟨if kind = .write then .pagewrite else .pagefault, some va⟩) ∧
    (0x1000 ≤ va.toNat → va.toNat < 0xFFFFF000 →
      (s.config.alignTrap = true → n = .long → va.toNat % 4 ≠ 0 →
        s.translate va n kind = .error ⟨.unaligned, some va⟩) ∧
      (AlignedEnough s.config va n → (s.cr crRS).getLsbD 2 = false → s.translate va n kind = .ok va)) ∧
    (∀ x, s.translate va n .read = .error x → s.memRead va n = .error x) ∧
    (∀ pa, s.translate va n .read = .ok pa →
      (busRead s.config s.plat pa n = none → s.memRead va n = .error ⟨.buserror, some pa⟩) ∧
      (∀ w, busRead s.config s.plat pa n = some w → s.memRead va n = .ok w)) ∧
    (∀ x v, s.translate va n .write = .error x → s.memWrite va n v = .error x) ∧
    (∀ pa v, s.translate va n .write = .ok pa →
      (busWrite s.config s.plat pa n v = none → s.memWrite va n v = .error ⟨.buserror, some pa⟩) ∧
      (∀ p, busWrite s.config s.plat pa n v = some p → s.memWrite va n v = .ok p))

/-- The two-level walk with RS.MMU set (R110 to R115): the two table addresses, BUSERROR with the address of a table entry
that cannot be read, PAGEFAULT or PAGEWRITE with the virtual address for an invalid entry, and the physical address. -/
def Obligations.PageWalk : Prop :=
  ∀ (s : State) (va : Word) (n : Width) (kind : AccessKind),
    0x1000 ≤ va.toNat → va.toNat < 0xFFFFF000 → AlignedEnough s.config va n → (s.cr crRS).getLsbD 2 = true →
    let pdeAddr := BitVec.ofNat 32 ((s.cr crPGTB).toNat + va.toNat / 2 ^ 22 * 4)
    (busRead s.config s.plat pdeAddr .long = none →
      s.translate va n kind = .error ⟨.buserror, some pdeAddr⟩) ∧
    ∀ pde, busRead s.config s.plat pdeAddr .long = some pde →
      (pde.toNat % 2 = 0 →
        s.translate va n kind = .error ⟨if kind = .write then .pagewrite else .pagefault, some va⟩) ∧
      (pde.toNat % 2 = 1 →
        let pteAddr := BitVec.ofNat 32 (pde.toNat / 2 ^ 5 * 2 ^ 12 + va.toNat / 2 ^ 12 % 2 ^ 10 * 4)
        (busRead s.config s.plat pteAddr .long = none →
          s.translate va n kind = .error ⟨.buserror, some pteAddr⟩) ∧
        ∀ pte, busRead s.config s.plat pteAddr .long = some pte →
          (pte.toNat % 2 = 0 →
            s.translate va n kind = .error ⟨if kind = .write then .pagewrite else .pagefault, some va⟩) ∧
          (pte.toNat % 2 = 1 →
            s.translate va n kind =
              .ok (BitVec.ofNat 32 (pte.toNat / 2 ^ 5 % 2 ^ 20 * 2 ^ 12 + va.toNat % 2 ^ 12))))

/-- Unmapped areas (R82): areas 3 to 23 fail; areas 25 to 30, and 24 without a framebuffer, read 0 and ignore writes. The
unmapped offsets of area 31 below the ROM fail (R89, R99). A framebuffer, where there is one, reads its two documented
words (R88). -/
def Obligations.UnmappedAddresses : Prop :=
  ∀ (c : Config) (p : Platform) (pa : Word) (n : Width) (v : Word),
    let area := pa.toNat / 2 ^ 27
    let off := pa.toNat % 2 ^ 27
    (3 ≤ area ∧ area ≤ 23 → busRead c p pa n = none ∧ busWrite c p pa n v = none) ∧
    ((25 ≤ area ∧ area ≤ 30) ∨ (area = 24 ∧ c.fbPresent = false) →
      busRead c p pa n = some 0 ∧ busWrite c p pa n v = some p) ∧
    (area = 31 →
      (0x400 ≤ off ∧ off ≤ 0x7FF) ∨ (0x880 ≤ off ∧ off ≤ 0xFFF) ∨ (0x11000 ≤ off ∧ off ≤ 0x1FFFF) ∨
        (0x20200 ≤ off ∧ off ≤ 0x2FFFF) ∨ (0x30100 ≤ off ∧ off ≤ 0x7FFFFF) ∨ (0x800001 ≤ off ∧ off ≤ 0x7FDFFFF) →
      busRead c p pa n = none ∧ busWrite c p pa n v = none) ∧
    (c.fbPresent = true →
      busRead c p 0xC0000000 .long = some 0x0C007CA1 ∧ busRead c p 0xC0000004 .long = some 0x4B494E35)

/-- RAM, NVRAM and the disk buffer (R84, R85, R94, R95, R100): an access whole in its window reads and writes the bytes
there, lowest first, and what was written is read back; one that starts in a window and leaves it fails. The
RAM-descriptor page (R87): a write fails or changes nothing. A present framebuffer (R88): a write fails or changes framebuffer state only; its
slot-info bytes, SIZE and VRAM byte count read as documented, with height, width and count free values. That the string's
bytes follow the two longs, that every width reads these bytes, and that index k is the long at 0x3000 + 4k, are read from
R88 by inference (DEDUCED, log entry 17); that `FB` is a function of its accepted writes is the model's form (log entry
8). -/
def Obligations.ByteWindows : Prop :=
  ∀ (c : Config) (p : Platform) (pa : Word) (n : Width) (v : Word),
    (Writable c pa n →
      busRead c p pa n = some (BitVec.ofNat 32 (bytesValue p.mem pa n)) ∧
      (p.mem.wf = true → ∃ q, busWrite c p pa n v = some q ∧ BytesStored p q pa n v ∧ DevicesKept p q ∧
        q.mem.wf = true ∧ busRead c q pa n = some (BitVec.ofNat 32 (v.toNat % 2 ^ (8 * n.bytes))))) ∧
    ((pa.toNat < 0x10000000 ∧ c.ramSize < pa.toNat + n.bytes) ∨
        (0xF8001000 ≤ pa.toNat ∧ pa.toNat < 0xF8011000 ∧ 0xF8011000 < pa.toNat + n.bytes) ∨
        (0xF8020000 ≤ pa.toNat ∧ pa.toNat < 0xF8020200 ∧ 0xF8020200 < pa.toNat + n.bytes) →
      busRead c p pa n = none ∧ busWrite c p pa n v = none) ∧
    (pa.toNat / 2 ^ 27 = 2 → busWrite c p pa n v = none ∨ busWrite c p pa n v = some p) ∧
    (pa.toNat / 2 ^ 27 = 24 → c.fbPresent = true →
      busWrite c p pa n v = none ∨ ∃ q, busWrite c p pa n v = some q ∧ { q with fbWrites := p.fbWrites } = p) ∧
    (c.fbPresent = true →
      let info := [0xA1, 0x7C, 0x00, 0x0C, 0x35, 0x4E, 0x49, 0x4B,
        0x6B, 0x69, 0x6E, 0x6E, 0x6F, 0x77, 0x66, 0x62, 0x2C, 0x31, 0x36, 0x00]
      (∀ k, k < 20 → busRead c p (0xC0000000 + BitVec.ofNat 32 k) .byte = some (BitVec.ofNat 32 (info.getD k 0))) ∧
      (∀ k, k < 19 → busRead c p (0xC0000000 + BitVec.ofNat 32 k) .int =
        some (BitVec.ofNat 32 (info.getD k 0 + 2 ^ 8 * info.getD (k + 1) 0))) ∧
      (∀ k, k < 17 → busRead c p (0xC0000000 + BitVec.ofNat 32 k) .long =
        some (BitVec.ofNat 32 (info.getD k 0 + 2 ^ 8 * info.getD (k + 1) 0 + 2 ^ 16 * info.getD (k + 2) 0 +
          2 ^ 24 * info.getD (k + 3) 0))) ∧
      busRead c p 0xC0003000 .long = some (Config.fbHeight <<< 12 ||| Config.fbWidth) ∧
      busRead c p 0xC0003004 .long = some Config.fbVramBytes)

/-- The boot ROM (R97, R100): inside its length it reads its bytes, lowest first, and ignores writes; past it, it fails;
a machine's ROM is at most 0x20000 bytes. -/
def Obligations.RomWindow : Prop :=
  ∀ (c : Config) (p : Platform) (pa : Word) (n : Width) (v : Word), 0xFFFE0000 ≤ pa.toNat →
    (pa.toNat + n.bytes ≤ 0xFFFE0000 + c.romLen →
      busRead c p pa n = some (BitVec.ofNat 32 (bytesValue p.mem pa n)) ∧ busWrite c p pa n v = some p) ∧
    (0xFFFE0000 + c.romLen < pa.toNat + n.bytes → busRead c p pa n = none ∧ busWrite c p pa n v = none) ∧
    (c.wf = true → c.romLen ≤ 0x20000)

/-- The board registers (R93): register 0 is a constant that ignores writes, the others are storage, 0 after reset; any
access but an aligned long fails. -/
def Obligations.BoardRegisters : Prop :=
  ∀ (c : Config) (p : Platform) (v : Word),
    (∀ k : Fin 32, ∀ pa : Word, pa.toNat = 0xF8000800 + 4 * k.val →
      busRead c p pa .long = some (if k = 0 then 0x00030001 else p.boardRegs[k.val]) ∧
      ∃ q, busWrite c p pa .long v = some q ∧
        (∀ j : Fin 32, q.boardRegs[j.val] = if j = k ∧ k ≠ 0 then v else p.boardRegs[j.val]) ∧
        { q with boardRegs := p.boardRegs } = p) ∧
    (∀ (pa : Word) (n : Width), 0xF8000800 ≤ pa.toNat → pa.toNat ≤ 0xF800087F → n ≠ .long ∨ pa.toNat % 4 ≠ 0 →
      busRead c p pa n = none ∧ busWrite c p pa n v = none) ∧
    (∀ k : Fin 32, k ≠ 0 → State.reset.plat.boardRegs[k.val] = 0)

/-- The citron ports (R90 to R92): the port is offset / 4, a read gives its value's low bytes, a write hands it the low
bytes; the ports of R91 answer, every other port fails. -/
def Obligations.PortWindow : Prop :=
  ∀ (c : Config) (p : Platform) (pa : Word) (n : Width) (v : Word), 0xF8000000 ≤ pa.toNat → pa.toNat ≤ 0xF80003FF →
    let port := (pa.toNat - 0xF8000000) / 4
    let registered := [0x10, 0x11, 0x12, 0x13, 0x19, 0x1A, 0x1B, 0x20, 0x21, 0x30, 0x31, 0x32, 0x33, 0x34]
    busRead c p pa n = (portRead p port).map (fun w => BitVec.ofNat 32 (w.toNat % 2 ^ (8 * n.bytes))) ∧
    busWrite c p pa n v = portWrite c p port (BitVec.ofNat 32 (v.toNat % 2 ^ (8 * n.bytes))) ∧
    (busRead c p pa n ≠ none ↔ port ∈ registered) ∧
    (busWrite c p pa n v ≠ none ↔ port ∈ registered)

/-- The LSIC window (R96, R411, R412): registers 0 to 3 read and take whole words, register 4 claims and completes, every
other access fails; nothing behind the bus but the LSIC changes. -/
def Obligations.LsicWindow : Prop :=
  ∀ (c : Config) (p : Platform) (pa : Word) (n : Width) (v : Word), 0xF8030000 ≤ pa.toNat → pa.toNat ≤ 0xF80300FF →
    let k := (pa.toNat - 0xF8030000) / 4
    (n ≠ .long ∨ pa.toNat % 4 ≠ 0 ∨ 5 ≤ k → busRead c p pa n = none ∧ busWrite c p pa n v = none) ∧
    (n = .long → pa.toNat % 4 = 0 →
      (k = 0 → busRead c p pa n = some p.lsic.mask0 ∧
        busWrite c p pa n v = some { p with lsic := { p.lsic with mask0 := v } }) ∧
      (k = 1 → busRead c p pa n = some p.lsic.mask1 ∧
        busWrite c p pa n v = some { p with lsic := { p.lsic with mask1 := v } }) ∧
      (k = 2 → busRead c p pa n = some p.lsic.pend0 ∧
        busWrite c p pa n v = some { p with lsic := { p.lsic with pend0 := v } }) ∧
      (k = 3 → busRead c p pa n = some p.lsic.pend1 ∧
        busWrite c p pa n v = some { p with lsic := { p.lsic with pend1 := v } }) ∧
      (k = 4 → busRead c p pa n = some (BitVec.ofNat 32 p.lsic.claim) ∧
        busWrite c p pa n v = some { p with lsic := p.lsic.complete v }))

/-- The reset trigger (R98, R101, R502): the long 0xAABB_CCDD resets the LSIC and every port device and leaves memory, the
board registers, the disk images and the bytes already emitted; any other long is ignored; any other access fails. That
the bytes a UART already emitted (DEDUCED, log entry 14), the model's own count of clock reads (DESIGN CHOICE, log entry 6)
and its list of framebuffer writes (DESIGN CHOICE, log entry 8) are kept is the model's choice. -/
def Obligations.BoardReset : Prop :=
  ∀ (c : Config) (p : Platform) (n : Width) (v : Word),
    (∃ q, busWrite c p 0xF8800000 .long 0xAABBCCDD = some q ∧ BytesKept p q ∧
      q.boardRegs = p.boardRegs ∧ q.fbWrites = p.fbWrites ∧ q.hostReads = p.hostReads ∧
      q.lsic = ⟨0, 0, 0, 0⟩ ∧
      q.disk = ⟨p.disk.images, none, 0, 0, 0, 0, false⟩ ∧
      q.uart0 = ⟨0, 0xFFFF, false, p.uart0.output⟩ ∧ q.uart1 = ⟨0, 0xFFFF, false, p.uart1.output⟩ ∧
      q.rtc = ⟨0, 0, none, 0⟩ ∧
      q.hub.selected = 0 ∧ (∀ d : Fin 16, q.hub.lines[d.val] = 0) ∧ q.hub.portA = 0 ∧ q.hub.portB = 0 ∧
      (∀ k : Fin 86, q.kbd.isPressed[k.val] = false ∧ q.kbd.outstandingPress[k.val] = false ∧
        q.kbd.outstandingRelease[k.val] = false) ∧
      q.kbd.portA = 0 ∧ q.kbd.portB = 0) ∧
    (v ≠ 0xAABBCCDD → busWrite c p 0xF8800000 .long v = some p) ∧
    (n ≠ .long → busWrite c p 0xF8800000 n v = none) ∧
    busRead c p 0xF8800000 n = none

/-! ### Control transfer (spec 42_control.md) -/

/-- J, JAL, JALR (R281 to R283): to the field times 4 in the bank of pc0; to the old x[rA] plus 4 times the signed
immediate; JAL links pc0 + 4 in R31, JALR in rD (nowhere where rD is R0); nothing else changes. -/
def Obligations.Jumps : Prop :=
  ∀ (s : State) (target : BitVec 29) (rD rA : RegIdx) (imm : BitVec 16),
    (∃ t, exec (.j target) s = .next t ∧
      WentTo s t (BitVec.ofNat 32 (s.cpu.pc.toNat / 2 ^ 31 * 2 ^ 31 + 4 * target.toNat))) ∧
    (∃ t, exec (.jal target) s = .next t ∧
      WroteReg s t 31 (s.cpu.pc + 4) (BitVec.ofNat 32 (s.cpu.pc.toNat / 2 ^ 31 * 2 ^ 31 + 4 * target.toNat))) ∧
    (∃ t, exec (.jalr rD rA imm) s = .next t ∧
      WroteReg s t rD (s.cpu.pc + 4) (BitVec.ofInt 32 ((s.reg rA).toNat + 4 * imm.toInt))) ∧
    ∀ e : Encoding, encode e (.j target) = target ++ (0b110 : BitVec 3) ∧
      encode e (.jal target) = target ++ (0b111 : BitVec 3) ∧ encode e (.jalr rD rA imm) = imm ++ rA ++ rD ++ e.jalr

/-- BEQ, BNE, BLT (R280, R284 to R286): to pc0 plus 4 times the signed displacement where x[rD] is zero, is not zero, is
negative; else to pc0 + 4; nothing else changes. -/
def Obligations.Branches : Prop :=
  ∀ (s : State) (rD : RegIdx) (disp : BitVec 21),
    let target := BitVec.ofInt 32 (s.cpu.pc.toNat + 4 * disp.toInt)
    (∃ t, exec (.beq rD disp) s = .next t ∧ WentTo s t (if s.reg rD = 0 then target else s.cpu.pc + 4)) ∧
    (∃ t, exec (.bne rD disp) s = .next t ∧ WentTo s t (if s.reg rD = 0 then s.cpu.pc + 4 else target)) ∧
    (∃ t, exec (.blt rD disp) s = .next t ∧ WentTo s t (if (s.reg rD).toInt < 0 then target else s.cpu.pc + 4)) ∧
    ∀ e : Encoding, encode e (.beq rD disp) = disp ++ rD ++ e.beq ∧ encode e (.bne rD disp) = disp ++ rD ++ e.bne ∧
      encode e (.blt rD disp) = disp ++ rD ++ e.blt

/-! ### System and privileged instructions (spec 43_system.md) -/

/-- SYS and BRK in both modes, FWC in kernel mode (R301 to R304): the call trap is latched, whatever is pending, with pc at
pc0 + 4 or, where `EPC_CALLTRAP` is this, at pc0; nothing else changes. FWC in user mode raises INVPRVG; only the
function code and the group of their words matter (SYS and BRK in group 0x31; `DecodeReadsExactlyTheFormat` says their
words in group 0x39). -/
def Obligations.CallTraps : Prop :=
  ∀ s : State,
    let pc := if s.config.epcCallTrap = .next then s.cpu.pc + 4 else s.cpu.pc
    (∃ t, exec .sys s = .next t ∧ Trapped s t .syscall none pc) ∧
    (∃ t, exec .brk s = .next t ∧ Trapped s t .brkpoint none pc) ∧
    ((s.cr crRS).getLsbD 0 = false → ∃ t, exec .fwc s = .next t ∧ Trapped s t .fwcall none pc) ∧
    ((s.cr crRS).getLsbD 0 = true → s.cpu.excPending = none →
      ∃ t, exec .fwc s = .next t ∧ Trapped s t .invprvg none s.cpu.pc) ∧
    ∀ e : Encoding, ∀ k : BitVec 22,
      (e.sys.group = .grp →
        encode e .sys &&& 0xF000003F = (e.sys.funct ++ k ++ (0b110001 : BitVec 6)) &&& 0xF000003F) ∧
      (e.brk.group = .grp →
        encode e .brk &&& 0xF000003F = (e.brk.funct ++ k ++ (0b110001 : BitVec 6)) &&& 0xF000003F) ∧
      encode e .fwc &&& 0xF000003F = (e.fwc ++ k ++ (0b101001 : BitVec 6)) &&& 0xF000003F

/-- RFE (R305, R445): in kernel mode pc from EPC, RS whole from ERS, the LL/SC flag cleared, nothing else; in user mode
INVPRVG. -/
def Obligations.ReturnFromException : Prop :=
  ∀ s : State,
    ((s.cr crRS).getLsbD 0 = false → ∃ t, exec .rfe s = .next t ∧
      CpuAfter s t s.reg (s.cr crEPC) (s.crsWith crRS (s.cr crERS)) s.cpu.excPending false s.cpu.halted ∧
      BytesKept s.plat t.plat ∧ DevicesKept s.plat t.plat) ∧
    ((s.cr crRS).getLsbD 0 = true → s.cpu.excPending = none →
      ∃ t, exec .rfe s = .next t ∧ Trapped s t .invprvg none s.cpu.pc) ∧
    ∀ e : Encoding, ∀ k : BitVec 22,
      encode e .rfe &&& 0xF000003F = (e.rfe ++ k ++ (0b101001 : BitVec 6)) &&& 0xF000003F

/-- HLT, FTLB and MTCR (R306 to R308): in kernel mode the halt latch; nothing; the control register, whole, whatever its
index; and pc0 + 4; in user mode INVPRVG. -/
def Obligations.HaltFlushAndMoveToControl : Prop :=
  ∀ (s : State) (c : CrIdx) (rA : RegIdx),
    ((s.cr crRS).getLsbD 0 = false →
      (∃ t, exec .hlt s = .next t ∧
        CpuAfter s t s.reg (s.cpu.pc + 4) s.cr s.cpu.excPending s.cpu.locked true ∧
        BytesKept s.plat t.plat ∧ DevicesKept s.plat t.plat) ∧
      (∃ t, exec .ftlb s = .next t ∧ WentTo s t (s.cpu.pc + 4)) ∧
      (∃ t, exec (.mtcr c rA) s = .next t ∧
        CpuAfter s t s.reg (s.cpu.pc + 4) (s.crsWith c (s.reg rA)) s.cpu.excPending s.cpu.locked s.cpu.halted ∧
        BytesKept s.plat t.plat ∧ DevicesKept s.plat t.plat)) ∧
    ((s.cr crRS).getLsbD 0 = true → s.cpu.excPending = none →
      (∃ t, exec .hlt s = .next t ∧ Trapped s t .invprvg none s.cpu.pc) ∧
      (∃ t, exec .ftlb s = .next t ∧ Trapped s t .invprvg none s.cpu.pc) ∧
      (∃ t, exec (.mtcr c rA) s = .next t ∧ Trapped s t .invprvg none s.cpu.pc)) ∧
    ∀ e : Encoding, ∀ (k : BitVec 22) (k7 : BitVec 7) (k5 : BitVec 5),
      encode e .hlt &&& 0xF000003F = (e.hlt ++ k ++ (0b101001 : BitVec 6)) &&& 0xF000003F ∧
      encode e .ftlb &&& 0xF000003F = (e.ftlb ++ k ++ (0b101001 : BitVec 6)) &&& 0xF000003F ∧
      encode e (.mtcr c rA) &&& 0xF01FF83F = (e.mtcr ++ k7 ++ c ++ rA ++ k5 ++ (0b101001 : BitVec 6)) &&& 0xF01FF83F

/-- MFCR (R32, R309): in kernel mode the control register to rD; to R0 where `MFCR_R0_VISIBLE`, else discarded; nothing
else changes; in user mode INVPRVG. -/
def Obligations.MoveFromControl : Prop :=
  ∀ (s : State) (rD : RegIdx) (c : CrIdx),
    ((s.cr crRS).getLsbD 0 = false → ∃ t, exec (.mfcr rD c) s = .next t ∧
      CpuAfter s t (fun i => if i = rD ∧ (rD ≠ 0 ∨ s.config.mfcrR0Visible = true) then s.cr c else s.reg i)
        (s.cpu.pc + 4) s.cr s.cpu.excPending s.cpu.locked s.cpu.halted ∧
      BytesKept s.plat t.plat ∧ DevicesKept s.plat t.plat) ∧
    ((s.cr crRS).getLsbD 0 = true → s.cpu.excPending = none →
      ∃ t, exec (.mfcr rD c) s = .next t ∧ Trapped s t .invprvg none s.cpu.pc) ∧
    ∀ e : Encoding, ∀ (k7 : BitVec 7) (k5 : BitVec 5),
      encode e (.mfcr rD c) &&& 0xF01F07FF = (e.mfcr ++ k7 ++ c ++ k5 ++ rD ++ (0b101001 : BitVec 6)) &&& 0xF01F07FF

/-- Every instruction of the privileged group raises INVPRVG in user mode, with pc at itself and no bad address, and does
nothing else (R300, R431, R450). -/
def Obligations.PrivilegedInUserMode : Prop :=
  ∀ (s : State) (i : Instr), privileged i = true → (s.cr crRS).getLsbD 0 = true → s.cpu.excPending = none →
    ∃ t, exec i s = .next t ∧ Trapped s t .invprvg none s.cpu.pc

/-! ### Exceptions (spec 60_exceptions.md) -/

/-- Raising (R430, R431): a non-recoverable exception while one is pending sets the fatal mark and nothing else; any other
raise latches the exception, records its bad address and sets pc by the EPC policy. That the fatal raise answers a state
with the mark set and all else kept is the model's choice (DEDUCED, log entry 12). -/
def Obligations.RaiseLatches : Prop :=
  ∀ (s : State) (x : Raised),
    (s.cpu.excPending ≠ none → x.exc ≠ .interrupt → x.exc ≠ .syscall → x.exc ≠ .fwcall → x.exc ≠ .brkpoint →
      s.raise x = { s with fatal := true }) ∧
    (s.cpu.excPending = none ∨ x.exc = .interrupt ∨ x.exc = .syscall ∨ x.exc = .fwcall ∨ x.exc = .brkpoint →
      Trapped s (s.raise x) x.exc x.badAddr
        (if (x.exc = .syscall ∨ x.exc = .brkpoint ∨ x.exc = .fwcall) ∧ s.config.epcCallTrap = .next
          then s.cpu.pc + 4 else s.cpu.pc))

/-- When a step delivers (R440, R416): an exception is pending, or RS.INT is set and some vector is pending and unmasked.
Else the delivery check changes nothing. -/
def Obligations.DeliveryCondition : Prop :=
  ∀ s : State,
    (s.deliverable = true ↔
      s.cpu.excPending ≠ none ∨
        ((s.cr crRS).getLsbD 1 = true ∧
          ∃ k, k < 32 ∧ ((s.plat.lsic.pend0.getLsbD k = true ∧ s.plat.lsic.mask0.getLsbD k = false) ∨
            (s.plat.lsic.pend1.getLsbD k = true ∧ s.plat.lsic.mask1.getLsbD k = false)))) ∧
    (s.deliverable = false → s.deliver = s)

/-- Delivery through a nonzero vector (R400, R441, R442): EPC, ECAUSE and ERS saved; USER and INT cleared, MMU too for
FWCALL or where TMMU is set; pc at FWVEC for FWCALL, else EVEC; the exception, where one is pending, before the
interrupt; nothing else in the CPU and nothing behind the bus changes. -/
def Obligations.DeliverySavesAndEnters : Prop :=
  ∀ s : State, s.deliverable = true →
    let vector := if s.cpu.excPending = some .fwcall then s.cr crFWVEC else s.cr crEVEC
    let cause : Word := match s.cpu.excPending with
      | none => 1 | some .interrupt => 1 | some .syscall => 2 | some .fwcall => 3 | some .buserror => 4
      | some .brkpoint => 6 | some .invinst => 7 | some .invprvg => 8 | some .unaligned => 9
      | some .pagefault => 12 | some .pagewrite => 13
    let rs := (s.cr crRS).toNat
    let rs' := if s.cpu.excPending = some .fwcall ∨ rs / 2 ^ 7 % 2 = 1 then rs / 8 * 8 else rs / 4 * 4
    vector ≠ 0 →
      CpuAfter s s.deliver s.reg vector
        (fun c => if c = crEPC then s.cpu.pc else if c = crECAUSE then cause else if c = crERS then s.cr crRS
          else if c = crRS then BitVec.ofNat 32 rs' else s.cr c)
        none s.cpu.locked s.cpu.halted ∧
      BytesKept s.plat s.deliver.plat ∧ DevicesKept s.plat s.deliver.plat

/-- Delivery through vector 0 is the CPU reset (R443, R501): it sets pc, RS, EVEC, CPUID, FWVEC, the latches and the R0
cell, saves nothing and changes nothing else. -/
def Obligations.VectorZeroResetsTheCpu : Prop :=
  ∀ s : State, s.deliverable = true →
    (if s.cpu.excPending = some .fwcall then s.cr crFWVEC else s.cr crEVEC) = 0 →
      CpuAfter s s.deliver (fun i => if i = 0 then 0 else s.reg i) 0xFFFE0000
        (fun c => if c = crRS then 0 else if c = crEVEC then 0 else if c = crCPUID then 0x80060000
          else if c = crFWVEC then 0 else s.cr c)
        none false false ∧
      BytesKept s.plat s.deliver.plat ∧ DevicesKept s.plat s.deliver.plat

/-- Exceptions are precise (R430 to R432): an instruction that leaves an exception latched has written no general
register, no control register but EBADADDR (and that only for the four codes that record an address), no memory, no
device; of the latches only LL's flag; its pc is its own address, or the next one for a call trap. -/
def Obligations.PreciseExceptions : Prop :=
  ∀ (i : Instr) (s t : State) (x : Exc), s.cpu.excPending = none → exec i s = .next t →
    t.cpu.excPending = some x →
      (∀ r, t.reg r = s.reg r) ∧
      (∀ c, c ≠ crEBADADDR → t.cr c = s.cr c) ∧
      (x ≠ .buserror → x ≠ .unaligned → x ≠ .pagefault → x ≠ .pagewrite → t.cr crEBADADDR = s.cr crEBADADDR) ∧
      BytesKept s.plat t.plat ∧ DevicesKept s.plat t.plat ∧
      ((∀ rD rA, i ≠ .ll rD rA) → t.cpu.locked = s.cpu.locked) ∧
      t.cpu.halted = s.cpu.halted ∧ t.config = s.config ∧ t.fatal = s.fatal ∧ t.schedule = s.schedule ∧
      t.cpu.pc = if (x = .syscall ∨ x = .brkpoint ∨ x = .fwcall) ∧ s.config.epcCallTrap = .next
        then s.cpu.pc + 4 else s.cpu.pc

/-- A step in user mode that delivers nothing changes no control register but EBADADDR, so it stays in user mode, and does
not halt (R450, R452). That the host's calls come from a schedule in the state is the model's form (log entry 10). -/
def Obligations.UserModeKeepsControl : Prop :=
  ∀ s t : State, (s.cr crRS).getLsbD 0 = true → s.hostCalls.deliverable = false → step s = .next t →
    (∀ c, c ≠ crEBADADDR → t.cr c = s.cr c) ∧ t.cpu.halted = s.cpu.halted

/-- Only MFCR into R0, in kernel mode and where `MFCR_R0_VISIBLE`, changes what R0 reads (R31, R32). -/
def Obligations.OnlyMfcrChangesRegisterZero : Prop :=
  ∀ (i : Instr) (s t : State), exec i s = .next t → t.reg 0 ≠ s.reg 0 →
    s.config.mfcrR0Visible = true ∧ (s.cr crRS).getLsbD 0 = false ∧ ∃ c, i = .mfcr 0 c ∧ t.reg 0 = s.cr c

/-! ### The step -/

/-- A step runs the decoded instruction (R420, R421): the host's calls, the delivery check, then the meaning of the
instruction whose word, or whose four bytes in RAM, NVRAM, the disk buffer or ROM, stand at pc. That the host's calls come
from a schedule in the state is the model's form (log entry 10). -/
def Obligations.StepRunsDecodedInstruction : Prop :=
  ∀ (s : State) (i : Instr), s.fatal = false → s.cpu.halted = false →
    let u := s.hostCalls.deliver
    (∀ w, u.memRead u.cpu.pc .long = .ok w → decode s.config.enc w = .ok i → step s = exec i u) ∧
    (∀ pa : Word, u.translate u.cpu.pc .long .read = .ok pa → Readable s.config pa .long →
      decodeBytes s.config.enc [u.plat.mem.read pa.toNat, u.plat.mem.read (pa.toNat + 1),
        u.plat.mem.read (pa.toNat + 2), u.plat.mem.read (pa.toNat + 3)] = .ok (i, []) → step s = exec i u) ∧
    u.cpu.excPending = none ∧ u.config = s.config ∧ u.schedule = s.schedule.tail

/-- A step that decodes nothing (R125, R170, R300): a fetch that raises latches its exception; an undecoded word raises
INVPRVG where it is of group 0x29 in user mode, else INVINST; pc stays at the word and nothing else changes. That the
host's calls come from a schedule in the state is the model's form (log entry 10). -/
def Obligations.StepWithoutInstruction : Prop :=
  ∀ s : State, s.fatal = false → s.cpu.halted = false →
    let u := s.hostCalls.deliver
    (∀ x, u.memRead u.cpu.pc .long = .error x → ∃ t, step s = .next t ∧ Trapped u t x.exc x.badAddr u.cpu.pc) ∧
    (∀ w, u.memRead u.cpu.pc .long = .ok w → (∀ i, decode s.config.enc w ≠ .ok i) → ∃ t, step s = .next t ∧
      Trapped u t (if w.toNat % 64 = 0x29 ∧ (u.cr crRS).getLsbD 0 = true then .invprvg else .invinst) none u.cpu.pc)

/-- A halted CPU takes no step (R460): the host's calls are made, the CPU, the parameters and every byte of memory stay.
That `step` of a halted state is a next state with the host's calls made is the model's choice (DEDUCED, log entry 18), as
is the schedule they come from (log entry 10). -/
def Obligations.HaltedCpuStays : Prop :=
  ∀ s : State, s.fatal = false → s.cpu.halted = true →
    step s = .next s.hostCalls ∧ s.hostCalls.cpu = s.cpu ∧ s.hostCalls.config = s.config ∧
      s.hostCalls.fatal = false ∧ s.hostCalls.schedule = s.schedule.tail ∧ BytesKept s.plat s.hostCalls.plat

/-- The fatal state is the only stop, and no step reaches it (R430, R434): a fatal machine faults; every other step answers
a next state that is not fatal. That the step of a marked state is the fault (DEDUCED, log entry 12), and that the step of
a halted state answers a next state (DEDUCED, log entry 18), are the model's choice. -/
def Obligations.FatalIsTheOnlyStop : Prop :=
  ∀ s : State,
    (s.fatal = true → step s = .fault .nestedException) ∧
    (s.fatal = false → ∃ t, step s = .next t ∧ t.fatal = false)

/-- What is configuration stays (R51, R97): the parameters, the bytes of the ROM window, the number and the lengths of the
disk images. That the state carries the parameters is the model's form (log entry 11). -/
def Obligations.ConfigurationNeverChanges : Prop :=
  ∀ s t : State, s.plat.mem.wf = true → step s = .next t →
    t.config = s.config ∧ (∀ a, 0xFFFE0000 ≤ a → t.plat.mem.read a = s.plat.mem.read a) ∧
      t.plat.disk.images.map DiskImage.size = s.plat.disk.images.map DiskImage.size

/-- Every step keeps the machine's invariants (`State.Wf`): canonical memory and disk images, at most 8 of them, a selected
drive that exists, interrupt lines of their slots, no key with code 0, the R0 cell where MFCR cannot write it, no fatal
mark (R9, R32, R417, R430, R469, R477). -/
def Obligations.StepKeepsTheInvariants : Prop :=
  ∀ s t : State, s.Wf → step s = .next t → t.Wf

/-! ### Reset (spec 70_reset_and_hazards.md) -/

/-- The state after reset has the invariants, and it is the power-on state of the parameters `defaultConfig` with an empty
ROM, no RAM or NVRAM contents listed and no disk. That this machine is the one, and the registers the spec leaves
unspecified, are the model's choice (log entries 1, 2, 4, 5). -/
def Obligations.ResetHasTheInvariants : Prop :=
  State.reset.Wf ∧ State.construct ⟨defaultConfig, [], [], [], []⟩ = .next State.reset

/-- The power-on state of every construction in bounds (R500, R505), and the refusal of one out of bounds (R495): the
values R505 states, and the bytes of ROM, RAM, NVRAM and disk buffer. -/
def Obligations.PowerOnState : Prop :=
  ∀ k : Construction,
    (k.allowed = false → State.construct k = .refused .notAMachine) ∧
    (k.allowed = true → ∃ s, State.construct k = .next s ∧
      s.config = { k.config with romLen := k.rom.length } ∧
      s.reg 0 = 0 ∧ s.cpu.pc = 0xFFFE0000 ∧ s.cr crRS = 0 ∧ s.cr crEVEC = 0 ∧ s.cr crCPUID = 0x80060000 ∧
      s.cr crFWVEC = 0 ∧ s.cpu.excPending = none ∧ s.cpu.locked = false ∧ s.cpu.halted = false ∧ s.fatal = false ∧
      (∀ a, a < k.config.ramSize → s.plat.mem.read a = k.ramInit.read a) ∧
      (∀ j, j < k.nvramInit.length → k.nvramInit[j]? = some (s.plat.mem.read (0xF8001000 + j))) ∧
      (∀ j, j < k.rom.length → k.rom[j]? = some (s.plat.mem.read (0xFFFE0000 + j))) ∧
      (∀ j, j < 512 → s.plat.mem.read (0xF8020000 + j) = 0) ∧
      (∀ j : Fin 32, s.plat.boardRegs[j.val] = 0) ∧ s.plat.lsic = ⟨0, 0, 0, 0⟩ ∧
      s.plat.disk = ⟨k.disks, none, 0, 0, 0, 0, false⟩ ∧
      s.plat.uart0 = ⟨0, 0xFFFF, false, []⟩ ∧ s.plat.uart1 = ⟨0, 0xFFFF, false, []⟩ ∧
      s.plat.rtc = ⟨0, 0, none, 0⟩ ∧
      s.plat.hub.selected = 0 ∧ (∀ d : Fin 16, s.plat.hub.lines[d.val] = 0) ∧ s.plat.hub.portA = 0 ∧
      s.plat.hub.portB = 0 ∧
      (∀ c : Fin 86, s.plat.kbd.isPressed[c.val] = false ∧ s.plat.kbd.outstandingPress[c.val] = false ∧
        s.plat.kbd.outstandingRelease[c.val] = false) ∧
      s.plat.kbd.portA = 0 ∧ s.plat.kbd.portB = 0 ∧ s.Wf)

/-! ### The interrupt controller and the devices (spec 60_exceptions.md sections 2, 8, 9) -/

/-- The LSIC's arbiter (R410, R413 to R416), with MASK(v) and PEND(v) as bits of the two words each: a claim is the lowest
pending unmasked vector of 1..63, or 0; complete clears one pending bit, raise sets one; the masks stay; the signal is
some pending unmasked bit, bit 0 included. -/
def Obligations.LsicArbiter : Prop :=
  ∀ l : Lsic,
    let pend := fun (l : Lsic) (v : Nat) => (l.pend1 ++ l.pend0).getLsbD v
    let mask := fun (l : Lsic) (v : Nat) => (l.mask1 ++ l.mask0).getLsbD v
    (l.claim = 0 ↔ ∀ v, 1 ≤ v → v ≤ 63 → ¬ (pend l v = true ∧ mask l v = false)) ∧
    (l.claim ≠ 0 → 1 ≤ l.claim ∧ l.claim ≤ 63 ∧ pend l l.claim = true ∧ mask l l.claim = false ∧
      ∀ v, 1 ≤ v → v < l.claim → ¬ (pend l v = true ∧ mask l v = false)) ∧
    (∀ (c : Word) (v : Nat), v < 64 →
      pend (l.complete c) v = (pend l v && decide (v ≠ c.toNat)) ∧ mask (l.complete c) v = mask l v) ∧
    (∀ r v : Nat, v < 64 →
      pend (l.raise r) v = (pend l v || decide (v = r ∧ r ≠ 0)) ∧ mask (l.raise r) v = mask l v) ∧
    (l.signal = true ↔ ∃ v, v < 64 ∧ pend l v = true ∧ mask l v = false)

/-- The disk's block commands (R471, R472, R475, W5): read copies the block port_a of the selected image into the buffer,
write copies the buffer into the block, each notes (0, port_a) and raises vector 3 where interrupts are enabled; nothing
else changes; with no drive or no such block nothing happens; a block written is read back. -/
def Obligations.DiskBlockCommands : Prop :=
  ∀ (c : Config) (p : Platform), p.mem.wf = true →
    ((∀ i img, p.disk.selected = some i → p.disk.images[i]? = some img → img.size / 512 ≤ p.disk.portA.toNat) →
      portWrite c p 0x19 2 = some p ∧ portWrite c p 0x19 3 = some p) ∧
    (∀ i img, p.disk.selected = some i → p.disk.images[i]? = some img → p.disk.portA.toNat < img.size / 512 →
      img.bytes.wf = true →
      let lsic := if p.disk.irqEnabled = true then { p.lsic with pend0 := p.lsic.pend0 ||| 8 } else p.lsic
      let block := 512 * p.disk.portA.toNat
      (∃ q, portWrite c p 0x19 2 = some q ∧
        (∀ k, k < 512 → q.mem.read (0xF8020000 + k) = img.bytes.read (block + k)) ∧
        (∀ a, ¬ InDiskBuffer a → q.mem.read a = p.mem.read a) ∧
        { q with mem := p.mem } =
          { p with lsic := lsic, disk := { p.disk with lastWhat := 0, lastDetails := p.disk.portA } }) ∧
      (∃ q img', portWrite c p 0x19 3 = some q ∧ BytesKept p q ∧
        img'.size = img.size ∧
        (∀ k, k < 512 → img'.bytes.read (block + k) = p.mem.read (0xF8020000 + k)) ∧
        (∀ a, ¬ (block ≤ a ∧ a < block + 512) → img'.bytes.read a = img.bytes.read a) ∧
        { q with mem := p.mem } =
          { p with
            lsic := lsic
            disk := { p.disk with
              images := p.disk.images.set i img', lastWhat := 0, lastDetails := p.disk.portA } } ∧
        ∃ r, portWrite c q 0x19 2 = some r ∧ BytesKept p r))

/-- The disk's ports and its other commands (R470, R471): port 0x19 reads 0, ports 0x1A and 0x1B read and write port_a and
port_b and nothing else; select, read info, drive size (of the drive port_a named), interrupts on and off; any other value
does nothing. A block count of 2^32 or more does not fit port_b, and what the command then puts there is a free value,
of which nothing is said (DESIGN CHOICE, log entry 20). -/
def Obligations.DiskOtherCommands : Prop :=
  ∀ (c : Config) (p : Platform) (v : Word),
    portRead p 0x19 = some 0 ∧ portRead p 0x1A = some p.disk.portA ∧ portRead p 0x1B = some p.disk.portB ∧
    portWrite c p 0x1A v = some { p with disk := { p.disk with portA := v } } ∧
    portWrite c p 0x1B v = some { p with disk := { p.disk with portB := v } } ∧
    (v = 1 → portWrite c p 0x19 v = some { p with disk := { p.disk with
      selected := if p.disk.portA.toNat < p.disk.images.length then some p.disk.portA.toNat else none } }) ∧
    (v = 4 → portWrite c p 0x19 v =
      some { p with disk := { p.disk with portA := p.disk.lastWhat, portB := p.disk.lastDetails } }) ∧
    (v = 5 → ∃ q, portWrite c p 0x19 v = some q ∧
      { q with disk := { q.disk with portA := p.disk.portA, portB := p.disk.portB } } = p ∧
      (∀ img, p.disk.images[p.disk.portA.toNat]? = some img →
        q.disk.portA = 1 ∧ (img.size / 512 < 2 ^ 32 → q.disk.portB = BitVec.ofNat 32 (img.size / 512))) ∧
      (p.disk.images.length ≤ p.disk.portA.toNat → q.disk.portA = 0 ∧ q.disk.portB = 0)) ∧
    (v = 6 → portWrite c p 0x19 v = some { p with disk := { p.disk with irqEnabled := true } }) ∧
    (v = 7 → portWrite c p 0x19 v = some { p with disk := { p.disk with irqEnabled := false } }) ∧
    (v = 0 ∨ 8 ≤ v.toNat → portWrite c p 0x19 v = some p)

/-- Each UART (R480, R481, R493): WRITE appends the data register's low byte to its output, READ moves the latch to the
data register and empties it, 3 and 4 set and clear the enable; the data port is the data register; a received character
replaces the latch and raises the vector of `UART_IRQ`, where there is one and the enable is set. The other UART is not
touched. That `UART_IRQ` (R482, OPEN) is one vector for both UARTs is the model's choice (DESIGN CHOICE, log entry 14). -/
def Obligations.UartCommands : Prop :=
  ∀ (c : Config) (p : Platform) (n : UartId) (v : Word) (b : Byte),
    let port := match n with | .uart0 => 0x10 | .uart1 => 0x12
    let u := p.uart n
    portRead p port = some 0 ∧ portRead p (port + 1) = some u.data ∧
    (∃ q, portWrite c p (port + 1) v = some q ∧ q = p.setUart n { u with data := v }) ∧
    (∃ q, portWrite c p port v = some q ∧
      q = p.setUart n (if v = 1 then { u with output := u.output ++ [BitVec.ofNat 8 u.data.toNat] }
        else if v = 2 then { u with data := u.lastData, lastData := 0xFFFF }
        else if v = 3 then { u with irqEnabled := true }
        else if v = 4 then { u with irqEnabled := false } else u)) ∧
    (c.uartIrq = none →
      p.hostEvent c (.uartReceive n b) = p.setUart n { u with lastData := BitVec.ofNat 32 b.toNat }) ∧
    (∀ w, c.uartIrq = some w → p.hostEvent c (.uartReceive n b) =
      { p.setUart n { u with lastData := BitVec.ofNat 32 b.toNat } with
        lsic := if u.irqEnabled = true then p.lsic.raise w else p.lsic }) ∧
    (∀ m u', (p.setUart n u').uart m = if m = n then u' else p.uart m)

/-- The RTC's tick (R491): an overridden clock moves on; with an interval set the accumulator takes the time, and where it
reaches the interval one interval is taken off and vector 1 raised, once; nothing else changes. -/
def Obligations.RtcTick : Prop :=
  ∀ (c : Config) (p : Platform) (ms : Nat),
    let r := p.rtc
    let moved := r.override.map (fun t => t + ms)
    (r.interval = 0 → p.hostEvent c (.rtcTick ms) = { p with rtc := { r with override := moved } }) ∧
    (r.interval ≠ 0 → r.acc + ms < r.interval.toNat →
      p.hostEvent c (.rtcTick ms) = { p with rtc := { r with override := moved, acc := r.acc + ms } }) ∧
    (r.interval ≠ 0 → r.interval.toNat ≤ r.acc + ms →
      p.hostEvent c (.rtcTick ms) =
        { p with
          rtc := { r with override := moved, acc := r.acc + ms - r.interval.toNat }
          lsic := { p.lsic with pend0 := p.lsic.pend0 ||| 2 } })

/-- The RTC's ports and commands (R484, R485): port 0x20 reads 0, port 0x21 is the data register; interval, seconds,
milliseconds, and the two overrides, in both modes, with NOW the overridden clock T or, while the clock is not overridden,
the host clock; any other value does nothing. Each command that reads NOW from the host draws anew: that the draws are a
free value of a count of reads, a field of the model's own, is the model's form (log entry 6). -/
def Obligations.RtcCommands : Prop :=
  ∀ (c : Config) (p : Platform) (v : Word),
    let r := p.rtc
    let now := match r.override with
      | some t => t
      | none => Config.hostClock p.hostReads
    let readsNow := v = 2 ∨ v = 3 ∨ v = 4 ∨ (v = 5 ∧ c.rtcMsMode = .subsecond)
    portRead p 0x20 = some 0 ∧ portRead p 0x21 = some r.data ∧
    portWrite c p 0x21 v = some { p with rtc := { r with data := v } } ∧
    ∃ q, portWrite c p 0x20 v = some q ∧ { q with rtc := r, hostReads := p.hostReads } = p ∧
      (q.hostReads = if r.override = none ∧ readsNow then p.hostReads + 1 else p.hostReads) ∧
      q.rtc =
        (if v = 1 then { r with interval := r.data }
        else if v = 2 then { r with data := BitVec.ofNat 32 (now / 1000) }
        else if v = 3 then
          { r with data := if c.rtcMsMode = .subsecond then BitVec.ofNat 32 (now % 1000) else BitVec.ofNat 32 now }
        else if v = 4 then { r with override := some (r.data.toNat * 1000 + now % 1000) }
        else if v = 5 then
          { r with override := some (if c.rtcMsMode = .subsecond then now - now % 1000 + r.data.toNat % 1000
              else r.data.toNat) }
        else r)

/-- The keyboard's actions (R478, R487, R489), written to hub port 0x32 with slot 1 selected. 1, next event, in either scan
order: with nothing outstanding port_a becomes 0xFFFF; else the code the scan meets first, with bit 15 for a release,
which also drops that key's press; the other keys stay. 2, reset: every key, port_a and port_b cleared, the interrupt
lines kept. 3, is-down: port_a becomes 1 or 0 where it is at most 85. Any other value does nothing. Nothing but the
keyboard changes. -/
def Obligations.KeyboardNextEvent : Prop :=
  ∀ (c : Config) (p : Platform) (v : Word), p.hub.selected.toNat = 1 →
    let k := p.kbd
    let out := fun (i : Fin 86) => k.outstandingRelease[i.val] = true ∨ k.outstandingPress[i.val] = true
    (∃ q, portWrite c p 0x32 1 = some q ∧ { q with kbd := k } = p ∧
      q.kbd.isPressed = k.isPressed ∧ q.kbd.portB = k.portB ∧
      ((∀ i, ¬ out i) → q.kbd = { k with portA := 0xFFFF }) ∧
      (∀ i : Fin 86, out i →
        (c.kbdScan = .interleaved → ∀ j, j < i → ¬ out j) →
        (c.kbdScan = .releasesFirst →
          (k.outstandingRelease[i.val] = true → ∀ j, j < i → k.outstandingRelease[j.val] = false) ∧
          (k.outstandingRelease[i.val] = false →
            (∀ j : Fin 86, k.outstandingRelease[j.val] = false) ∧
              ∀ j, j < i → k.outstandingPress[j.val] = false)) →
        q.kbd.portA = (if k.outstandingRelease[i.val] = true then BitVec.ofNat 32 (0x8000 + i.val)
          else BitVec.ofNat 32 i.val) ∧
        (∀ j : Fin 86, q.kbd.outstandingRelease[j.val] = (k.outstandingRelease[j.val] && decide (j ≠ i)) ∧
          q.kbd.outstandingPress[j.val] = (k.outstandingPress[j.val] && decide (j ≠ i))))) ∧
    (∃ q, portWrite c p 0x32 2 = some q ∧ { q with kbd := k } = p ∧ q.hub.lines[1] = p.hub.lines[1] ∧
      q.kbd.portA = 0 ∧ q.kbd.portB = 0 ∧
      ∀ j : Fin 86, q.kbd.isPressed[j.val] = false ∧ q.kbd.outstandingPress[j.val] = false ∧
        q.kbd.outstandingRelease[j.val] = false) ∧
    (∀ i : Fin 86, k.portA.toNat = i.val →
      portWrite c p 0x32 3 = some { p with kbd := { k with portA := if k.isPressed[i.val] = true then 1 else 0 } }) ∧
    (86 ≤ k.portA.toNat → portWrite c p 0x32 3 = some p) ∧
    (v = 0 ∨ 4 ≤ v.toNat → portWrite c p 0x32 v = some p)

/-- Key events (R476, R492): a key going down is pressed and outstanding, one going up is released and outstanding; the
keyboard's line, where enabled, is raised; a code outside 1..85 does nothing (log entry 15). -/
def Obligations.KeyEvents : Prop :=
  ∀ (c : Config) (p : Platform) (code : Nat),
    (code = 0 ∨ 86 ≤ code → p.hostEvent c (.keyDown code) = p ∧ p.hostEvent c (.keyUp code) = p) ∧
    (1 ≤ code → code ≤ 85 →
      let lsic := if p.hub.lines[1] = 0 then p.lsic else p.lsic.raise p.hub.lines[1]
      let d := p.hostEvent c (.keyDown code)
      let u := p.hostEvent c (.keyUp code)
      { d with kbd := p.kbd, lsic := p.lsic } = p ∧ d.lsic = lsic ∧
      { u with kbd := p.kbd, lsic := p.lsic } = p ∧ u.lsic = lsic ∧
      d.kbd.portA = p.kbd.portA ∧ d.kbd.portB = p.kbd.portB ∧ u.kbd.portA = p.kbd.portA ∧ u.kbd.portB = p.kbd.portB ∧
      ∀ j : Fin 86,
        d.kbd.isPressed[j.val] = (p.kbd.isPressed[j.val] || decide (j.val = code)) ∧
        d.kbd.outstandingPress[j.val] = (p.kbd.outstandingPress[j.val] || decide (j.val = code)) ∧
        d.kbd.outstandingRelease[j.val] = p.kbd.outstandingRelease[j.val] ∧
        u.kbd.isPressed[j.val] = (p.kbd.isPressed[j.val] && decide (j.val ≠ code)) ∧
        u.kbd.outstandingPress[j.val] = p.kbd.outstandingPress[j.val] ∧
        u.kbd.outstandingRelease[j.val] = (p.kbd.outstandingRelease[j.val] || decide (j.val = code)))

/-- The hub (R476, R487, R488): port 0x30 gives the selected slot and takes 0 to 15, ignoring the rest; the magic, port_a
and port_b are the selected slot's, 0 for an empty slot; port 0x32 reads 0 and a write to 0x31 does nothing; a write to
0x33 or 0x34 sets port_a or port_b of the controller or the keyboard, whichever is selected, and nothing else; an empty
slot ignores writes and actions. The controller's actions 1 and 3 set the line of slot port_b to 48 + port_b and to 0;
action 2 resets the hub and the keyboard; any other action, and every action where port_b is 16 or more, does nothing
(R476, D37). -/
def Obligations.HubPorts : Prop :=
  ∀ (c : Config) (p : Platform) (v : Word),
    let sel := p.hub.selected.toNat
    let d := p.hub.portB.toNat
    portRead p 0x30 = some (BitVec.ofNat 32 sel) ∧
    portRead p 0x31 = some (if sel = 0 then Config.hubCtrlMagic else if sel = 1 then 0x8FC48FC4 else 0) ∧
    portRead p 0x32 = some 0 ∧
    portRead p 0x33 = some (if sel = 0 then p.hub.portA else if sel = 1 then p.kbd.portA else 0) ∧
    portRead p 0x34 = some (if sel = 0 then p.hub.portB else if sel = 1 then p.kbd.portB else 0) ∧
    (∃ q, portWrite c p 0x30 v = some q ∧
      { q with hub := { q.hub with selected := p.hub.selected } } = p ∧
      q.hub.selected.toNat = if v.toNat < 16 then v.toNat else sel) ∧
    portWrite c p 0x31 v = some p ∧
    (sel = 0 → portWrite c p 0x33 v = some { p with hub := { p.hub with portA := v } } ∧
      portWrite c p 0x34 v = some { p with hub := { p.hub with portB := v } }) ∧
    (sel = 1 → portWrite c p 0x33 v = some { p with kbd := { p.kbd with portA := v } } ∧
      portWrite c p 0x34 v = some { p with kbd := { p.kbd with portB := v } }) ∧
    (2 ≤ sel → portWrite c p 0x32 v = some p ∧ portWrite c p 0x33 v = some p ∧ portWrite c p 0x34 v = some p) ∧
    (sel = 0 → d < 16 → v = 1 ∨ v = 3 → ∃ q, portWrite c p 0x32 v = some q ∧
      { q with hub := { q.hub with lines := p.hub.lines } } = p ∧
      ∀ i : Fin 16, q.hub.lines[i.val] =
        if i.val = d then (if v = 1 then 48 + i.val else 0) else p.hub.lines[i.val]) ∧
    (sel = 0 → d < 16 → v = 2 → ∃ q, portWrite c p 0x32 v = some q ∧ { q with hub := p.hub, kbd := p.kbd } = p ∧
      q.hub.selected = 0 ∧ (∀ i : Fin 16, q.hub.lines[i.val] = 0) ∧ q.hub.portA = 0 ∧ q.hub.portB = 0 ∧
      (∀ j : Fin 86, q.kbd.isPressed[j.val] = false ∧ q.kbd.outstandingPress[j.val] = false ∧
        q.kbd.outstandingRelease[j.val] = false) ∧
      q.kbd.portA = 0 ∧ q.kbd.portB = 0) ∧
    (sel = 0 → 16 ≤ d ∨ v = 0 ∨ 4 ≤ v.toNat → portWrite c p 0x32 v = some p)
end

