-- ==== Sys2Proof/Laws/Memory.lean ====
section
/-! SUPPORT. Memory: read after write, reads elsewhere, and that every operation keeps the canonical form. -/

namespace Sys2Proof.Machine

/-- A list whose addresses start at `lo` has no byte below `lo`. -/
theorem Memory.read_below {m : Memory} {lo k : Nat} (h : Memory.wfFrom lo m = true) (hk : k < lo) :
    m.read k = Memory.unlisted := by
  cases m with
  | nil => rfl
  | cons c m =>
    obtain ⟨a, b⟩ := c
    simp only [Memory.wfFrom, Bool.and_eq_true, decide_eq_true_eq] at h
    simp only [Memory.read]
    rw [if_pos (by omega)]

theorem Memory.wfFrom_mono {m : Memory} {lo lo' : Nat} (h : Memory.wfFrom lo m = true) (hl : lo' ≤ lo) :
    Memory.wfFrom lo' m = true := by
  cases m with
  | nil => rfl
  | cons c m =>
    obtain ⟨a, b⟩ := c
    simp only [Memory.wfFrom, Bool.and_eq_true, decide_eq_true_eq] at h ⊢
    exact ⟨⟨by omega, h.1.2⟩, h.2⟩

theorem Memory.wfFrom_write {m : Memory} {lo k : Nat} (v : Byte) (h : Memory.wfFrom lo m = true) (hk : lo ≤ k) :
    Memory.wfFrom lo (m.write k v) = true := by
  induction m generalizing lo with
  | nil =>
    simp only [Memory.write]
    split
    · rfl
    · simp_all [Memory.wfFrom]
  | cons c m ih =>
    obtain ⟨a, b⟩ := c
    have h0 := h
    simp only [Memory.wfFrom, Bool.and_eq_true, decide_eq_true_eq] at h
    simp only [Memory.write]
    split
    · split
      · exact h0
      · simp_all [Memory.wfFrom]
    · split
      · split
        · exact Memory.wfFrom_mono h.2 (by omega)
        · simp_all [Memory.wfFrom]
      · simp only [Memory.wfFrom, Bool.and_eq_true, decide_eq_true_eq]
        exact ⟨⟨h.1.1, h.1.2⟩, ih h.2 (by omega)⟩

/-- A byte written keeps the canonical form. -/
theorem Memory.wf_write {m : Memory} (k : Nat) (v : Byte) (h : m.wf = true) : (m.write k v).wf = true :=
  Memory.wfFrom_write v h (Nat.zero_le k)

theorem Memory.readFrom_write {m : Memory} {lo : Nat} (k j : Nat) (v : Byte) (h : Memory.wfFrom lo m = true) :
    (m.write k v).read j = if j = k then v else m.read j := by
  induction m generalizing lo with
  | nil =>
    simp only [Memory.write]
    split
    · simp_all [Memory.read]
    · simp only [Memory.read]
      split
      · rw [if_neg (by omega)]
      · rfl
  | cons c m ih =>
    obtain ⟨a, b⟩ := c
    simp only [Memory.wfFrom, Bool.and_eq_true, decide_eq_true_eq] at h
    have hb : ∀ i : Nat, i ≤ a → Memory.read m i = Memory.unlisted := fun i hi =>
      Memory.read_below (lo := a + 1) h.2 (by omega)
    simp only [Memory.write]
    split
    · split
      · split <;> simp_all [Memory.read]
      · simp only [Memory.read]
        grind
    · split
      · split
        · simp only [Memory.read]
          grind
        · simp only [Memory.read]
          grind
      · simp only [Memory.read, ih h.2]
        grind

/-- Reading after writing one byte: the byte at its address, every other byte as before. -/
theorem Memory.read_write {m : Memory} (k j : Nat) (v : Byte) (h : m.wf = true) :
    (m.write k v).read j = if j = k then v else m.read j := Memory.readFrom_write k j v h

/-- A 1, 2 or 4 byte write keeps the canonical form. -/
theorem Memory.wf_writeLE {m : Memory} (a : Nat) (n : Width) (v : Word) (h : m.wf = true) :
    (m.writeLE a n v).wf = true := by
  cases n <;> simp only [Memory.writeLE] <;> repeat' apply Memory.wf_write
  all_goals exact h

/-- Reading a byte after a 1, 2 or 4 byte write: byte `j - a` of the value inside the bytes written, else as before. -/
theorem Memory.read_writeLE {m : Memory} (a j : Nat) (n : Width) (v : Word) (h : m.wf = true) :
    (m.writeLE a n v).read j = if a ≤ j ∧ j < a + n.bytes then byteOfWord v (j - a) else m.read j := by
  have h1 := Memory.wf_write a (byteOfWord v 0) h
  have h2 := Memory.wf_write (a + 1) (byteOfWord v 1) h1
  have h3 := Memory.wf_write (a + 2) (byteOfWord v 2) h2
  cases n
  · have hb : Width.byte.bytes = 1 := rfl
    simp only [Memory.writeLE, Memory.read_write _ _ _ h, hb]
    grind
  · have hb : Width.int.bytes = 2 := rfl
    simp only [Memory.writeLE, Memory.read_write _ _ _ h, Memory.read_write _ _ _ h1, hb]
    grind
  · have hb : Width.long.bytes = 4 := rfl
    simp only [Memory.writeLE, Memory.read_write _ _ _ h, Memory.read_write _ _ _ h1,
      Memory.read_write _ _ _ h2, Memory.read_write _ _ _ h3, hb]
    grind

/-- A block copy keeps the canonical form. -/
theorem Memory.wf_copy {dst : Memory} (da : Nat) (src : Memory) (sa n : Nat) (h : dst.wf = true) :
    (dst.copy da src sa n).wf = true := by
  induction n generalizing dst da sa with
  | zero => exact h
  | succ n ih => exact ih _ _ (Memory.wf_write _ _ h)

/-- Reading after a block copy: the source's byte inside the block, else as before. -/
theorem Memory.read_copy {dst : Memory} (da : Nat) (src : Memory) (sa n j : Nat) (h : dst.wf = true) :
    (dst.copy da src sa n).read j = if da ≤ j ∧ j < da + n then src.read (sa + (j - da)) else dst.read j := by
  induction n generalizing dst da sa with
  | zero => rw [if_neg (by omega)]; rfl
  | succ n ih =>
    rw [Memory.copy, ih (da + 1) (sa + 1) (Memory.wf_write _ _ h), Memory.read_write _ _ _ h]
    split
    · rw [if_pos (by omega)]
      congr 1; omega
    · split
      · rw [if_pos (by omega)]
        congr 1; omega
      · rw [if_neg (by omega)]

/-- Placing bytes keeps the canonical form. -/
theorem Memory.wf_place {m : Memory} (a : Nat) (bs : List Byte) (h : m.wf = true) : (m.place a bs).wf = true := by
  induction bs generalizing m a with
  | nil => exact h
  | cons b bs ih => exact ih _ (Memory.wf_write _ _ h)

end Sys2Proof.Machine
end

