-- ==== Sys2Proof/Laws/State.lean ====
section
/-! SUPPORT. One lemma per field and per update of the state, so that no proof unfolds a record update. -/

namespace Sys2Proof.Machine

variable (s : State)

/-! ### Updates of one field -/

@[simp] theorem State.setCell_config (i : RegIdx) (v : Word) : (s.setCell i v).config = s.config := rfl
@[simp] theorem State.setCell_plat (i : RegIdx) (v : Word) : (s.setCell i v).plat = s.plat := rfl
@[simp] theorem State.setCell_fatal (i : RegIdx) (v : Word) : (s.setCell i v).fatal = s.fatal := rfl
@[simp] theorem State.setCell_schedule (i : RegIdx) (v : Word) : (s.setCell i v).schedule = s.schedule := rfl
@[simp] theorem State.setCell_pc (i : RegIdx) (v : Word) : (s.setCell i v).cpu.pc = s.cpu.pc := rfl
@[simp] theorem State.setCell_exc (i : RegIdx) (v : Word) : (s.setCell i v).cpu.excPending = s.cpu.excPending := rfl
@[simp] theorem State.setCell_locked (i : RegIdx) (v : Word) : (s.setCell i v).cpu.locked = s.cpu.locked := rfl
@[simp] theorem State.setCell_halted (i : RegIdx) (v : Word) : (s.setCell i v).cpu.halted = s.cpu.halted := rfl
@[simp] theorem State.setCell_cr (i : RegIdx) (v : Word) (c : CrIdx) : (s.setCell i v).cr c = s.cr c := rfl

@[simp] theorem State.setCr_config (i : CrIdx) (v : Word) : (s.setCr i v).config = s.config := rfl
@[simp] theorem State.setCr_plat (i : CrIdx) (v : Word) : (s.setCr i v).plat = s.plat := rfl
@[simp] theorem State.setCr_fatal (i : CrIdx) (v : Word) : (s.setCr i v).fatal = s.fatal := rfl
@[simp] theorem State.setCr_schedule (i : CrIdx) (v : Word) : (s.setCr i v).schedule = s.schedule := rfl
@[simp] theorem State.setCr_pc (i : CrIdx) (v : Word) : (s.setCr i v).cpu.pc = s.cpu.pc := rfl
@[simp] theorem State.setCr_exc (i : CrIdx) (v : Word) : (s.setCr i v).cpu.excPending = s.cpu.excPending := rfl
@[simp] theorem State.setCr_locked (i : CrIdx) (v : Word) : (s.setCr i v).cpu.locked = s.cpu.locked := rfl
@[simp] theorem State.setCr_halted (i : CrIdx) (v : Word) : (s.setCr i v).cpu.halted = s.cpu.halted := rfl
@[simp] theorem State.setCr_reg (i : CrIdx) (v : Word) (j : RegIdx) : (s.setCr i v).reg j = s.reg j := rfl

@[simp] theorem State.setPc_config (t : Word) : (s.setPc t).config = s.config := rfl
@[simp] theorem State.setPc_plat (t : Word) : (s.setPc t).plat = s.plat := rfl
@[simp] theorem State.setPc_fatal (t : Word) : (s.setPc t).fatal = s.fatal := rfl
@[simp] theorem State.setPc_schedule (t : Word) : (s.setPc t).schedule = s.schedule := rfl
@[simp] theorem State.setPc_pc (t : Word) : (s.setPc t).cpu.pc = t := rfl
@[simp] theorem State.setPc_exc (t : Word) : (s.setPc t).cpu.excPending = s.cpu.excPending := rfl
@[simp] theorem State.setPc_locked (t : Word) : (s.setPc t).cpu.locked = s.cpu.locked := rfl
@[simp] theorem State.setPc_halted (t : Word) : (s.setPc t).cpu.halted = s.cpu.halted := rfl
@[simp] theorem State.setPc_reg (t : Word) (j : RegIdx) : (s.setPc t).reg j = s.reg j := rfl
@[simp] theorem State.setPc_cr (t : Word) (c : CrIdx) : (s.setPc t).cr c = s.cr c := rfl

@[simp] theorem State.advance_config : (s.advance).config = s.config := rfl
@[simp] theorem State.advance_plat : (s.advance).plat = s.plat := rfl
@[simp] theorem State.advance_fatal : (s.advance).fatal = s.fatal := rfl
@[simp] theorem State.advance_schedule : (s.advance).schedule = s.schedule := rfl
@[simp] theorem State.advance_pc : (s.advance).cpu.pc = s.cpu.pc + 4 := rfl
@[simp] theorem State.advance_exc : (s.advance).cpu.excPending = s.cpu.excPending := rfl
@[simp] theorem State.advance_locked : (s.advance).cpu.locked = s.cpu.locked := rfl
@[simp] theorem State.advance_halted : (s.advance).cpu.halted = s.cpu.halted := rfl
@[simp] theorem State.advance_reg (j : RegIdx) : (s.advance).reg j = s.reg j := rfl
@[simp] theorem State.advance_cr (c : CrIdx) : (s.advance).cr c = s.cr c := rfl

@[simp] theorem State.setLocked_config (b : Bool) : (s.setLocked b).config = s.config := rfl
@[simp] theorem State.setLocked_plat (b : Bool) : (s.setLocked b).plat = s.plat := rfl
@[simp] theorem State.setLocked_fatal (b : Bool) : (s.setLocked b).fatal = s.fatal := rfl
@[simp] theorem State.setLocked_schedule (b : Bool) : (s.setLocked b).schedule = s.schedule := rfl
@[simp] theorem State.setLocked_pc (b : Bool) : (s.setLocked b).cpu.pc = s.cpu.pc := rfl
@[simp] theorem State.setLocked_exc (b : Bool) : (s.setLocked b).cpu.excPending = s.cpu.excPending := rfl
@[simp] theorem State.setLocked_locked (b : Bool) : (s.setLocked b).cpu.locked = b := rfl
@[simp] theorem State.setLocked_halted (b : Bool) : (s.setLocked b).cpu.halted = s.cpu.halted := rfl
@[simp] theorem State.setLocked_reg (b : Bool) (j : RegIdx) : (s.setLocked b).reg j = s.reg j := rfl
@[simp] theorem State.setLocked_cr (b : Bool) (c : CrIdx) : (s.setLocked b).cr c = s.cr c := rfl

@[simp] theorem State.setHalted_config (b : Bool) : (s.setHalted b).config = s.config := rfl
@[simp] theorem State.setHalted_plat (b : Bool) : (s.setHalted b).plat = s.plat := rfl
@[simp] theorem State.setHalted_fatal (b : Bool) : (s.setHalted b).fatal = s.fatal := rfl
@[simp] theorem State.setHalted_schedule (b : Bool) : (s.setHalted b).schedule = s.schedule := rfl
@[simp] theorem State.setHalted_pc (b : Bool) : (s.setHalted b).cpu.pc = s.cpu.pc := rfl
@[simp] theorem State.setHalted_exc (b : Bool) : (s.setHalted b).cpu.excPending = s.cpu.excPending := rfl
@[simp] theorem State.setHalted_locked (b : Bool) : (s.setHalted b).cpu.locked = s.cpu.locked := rfl
@[simp] theorem State.setHalted_halted (b : Bool) : (s.setHalted b).cpu.halted = b := rfl
@[simp] theorem State.setHalted_reg (b : Bool) (j : RegIdx) : (s.setHalted b).reg j = s.reg j := rfl
@[simp] theorem State.setHalted_cr (b : Bool) (c : CrIdx) : (s.setHalted b).cr c = s.cr c := rfl

@[simp] theorem State.setExc_config (e : Option Exc) : (s.setExc e).config = s.config := rfl
@[simp] theorem State.setExc_plat (e : Option Exc) : (s.setExc e).plat = s.plat := rfl
@[simp] theorem State.setExc_fatal (e : Option Exc) : (s.setExc e).fatal = s.fatal := rfl
@[simp] theorem State.setExc_schedule (e : Option Exc) : (s.setExc e).schedule = s.schedule := rfl
@[simp] theorem State.setExc_pc (e : Option Exc) : (s.setExc e).cpu.pc = s.cpu.pc := rfl
@[simp] theorem State.setExc_exc (e : Option Exc) : (s.setExc e).cpu.excPending = e := rfl
@[simp] theorem State.setExc_locked (e : Option Exc) : (s.setExc e).cpu.locked = s.cpu.locked := rfl
@[simp] theorem State.setExc_halted (e : Option Exc) : (s.setExc e).cpu.halted = s.cpu.halted := rfl
@[simp] theorem State.setExc_reg (e : Option Exc) (j : RegIdx) : (s.setExc e).reg j = s.reg j := rfl
@[simp] theorem State.setExc_cr (e : Option Exc) (c : CrIdx) : (s.setExc e).cr c = s.cr c := rfl

@[simp] theorem State.setFatal_config (b : Bool) : (s.setFatal b).config = s.config := rfl
@[simp] theorem State.setFatal_plat (b : Bool) : (s.setFatal b).plat = s.plat := rfl
@[simp] theorem State.setFatal_fatal (b : Bool) : (s.setFatal b).fatal = b := rfl
@[simp] theorem State.setFatal_schedule (b : Bool) : (s.setFatal b).schedule = s.schedule := rfl
@[simp] theorem State.setFatal_pc (b : Bool) : (s.setFatal b).cpu.pc = s.cpu.pc := rfl
@[simp] theorem State.setFatal_exc (b : Bool) : (s.setFatal b).cpu.excPending = s.cpu.excPending := rfl
@[simp] theorem State.setFatal_locked (b : Bool) : (s.setFatal b).cpu.locked = s.cpu.locked := rfl
@[simp] theorem State.setFatal_halted (b : Bool) : (s.setFatal b).cpu.halted = s.cpu.halted := rfl
@[simp] theorem State.setFatal_reg (b : Bool) (j : RegIdx) : (s.setFatal b).reg j = s.reg j := rfl
@[simp] theorem State.setFatal_cr (b : Bool) (c : CrIdx) : (s.setFatal b).cr c = s.cr c := rfl

@[simp] theorem State.setPlat_config (p : Platform) : (s.setPlat p).config = s.config := rfl
@[simp] theorem State.setPlat_plat (p : Platform) : (s.setPlat p).plat = p := rfl
@[simp] theorem State.setPlat_fatal (p : Platform) : (s.setPlat p).fatal = s.fatal := rfl
@[simp] theorem State.setPlat_schedule (p : Platform) : (s.setPlat p).schedule = s.schedule := rfl
@[simp] theorem State.setPlat_pc (p : Platform) : (s.setPlat p).cpu.pc = s.cpu.pc := rfl
@[simp] theorem State.setPlat_exc (p : Platform) : (s.setPlat p).cpu.excPending = s.cpu.excPending := rfl
@[simp] theorem State.setPlat_locked (p : Platform) : (s.setPlat p).cpu.locked = s.cpu.locked := rfl
@[simp] theorem State.setPlat_halted (p : Platform) : (s.setPlat p).cpu.halted = s.cpu.halted := rfl
@[simp] theorem State.setPlat_reg (p : Platform) (j : RegIdx) : (s.setPlat p).reg j = s.reg j := rfl
@[simp] theorem State.setPlat_cr (p : Platform) (c : CrIdx) : (s.setPlat p).cr c = s.cr c := rfl

/-! ### Registers: a read after a write -/

theorem State.setCell_reg (i j : RegIdx) (v : Word) :
    (s.setCell i v).reg j = if j = i then v else s.reg j := by
  simp only [State.reg, State.setCell, Vector.getElem_set, BitVec.toNat_inj, eq_comm (a := i)]

@[simp] theorem State.setCell_reg_same (i : RegIdx) (v : Word) : (s.setCell i v).reg i = v := by
  simp [State.setCell_reg]

theorem State.setCr_cr (i c : CrIdx) (v : Word) : (s.setCr i v).cr c = if c = i then v else s.cr c := by
  simp only [State.cr, State.setCr, Vector.getElem_set, BitVec.toNat_inj, eq_comm (a := i)]

@[simp] theorem State.setCr_cr_same (i : CrIdx) (v : Word) : (s.setCr i v).cr i = v := by
  simp [State.setCr_cr]

@[simp] theorem State.setReg_zero (v : Word) : s.setReg 0 v = s := by simp [State.setReg]

/-- A write of a register (R32): the destination takes the value, R0 and every other register keep theirs. -/
theorem State.setReg_reg (i j : RegIdx) (v : Word) :
    (s.setReg i v).reg j = if j = i ∧ i ≠ 0 then v else s.reg j := by
  unfold State.setReg
  split
  · simp_all
  · simp_all [State.setCell_reg]

@[simp] theorem State.setReg_config (i : RegIdx) (v : Word) : (s.setReg i v).config = s.config := by
  unfold State.setReg; split <;> rfl
@[simp] theorem State.setReg_plat (i : RegIdx) (v : Word) : (s.setReg i v).plat = s.plat := by
  unfold State.setReg; split <;> rfl
@[simp] theorem State.setReg_fatal (i : RegIdx) (v : Word) : (s.setReg i v).fatal = s.fatal := by
  unfold State.setReg; split <;> rfl
@[simp] theorem State.setReg_schedule (i : RegIdx) (v : Word) : (s.setReg i v).schedule = s.schedule := by
  unfold State.setReg; split <;> rfl
@[simp] theorem State.setReg_pc (i : RegIdx) (v : Word) : (s.setReg i v).cpu.pc = s.cpu.pc := by
  unfold State.setReg; split <;> rfl
@[simp] theorem State.setReg_exc (i : RegIdx) (v : Word) : (s.setReg i v).cpu.excPending = s.cpu.excPending := by
  unfold State.setReg; split <;> rfl
@[simp] theorem State.setReg_locked (i : RegIdx) (v : Word) : (s.setReg i v).cpu.locked = s.cpu.locked := by
  unfold State.setReg; split <;> rfl
@[simp] theorem State.setReg_halted (i : RegIdx) (v : Word) : (s.setReg i v).cpu.halted = s.cpu.halted := by
  unfold State.setReg; split <;> rfl
@[simp] theorem State.setReg_cr (i : RegIdx) (v : Word) (c : CrIdx) : (s.setReg i v).cr c = s.cr c := by
  unfold State.setReg; split <;> rfl

/-! ### EBADADDR -/

@[simp] theorem State.setBadAddr_config (a : Option Word) : (s.setBadAddr a).config = s.config := by
  cases a <;> rfl
@[simp] theorem State.setBadAddr_plat (a : Option Word) : (s.setBadAddr a).plat = s.plat := by
  cases a <;> rfl
@[simp] theorem State.setBadAddr_fatal (a : Option Word) : (s.setBadAddr a).fatal = s.fatal := by
  cases a <;> rfl
@[simp] theorem State.setBadAddr_schedule (a : Option Word) : (s.setBadAddr a).schedule = s.schedule := by
  cases a <;> rfl
@[simp] theorem State.setBadAddr_pc (a : Option Word) : (s.setBadAddr a).cpu.pc = s.cpu.pc := by
  cases a <;> rfl
@[simp] theorem State.setBadAddr_exc (a : Option Word) : (s.setBadAddr a).cpu.excPending = s.cpu.excPending := by
  cases a <;> rfl
@[simp] theorem State.setBadAddr_locked (a : Option Word) : (s.setBadAddr a).cpu.locked = s.cpu.locked := by
  cases a <;> rfl
@[simp] theorem State.setBadAddr_halted (a : Option Word) : (s.setBadAddr a).cpu.halted = s.cpu.halted := by
  cases a <;> rfl
@[simp] theorem State.setBadAddr_reg (a : Option Word) (j : RegIdx) : (s.setBadAddr a).reg j = s.reg j := by
  cases a <;> rfl

theorem State.setBadAddr_cr (a : Option Word) (c : CrIdx) :
    (s.setBadAddr a).cr c = if c = crEBADADDR then a.getD (s.cr c) else s.cr c := by
  cases a <;> simp [State.setBadAddr, State.setCr_cr]

/-! ### MFCR's write -/

/-- MFCR's write of its destination (R32): R0 too, where `MFCR_R0_VISIBLE`. -/
theorem State.setRegMfcr_reg (i j : RegIdx) (v : Word) :
    (s.setRegMfcr i v).reg j =
      if j = i ∧ (i ≠ 0 ∨ s.config.mfcrR0Visible = true) then v else s.reg j := by
  unfold State.setRegMfcr
  split <;> simp_all [State.setCell_reg, State.setReg_reg]

@[simp] theorem State.setRegMfcr_config (i : RegIdx) (v : Word) : (s.setRegMfcr i v).config = s.config := by
  unfold State.setRegMfcr; split <;> simp
@[simp] theorem State.setRegMfcr_plat (i : RegIdx) (v : Word) : (s.setRegMfcr i v).plat = s.plat := by
  unfold State.setRegMfcr; split <;> simp
@[simp] theorem State.setRegMfcr_fatal (i : RegIdx) (v : Word) : (s.setRegMfcr i v).fatal = s.fatal := by
  unfold State.setRegMfcr; split <;> simp
@[simp] theorem State.setRegMfcr_schedule (i : RegIdx) (v : Word) : (s.setRegMfcr i v).schedule = s.schedule := by
  unfold State.setRegMfcr; split <;> simp
@[simp] theorem State.setRegMfcr_pc (i : RegIdx) (v : Word) : (s.setRegMfcr i v).cpu.pc = s.cpu.pc := by
  unfold State.setRegMfcr; split <;> simp
@[simp] theorem State.setRegMfcr_exc (i : RegIdx) (v : Word) : (s.setRegMfcr i v).cpu.excPending = s.cpu.excPending := by
  unfold State.setRegMfcr; split <;> simp
@[simp] theorem State.setRegMfcr_locked (i : RegIdx) (v : Word) : (s.setRegMfcr i v).cpu.locked = s.cpu.locked := by
  unfold State.setRegMfcr; split <;> simp
@[simp] theorem State.setRegMfcr_halted (i : RegIdx) (v : Word) : (s.setRegMfcr i v).cpu.halted = s.cpu.halted := by
  unfold State.setRegMfcr; split <;> simp
@[simp] theorem State.setRegMfcr_cr (i : RegIdx) (v : Word) (c : CrIdx) : (s.setRegMfcr i v).cr c = s.cr c := by
  unfold State.setRegMfcr; split <;> simp

/-! ### The host's calls -/


@[simp] theorem State.hostCalls_config : s.hostCalls.config = s.config := by
  unfold State.hostCalls; split <;> rfl
@[simp] theorem State.hostCalls_fatal : s.hostCalls.fatal = s.fatal := by
  unfold State.hostCalls; split <;> rfl
@[simp] theorem State.hostCalls_pc : s.hostCalls.cpu.pc = s.cpu.pc := by
  unfold State.hostCalls; split <;> rfl
@[simp] theorem State.hostCalls_exc : s.hostCalls.cpu.excPending = s.cpu.excPending := by
  unfold State.hostCalls; split <;> rfl
@[simp] theorem State.hostCalls_locked : s.hostCalls.cpu.locked = s.cpu.locked := by
  unfold State.hostCalls; split <;> rfl
@[simp] theorem State.hostCalls_halted : s.hostCalls.cpu.halted = s.cpu.halted := by
  unfold State.hostCalls; split <;> rfl
@[simp] theorem State.hostCalls_cpu : s.hostCalls.cpu = s.cpu := by
  unfold State.hostCalls; split <;> rfl

@[simp] theorem State.hostCalls_nil (h : s.schedule = []) : s.hostCalls = s := by
  unfold State.hostCalls; rw [h]

/-- Two states with the same fields are equal. -/
theorem State.ext_fields {s t : State} (hc : s.config = t.config) (hr : ∀ j, s.reg j = t.reg j)
    (hcr : ∀ c, s.cr c = t.cr c) (hpc : s.cpu.pc = t.cpu.pc) (he : s.cpu.excPending = t.cpu.excPending)
    (hl : s.cpu.locked = t.cpu.locked) (hh : s.cpu.halted = t.cpu.halted) (hp : s.plat = t.plat)
    (hf : s.fatal = t.fatal) (hs : s.schedule = t.schedule) : s = t := by
  obtain ⟨c, ⟨r, pc, cr, e, l, h⟩, p, f, sch⟩ := s
  obtain ⟨c', ⟨r', pc', cr', e', l', h'⟩, p', f', sch'⟩ := t
  have hr' : r = r' := by
    apply Vector.ext
    intro i hi
    have := hr (BitVec.ofNat 5 i)
    simpa [State.reg, Nat.mod_eq_of_lt (show i < 32 from hi)] using this
  have hcr' : cr = cr' := by
    apply Vector.ext
    intro i hi
    have := hcr (BitVec.ofNat 5 i)
    simpa [State.cr, Nat.mod_eq_of_lt (show i < 32 from hi)] using this
  simp_all

end Sys2Proof.Machine
end

