-- ==== Sys2Proof/Laws/Ops.lean ====
section
/-! SUPPORT. What each shared operation of `Machine/Ops.lean` can do, said once: the statements' words for the CPU after
it, and what it leaves. -/

namespace Sys2Proof.Machine

variable {s t : State}

/-! ### What an update of the CPU alone leaves -/

/-- A state with the same platform has the same bytes. -/
theorem BytesKept.of_plat (h : t.plat = s.plat) : BytesKept s.plat t.plat := fun a => by rw [h]

/-- A state with the same platform has the same devices. -/
theorem DevicesKept.of_plat (h : t.plat = s.plat) : DevicesKept s.plat t.plat := by
  constructor <;> rw [h]

/-- Without a shift the second operand of MUL, DIV, DIVS, MOD and SC is x[rB] (R157). -/
@[simp] theorem State.opG_reg (s : State) (rB : RegIdx) : s.opG (.reg rB) = s.reg rB := rfl

/-- With a shift it is the shifter's output (R156, R160). -/
@[simp] theorem State.opG_shifted (s : State) (rB : RegIdx) (sh : Shift) :
    s.opG (.shifted rB sh) = shiftOperand sh (s.reg rB) := rfl

/-- `finish` (R32, R34): the register written, the pc moved on, nothing else. -/
theorem finish_wrote (s : State) (rD : RegIdx) (v : Word) :
    ∃ t, s.finish rD v = .next t ∧ WroteReg s t rD v (s.cpu.pc + 4) :=
  ⟨_, rfl, ⟨by constructor <;> simp [State.setReg_reg, State.regsWith], .of_plat (by simp), .of_plat (by simp)⟩⟩

/-- `advance` (R34): the pc moved on, nothing else. -/
theorem advance_went (s : State) : WentTo s s.advance (s.cpu.pc + 4) :=
  ⟨by constructor <;> simp, .of_plat (by simp), .of_plat (by simp)⟩

/-- `setPc` (R34): the pc set, nothing else. -/
theorem setPc_went (s : State) (pc : Word) : WentTo s (s.setPc pc) pc :=
  ⟨by constructor <;> simp, .of_plat (by simp), .of_plat (by simp)⟩

/-- A branch (R280): the pc set to the target where it is taken, else moved on, nothing else. -/
theorem branchIf_went (s : State) (taken : Bool) (disp : BitVec 21) :
    ∃ t, s.branchIf taken disp = .next t ∧
      WentTo s t (if taken = true then s.cpu.pc + branchOffset disp else s.cpu.pc + 4) := by
  cases taken
  · exact ⟨_, rfl, by simpa using advance_went s⟩
  · exact ⟨_, rfl, by simpa using setPc_went s _⟩

/-! ### Raising -/

/-- The control registers after `setBadAddr` are those of `crsBad` (R49). -/
theorem setBadAddr_crs (s : State) (a : Option Word) (c : CrIdx) : (s.setBadAddr a).cr c = s.crsBad a c := by
  cases a
  · rfl
  · simp [State.setBadAddr, State.crsBad, State.crsWith, State.setCr_cr]

/-- The pc that a raise leaves (R431). -/
theorem epcOf_eq (s : State) (e : Exc) :
    s.epcOf e = if e.callTrap = true ∧ s.config.epcCallTrap = .next then s.cpu.pc + 4 else s.cpu.pc := by
  simp [State.epcOf]

/-- `raise` where nothing is pending (R430): the exception is latched. -/
theorem raise_trapped (x : Raised) (h : s.cpu.excPending = none) :
    Trapped s (s.raise x) x.exc x.badAddr (s.epcOf x.exc) := by
  have : (s.cpu.excPending.isSome && !x.exc.recoverable) = false := by simp [h]
  simp only [State.raise, this]
  exact ⟨by constructor <;> simp [setBadAddr_crs], .of_plat (by simp), .of_plat (by simp)⟩

/-- `raise` of a recoverable exception (R430): it is latched whatever is pending. -/
theorem raise_recoverable (x : Raised) (h : x.exc.recoverable = true) :
    Trapped s (s.raise x) x.exc x.badAddr (s.epcOf x.exc) := by
  have : (s.cpu.excPending.isSome && !x.exc.recoverable) = false := by simp [h]
  simp only [State.raise, this]
  exact ⟨by constructor <;> simp [setBadAddr_crs], .of_plat (by simp), .of_plat (by simp)⟩

/-- `raise` of a non-recoverable exception while one is pending (R430): the fatal mark, nothing else. -/
theorem raise_nested (x : Raised) (h : s.cpu.excPending.isSome = true) (hx : x.exc.recoverable = false) :
    s.raise x = s.setFatal true := by
  simp [State.raise, h, hx]

/-- What every raise leaves: the platform, the parameters, the schedule, the registers, the lock and the halt latch. -/
theorem raise_keeps (s : State) (x : Raised) :
    (s.raise x).plat = s.plat ∧ (s.raise x).config = s.config ∧ (s.raise x).schedule = s.schedule ∧
      (∀ i, (s.raise x).reg i = s.reg i) ∧ (s.raise x).cpu.locked = s.cpu.locked ∧
      (s.raise x).cpu.halted = s.cpu.halted := by
  unfold State.raise
  split <;> simp

/-- A raise changes no control register but EBADADDR (R432). -/
theorem raise_cr (s : State) (x : Raised) {c : CrIdx} (h : c ≠ crEBADADDR) : (s.raise x).cr c = s.cr c := by
  unfold State.raise
  split
  · simp
  · simp [State.setBadAddr_cr, h]

/-- The fatal mark after a raise (R430). -/
theorem raise_fatal (s : State) (x : Raised) :
    (s.raise x).fatal = (s.fatal || (s.cpu.excPending.isSome && !x.exc.recoverable)) := by
  unfold State.raise
  split <;> simp_all

/-! ### Accesses -/

/-- What a read of the CPU does (R120, R123): the translation's exception, BUSERROR, or the bus's value. -/
theorem memRead_cases (s : State) (va : Word) (n : Width) :
    (∃ x, s.translate va n .read = .error x ∧ s.memRead va n = .error x) ∨
      (∃ pa, s.translate va n .read = .ok pa ∧ busRead s.config s.plat pa n = none ∧
        s.memRead va n = .error ⟨.buserror, some pa⟩) ∨
      (∃ pa v, s.translate va n .read = .ok pa ∧ busRead s.config s.plat pa n = some v ∧
        s.memRead va n = .ok v) := by
  unfold State.memRead
  cases h : s.translate va n .read with
  | error x => exact .inl ⟨x, rfl, rfl⟩
  | ok pa =>
    cases hb : busRead s.config s.plat pa n with
    | none => exact .inr (.inl ⟨pa, rfl, hb, by simp [hb]⟩)
    | some v => exact .inr (.inr ⟨pa, v, rfl, hb, by simp [hb]⟩)

/-- What a write of the CPU does (R120, R123): the translation's exception, BUSERROR, or the bus's platform. -/
theorem memWrite_cases (s : State) (va : Word) (n : Width) (v : Word) :
    (∃ x, s.translate va n .write = .error x ∧ s.memWrite va n v = .error x) ∨
      (∃ pa, s.translate va n .write = .ok pa ∧ busWrite s.config s.plat pa n v = none ∧
        s.memWrite va n v = .error ⟨.buserror, some pa⟩) ∨
      (∃ pa p, s.translate va n .write = .ok pa ∧ busWrite s.config s.plat pa n v = some p ∧
        s.memWrite va n v = .ok p) := by
  unfold State.memWrite
  cases h : s.translate va n .write with
  | error x => exact .inl ⟨x, rfl, rfl⟩
  | ok pa =>
    cases hb : busWrite s.config s.plat pa n v with
    | none => exact .inr (.inl ⟨pa, rfl, hb, by simp [hb]⟩)
    | some p => exact .inr (.inr ⟨pa, p, rfl, hb, by simp [hb]⟩)

/-- The exceptions an access can raise, each with a bad address (R400). -/
def AccessExc (kind : AccessKind) (x : Raised) : Prop :=
  x.badAddr.isSome = true ∧ (x.exc = kind.pageExc ∨ x.exc = .unaligned ∨ x.exc = .buserror)

/-- The walk raises BUSERROR or the page fault of its kind (R111 to R114). -/
theorem walk_error {va : Word} {kind : AccessKind} {x : Raised} (h : s.walk va kind = .error x) :
    AccessExc kind x := by
  unfold State.walk at h
  grind [AccessExc]

/-- The translation raises the page fault of its kind, UNALIGNED or BUSERROR (R120 to R122). -/
theorem translate_error {va : Word} {n : Width} {kind : AccessKind} {x : Raised}
    (h : s.translate va n kind = .error x) : AccessExc kind x := by
  unfold State.translate at h
  have := @walk_error s va kind x
  grind [AccessExc]

/-- A read raises an access exception (R124). -/
theorem memRead_error {va : Word} {n : Width} {x : Raised} (h : s.memRead va n = .error x) :
    AccessExc .read x := by
  rcases memRead_cases s va n with ⟨y, h1, h2⟩ | ⟨pa, h1, h2, h3⟩ | ⟨pa, v, h1, h2, h3⟩
  · cases h2.symm.trans h; exact translate_error h1
  · cases h3.symm.trans h; exact ⟨rfl, .inr (.inr rfl)⟩
  · cases h3.symm.trans h

/-- A write raises an access exception (R124). -/
theorem memWrite_error {va : Word} {n : Width} {v : Word} {x : Raised} (h : s.memWrite va n v = .error x) :
    AccessExc .write x := by
  rcases memWrite_cases s va n v with ⟨y, h1, h2⟩ | ⟨pa, h1, h2, h3⟩ | ⟨pa, p, h1, h2, h3⟩
  · cases h2.symm.trans h; exact translate_error h1
  · cases h3.symm.trans h; exact ⟨rfl, .inr (.inr rfl)⟩
  · cases h3.symm.trans h

/-- No access exception is a call trap or recoverable. -/
theorem AccessExc.not_recoverable {kind : AccessKind} {x : Raised} (h : AccessExc kind x) :
    x.exc.recoverable = false ∧ x.exc.callTrap = false := by
  obtain ⟨_, h | h | h⟩ := h <;> cases kind <;> simp [h, AccessKind.pageExc, Exc.recoverable, Exc.callTrap]

/-! ### Loads, stores, privileged instructions -/

/-- A load (R251): the register written, or the exception raised. -/
theorem loadTo_cases (s : State) (rD : RegIdx) (ea : Word) (n : Width) :
    (∃ v, s.memRead ea n = .ok v ∧ s.loadTo rD ea n = s.finish rD v) ∨
      (∃ x, s.memRead ea n = .error x ∧ s.loadTo rD ea n = .next (s.raise x)) := by
  unfold State.loadTo
  cases h : s.memRead ea n with
  | ok v => exact .inl ⟨v, rfl, rfl⟩
  | error x => exact .inr ⟨x, rfl, rfl⟩

/-- A store (R251): the platform after the write and the pc moved on, or the exception raised. -/
theorem storeAt_cases (s : State) (ea : Word) (n : Width) (v : Word) :
    (∃ p, s.memWrite ea n v = .ok p ∧ s.storeAt ea n v = .next (s.setPlat p).advance) ∨
      (∃ x, s.memWrite ea n v = .error x ∧ s.storeAt ea n v = .next (s.raise x)) := by
  unfold State.storeAt
  cases h : s.memWrite ea n v with
  | ok p => exact .inl ⟨p, rfl, rfl⟩
  | error x => exact .inr ⟨x, rfl, rfl⟩

/-- A privileged instruction in kernel mode has its effect (R300). -/
theorem privileged_kernel {next : State} (h : s.user = false) : s.privileged next = .next next := by
  simp [State.privileged, h]

/-- A privileged instruction in user mode raises INVPRVG (R300). -/
theorem privileged_user {next : State} (h : s.user = true) :
    s.privileged next = .next (s.raise ⟨.invprvg, none⟩) := by
  simp [State.privileged, h]

/-! ### Delivery -/

/-- The state after a CPU reset (R501): the values it sets, every other one kept. -/
theorem cpuReset_after (s : State) :
    CpuAfter s s.cpuReset (fun i => if i = 0 then 0 else s.reg i) 0xFFFE0000
        (fun c => if c = crRS ∨ c = crEVEC ∨ c = crFWVEC then 0 else if c = crCPUID then 0x80060000 else s.cr c)
        none false false ∧ s.cpuReset.plat = s.plat := by
  refine ⟨?_, by simp [State.cpuReset]⟩
  constructor <;> simp [State.cpuReset, State.setCell_reg, State.setCr_cr]
  intro c
  by_cases h0 : c = crRS <;> by_cases h1 : c = crEVEC <;> by_cases h2 : c = crCPUID <;> by_cases h3 : c = crFWVEC <;>
    simp_all [crRS, crEVEC, crCPUID, crFWVEC]

/-- The state after an exception is taken through a nonzero vector (R441). -/
theorem takeException_after (h : s.vector ≠ 0) :
    CpuAfter s s.takeException s.reg s.vector
        (fun c => if c = crEPC then s.cpu.pc else if c = crECAUSE then s.cause.code
          else if c = crERS then s.cr crRS else if c = crRS then s.deliveredRS else s.cr c)
        none s.cpu.locked s.cpu.halted ∧ s.takeException.plat = s.plat := by
  simp only [State.takeException, h, if_false]
  refine ⟨?_, by simp⟩
  constructor <;> simp [State.setCr_cr]
  intro c
  by_cases h0 : c = crRS <;> by_cases h1 : c = crERS <;> by_cases h2 : c = crECAUSE <;> by_cases h3 : c = crEPC <;>
    simp_all [crRS, crERS, crECAUSE, crEPC]

/-- Taking through vector 0 is the CPU reset (R443). -/
theorem takeException_zero (h : s.vector = 0) : s.takeException = s.cpuReset := by
  simp [State.takeException, h]

/-- After the delivery check nothing is pending; the platform, parameters, schedule, fatal mark are as before (R441). -/
theorem deliver_keeps (s : State) :
    s.deliver.cpu.excPending = none ∧ s.deliver.plat = s.plat ∧ s.deliver.config = s.config ∧
      s.deliver.fatal = s.fatal ∧ s.deliver.schedule = s.schedule := by
  unfold State.deliver
  split
  · by_cases hv : s.vector = 0
    · rw [takeException_zero hv]
      obtain ⟨h, hp⟩ := cpuReset_after s
      exact ⟨h.exc, hp, h.config, h.fatal, h.schedule⟩
    · obtain ⟨h, hp⟩ := takeException_after hv
      exact ⟨h.exc, hp, h.config, h.fatal, h.schedule⟩
  · rename_i h
    simp [State.deliverable] at h
    simp [h.1]

/-- The return from an exception (R305, R445). -/
theorem returnFromException_after (s : State) :
    CpuAfter s s.returnFromException s.reg (s.cr crEPC) (s.crsWith crRS (s.cr crERS)) s.cpu.excPending false
        s.cpu.halted ∧ s.returnFromException.plat = s.plat := by
  refine ⟨?_, by simp [State.returnFromException]⟩
  constructor <;> simp [State.returnFromException, State.setCr_cr, State.crsWith]

end Sys2Proof.Machine
end

