-- ==== Sys2Proof/Laws/Bus.lean ====
section
/-! SUPPORT. What a bus access and a host call can do, said once: the windows of bytes, what a write leaves of memory, and
the platform's invariants. -/

namespace Sys2Proof.Machine

variable {c : Config} {p q : Platform} {pa : Word} {n : Width} {v : Word}

/-! ### The address split -/

/-- The area and the offset of an address, as numbers (R80). -/
theorem areaOf_eq (pa : Word) : areaOf pa = pa.toNat / 2 ^ 27 := by
  simp [areaOf, Nat.shiftRight_eq_div_pow]

/-- The offset of an address as a number (R80). -/
theorem offsetOf_eq (pa : Word) : offsetOf pa = pa.toNat % 2 ^ 27 := by
  rw [offsetOf, BitVec.toNat_and, show (0x07FFFFFF : Word).toNat = 2 ^ 27 - 1 by decide,
    Nat.and_two_pow_sub_one_eq_mod]

/-- In area 31 the offset is the address less 0xF8000000 (R89). -/
theorem offset_area31 (h : 0xF8000000 ≤ pa.toNat) : areaOf pa = 31 ∧ offsetOf pa = pa.toNat - 0xF8000000 := by
  rw [areaOf_eq, offsetOf_eq]
  have := pa.isLt
  omega

/-- The widths are 1, 2 and 4 bytes (R102). -/
theorem Width.bytes_cases (n : Width) : n.bytes = 1 ∨ n.bytes = 2 ∨ n.bytes = 4 := by cases n <;> simp [Width.bytes]

/-! ### The regions of the board (R89) -/

theorem regionOf_ports {off : Nat} (h : off ≤ 0x3FF) : regionOf c off = .ports := by
  rw [regionOf, if_pos h]

theorem regionOf_boardRegs {off : Nat} (h1 : 0x800 ≤ off) (h2 : off ≤ 0x87F) : regionOf c off = .boardRegs := by
  rw [regionOf, if_neg (by omega), if_pos ⟨h1, h2⟩]

theorem regionOf_nvram {off : Nat} (h1 : 0x1000 ≤ off) (h2 : off ≤ 0x10FFF) : regionOf c off = .nvram := by
  rw [regionOf, if_neg (by omega), if_neg (by omega), if_pos ⟨h1, h2⟩]

theorem regionOf_diskBuffer {off : Nat} (h1 : 0x20000 ≤ off) (h2 : off ≤ 0x201FF) :
    regionOf c off = .diskBuffer := by
  rw [regionOf, if_neg (by omega), if_neg (by omega), if_neg (by omega), if_pos ⟨h1, h2⟩]

theorem regionOf_lsic {off : Nat} (h1 : 0x30000 ≤ off) (h2 : off ≤ 0x300FF) : regionOf c off = .lsic := by
  rw [regionOf, if_neg (by omega), if_neg (by omega), if_neg (by omega), if_neg (by omega), if_pos ⟨h1, h2⟩]

theorem regionOf_resetTrigger {off : Nat} (h : off = 0x800000) : regionOf c off = .resetTrigger := by
  rw [regionOf, if_neg (by omega), if_neg (by omega), if_neg (by omega), if_neg (by omega), if_neg (by omega),
    if_pos h]

theorem regionOf_rom {off : Nat} (h1 : 0x7FE0000 ≤ off) (h2 : off < 0x7FE0000 + c.romLen) :
    regionOf c off = .rom := by
  rw [regionOf, if_neg (by omega), if_neg (by omega), if_neg (by omega), if_neg (by omega), if_neg (by omega),
    if_neg (by omega), if_pos ⟨h1, h2⟩]

/-- What region an offset has says where it lies. -/
theorem regionOf_bounds (c : Config) (off : Nat) :
    (regionOf c off = .ports → off ≤ 0x3FF) ∧
    (regionOf c off = .boardRegs → 0x800 ≤ off ∧ off ≤ 0x87F) ∧
    (regionOf c off = .nvram → 0x1000 ≤ off ∧ off ≤ 0x10FFF) ∧
    (regionOf c off = .diskBuffer → 0x20000 ≤ off ∧ off ≤ 0x201FF) ∧
    (regionOf c off = .lsic → 0x30000 ≤ off ∧ off ≤ 0x300FF) ∧
    (regionOf c off = .resetTrigger → off = 0x800000) ∧
    (regionOf c off = .rom → 0x7FE0000 ≤ off ∧ off < 0x7FE0000 + c.romLen) := by
  unfold regionOf
  grind

/-! ### Reads and writes by area (R80 to R88) -/

theorem busRead_area31 (h : 0xF8000000 ≤ pa.toNat) :
    busRead c p pa n = boardRead c p pa.toNat (pa.toNat - 0xF8000000) n := by
  obtain ⟨ha, ho⟩ := offset_area31 h
  simp [busRead, ha, ho]

theorem busWrite_area31 (h : 0xF8000000 ≤ pa.toNat) :
    busWrite c p pa n v = boardWrite c p pa.toNat (pa.toNat - 0xF8000000) n v := by
  obtain ⟨ha, ho⟩ := offset_area31 h
  simp [busWrite, ha, ho]

theorem busRead_ram (h : pa.toNat < 0x10000000) :
    busRead c p pa n = if pa.toNat + n.bytes ≤ c.ramSize then some (p.mem.readLE pa.toNat n) else none := by
  have : areaOf pa ≤ 1 := by rw [areaOf_eq]; omega
  simp [busRead, this]

theorem busWrite_ram (h : pa.toNat < 0x10000000) :
    busWrite c p pa n v =
      if pa.toNat + n.bytes ≤ c.ramSize then some { p with mem := p.mem.writeLE pa.toNat n v } else none := by
  have : areaOf pa ≤ 1 := by rw [areaOf_eq]; omega
  simp [busWrite, this]

/-! ### The windows of bytes -/

/-- A read of a window of bytes reads the memory (R84, R94, R95, R97). -/
theorem busRead_readable (h : Readable c pa n) : busRead c p pa n = some (p.mem.readLE pa.toNat n) := by
  have hb := n.bytes_cases
  rcases h with (⟨h1, h2⟩ | ⟨h1, h2⟩ | ⟨h1, h2⟩) | ⟨h1, h2⟩
  · rw [busRead_ram h1, if_pos h2]
  · rw [busRead_area31 (by omega), boardRead, regionOf_nvram (by omega) (by omega)]
    exact if_pos (decide_eq_true (by omega))
  · rw [busRead_area31 (by omega), boardRead, regionOf_diskBuffer (by omega) (by omega)]
    exact if_pos (decide_eq_true (by omega))
  · rw [busRead_area31 (by omega), boardRead, regionOf_rom (by omega) (by omega)]
    exact if_pos (decide_eq_true (by omega))

/-- A write to a window of bytes that a store changes writes the memory (R84, R94, R95). -/
theorem busWrite_writable (h : Writable c pa n) :
    busWrite c p pa n v = some { p with mem := p.mem.writeLE pa.toNat n v } := by
  have hb := n.bytes_cases
  rcases h with ⟨h1, h2⟩ | ⟨h1, h2⟩ | ⟨h1, h2⟩
  · rw [busWrite_ram h1, if_pos h2]
  · rw [busWrite_area31 (by omega), boardWrite, regionOf_nvram (by omega) (by omega)]
    exact if_pos (decide_eq_true (by omega))
  · rw [busWrite_area31 (by omega), boardWrite, regionOf_diskBuffer (by omega) (by omega)]
    exact if_pos (decide_eq_true (by omega))

/-- The value of a little-endian read (R85). -/
theorem readLE_toNat (m : Memory) (pa : Word) (n : Width) : (m.readLE pa.toNat n).toNat = bytesValue m pa n := by
  have h0 := (m.read pa.toNat).isLt
  have h1 := (m.read (pa.toNat + 1)).isLt
  have h2 := (m.read (pa.toNat + 2)).isLt
  have h3 := (m.read (pa.toNat + 3)).isLt
  cases n
  · simp only [Memory.readLE, bytesValue, BitVec.toNat_setWidth]; omega
  · simp only [Memory.readLE, bytesValue, BitVec.toNat_setWidth, BitVec.toNat_append]
    rw [Nat.shiftLeft_eq, ← Nat.shiftLeft_eq, ← Nat.shiftLeft_add_eq_or_of_lt h0, Nat.shiftLeft_eq]
    omega
  · simp only [Memory.readLE, bytesValue, BitVec.toNat_append]
    rw [← Nat.shiftLeft_add_eq_or_of_lt h2, ← Nat.shiftLeft_add_eq_or_of_lt h1, ← Nat.shiftLeft_add_eq_or_of_lt h0]
    simp only [Nat.shiftLeft_eq]
    omega

/-- Byte k of a value as a number (R85). -/
theorem byteOfWord_eq (v : Word) (k : Nat) : byteOfWord v k = BitVec.ofNat 8 (v.toNat / 2 ^ (8 * k)) := by
  apply BitVec.eq_of_toNat_eq
  simp [byteOfWord, BitVec.extractLsb'_toNat, Nat.shiftRight_eq_div_pow]

/-- A store into a window of bytes puts the value's bytes there and leaves every other byte (R85). -/
theorem writeLE_bytesStored (hm : p.mem.wf = true) (ht : q.mem = p.mem.writeLE pa.toNat n v) :
    BytesStored p q pa n v := by
  constructor
  · intro k hk
    rw [ht, Memory.read_writeLE _ _ _ _ hm, if_pos (by omega), byteOfWord_eq]
    congr 4; omega
  · intro a ha
    rw [ht, Memory.read_writeLE _ _ _ _ hm, if_neg (by simpa [InAccess] using ha)]

end Sys2Proof.Machine
end

