-- ==== Sys2Proof/Laws/Decode.lean ====
section
/-! SUPPORT. The fields of an encoded word, and the lookups of an allowed numbering. -/

namespace Sys2Proof

/-! ### Fields of the packed formats (R153 to R158) -/

variable (op : BitVec 6) (rD rA rB : RegIdx) (imm : BitVec 16) (p : BitVec 21) (f : BitVec 4) (sh : Shift) (b : SrcB)

/-- A field that lies wholly inside the low part of a concatenation. -/
theorem extract_append_low {n m : Nat} (x : BitVec n) (y : BitVec m) (lo len : Nat) (h : lo + len ≤ m) :
    (x ++ y).extractLsb' lo len = y.extractLsb' lo len := by
  apply BitVec.eq_of_getLsbD_eq
  intro i hi
  simp only [BitVec.getLsbD_extractLsb', BitVec.getLsbD_append]
  rw [if_pos (by omega)]

/-- A field that lies wholly inside the high part of a concatenation. -/
theorem extract_append_high {n m : Nat} (x : BitVec n) (y : BitVec m) (lo len : Nat) (h : m ≤ lo) :
    (x ++ y).extractLsb' lo len = x.extractLsb' (lo - m) len := by
  apply BitVec.eq_of_getLsbD_eq
  intro i hi
  simp only [BitVec.getLsbD_extractLsb', BitVec.getLsbD_append]
  rw [if_neg (by omega), show lo + i - m = lo - m + i by omega]

/-- The whole of a value. -/
theorem extract_all {n : Nat} (x : BitVec n) : x.extractLsb' 0 n = x := by simp

@[simp] theorem fMajor_packJ (m : BitVec 3) (t : BitVec 29) : fMajor (packJ m t) = m := by
  rw [fMajor, packJ, extract_append_low _ _ _ _ (by decide), extract_all]
@[simp] theorem fTarget29_packJ (m : BitVec 3) (t : BitVec 29) : fTarget29 (packJ m t) = t := by
  rw [fTarget29, packJ, extract_append_high _ _ _ _ (by decide)]; exact extract_all t

@[simp] theorem fOp_packB : fOp (packB op rD p) = op := by
  rw [fOp, packB, extract_append_low _ _ _ _ (by decide)]; exact extract_all op
@[simp] theorem fRD_packB : fRD (packB op rD p) = rD := by
  rw [fRD, packB, extract_append_high _ _ _ _ (by decide), extract_append_low _ _ _ _ (by decide)]
  exact extract_all rD
@[simp] theorem fDisp21_packB : fDisp21 (packB op rD p) = p := by
  rw [fDisp21, packB, extract_append_high _ _ _ _ (by decide), extract_append_high _ _ _ _ (by decide)]
  exact extract_all p

@[simp] theorem fOp_packI : fOp (packI op rD rA imm) = op := by
  rw [fOp, packI, extract_append_low _ _ _ _ (by decide)]; exact extract_all op
@[simp] theorem fRD_packI : fRD (packI op rD rA imm) = rD := by
  rw [fRD, packI, extract_append_high _ _ _ _ (by decide), extract_append_low _ _ _ _ (by decide)]
  exact extract_all rD
@[simp] theorem fRA_packI : fRA (packI op rD rA imm) = rA := by
  rw [fRA, packI, extract_append_high _ _ _ _ (by decide), extract_append_high _ _ _ _ (by decide),
    extract_append_low _ _ _ _ (by decide)]
  exact extract_all rA
@[simp] theorem fImm16_packI : fImm16 (packI op rD rA imm) = imm := by
  rw [fImm16, packI, extract_append_high _ _ _ _ (by decide), extract_append_high _ _ _ _ (by decide),
    extract_append_high _ _ _ _ (by decide)]
  exact extract_all imm

@[simp] theorem fOp_packR : fOp (packR f rD rA rB sh) = groupReg := by
  rw [fOp, packR, extract_append_low _ _ _ _ (by decide)]; exact extract_all groupReg
@[simp] theorem fRD_packR : fRD (packR f rD rA rB sh) = rD := by
  rw [fRD, packR, extract_append_high _ _ _ _ (by decide), extract_append_low _ _ _ _ (by decide)]
  exact extract_all rD
@[simp] theorem fRA_packR : fRA (packR f rD rA rB sh) = rA := by
  rw [fRA, packR, extract_append_high _ _ _ _ (by decide), extract_append_high _ _ _ _ (by decide),
    extract_append_low _ _ _ _ (by decide)]
  exact extract_all rA
@[simp] theorem fRB_packR : fRB (packR f rD rA rB sh) = rB := by
  rw [fRB, packR, extract_append_high _ _ _ _ (by decide), extract_append_high _ _ _ _ (by decide),
    extract_append_high _ _ _ _ (by decide), extract_append_low _ _ _ _ (by decide)]
  exact extract_all rB
@[simp] theorem fShamt_packR : fShamt (packR f rD rA rB sh) = sh.amount := by
  rw [fShamt, packR, extract_append_high _ _ _ _ (by decide), extract_append_high _ _ _ _ (by decide),
    extract_append_high _ _ _ _ (by decide), extract_append_high _ _ _ _ (by decide),
    extract_append_low _ _ _ _ (by decide)]
  exact extract_all sh.amount
@[simp] theorem fShtype_packR : fShtype (packR f rD rA rB sh) = sh.type.toBits := by
  rw [fShtype, packR, extract_append_high _ _ _ _ (by decide), extract_append_high _ _ _ _ (by decide),
    extract_append_high _ _ _ _ (by decide), extract_append_high _ _ _ _ (by decide),
    extract_append_high _ _ _ _ (by decide), extract_append_low _ _ _ _ (by decide)]
  exact extract_all sh.type.toBits
@[simp] theorem fFunct_packR : fFunct (packR f rD rA rB sh) = f := by
  rw [fFunct, packR, extract_append_high _ _ _ _ (by decide), extract_append_high _ _ _ _ (by decide),
    extract_append_high _ _ _ _ (by decide), extract_append_high _ _ _ _ (by decide),
    extract_append_high _ _ _ _ (by decide), extract_append_high _ _ _ _ (by decide)]
  exact extract_all f

@[simp] theorem ShiftType.ofBits_toBits (t : ShiftType) : ShiftType.ofBits t.toBits = t := by cases t <;> decide

@[simp] theorem fShift_packR : fShift (packR f rD rA rB sh) = sh := by simp [fShift]

@[simp] theorem SrcB.idx_reg : (SrcB.reg rB).idx = rB := rfl
@[simp] theorem SrcB.idx_shifted : (SrcB.shifted rB sh).idx = rB := rfl
@[simp] theorem SrcB.shiftBits_reg : (SrcB.reg rB).shiftBits = 0 := rfl
@[simp] theorem SrcB.shiftBits_shifted : (SrcB.shifted rB sh).shiftBits = sh.type.toBits ++ sh.amount := rfl

@[simp] theorem fOp_packG : fOp (packG op f rD rA b) = op := by
  rw [fOp, packG, extract_append_low _ _ _ _ (by decide)]; exact extract_all op
@[simp] theorem fRD_packG : fRD (packG op f rD rA b) = rD := by
  rw [fRD, packG, extract_append_high _ _ _ _ (by decide), extract_append_low _ _ _ _ (by decide)]
  exact extract_all rD
@[simp] theorem fRA_packG : fRA (packG op f rD rA b) = rA := by
  rw [fRA, packG, extract_append_high _ _ _ _ (by decide), extract_append_high _ _ _ _ (by decide),
    extract_append_low _ _ _ _ (by decide)]
  exact extract_all rA
@[simp] theorem fRB_packG : fRB (packG op f rD rA b) = b.idx := by
  rw [fRB, packG, extract_append_high _ _ _ _ (by decide), extract_append_high _ _ _ _ (by decide),
    extract_append_high _ _ _ _ (by decide), extract_append_low _ _ _ _ (by decide)]
  exact extract_all b.idx
@[simp] theorem fFunct_packG : fFunct (packG op f rD rA b) = f := by
  rw [fFunct, packG, extract_append_high _ _ _ _ (by decide), extract_append_high _ _ _ _ (by decide),
    extract_append_high _ _ _ _ (by decide), extract_append_high _ _ _ _ (by decide),
    extract_append_high _ _ _ _ (by decide)]
  exact extract_all f

/-- The shift fields of a group member's word are those packed into it (R156). -/
@[simp] theorem fShift_packG : fShift (packG op f rD rA (.shifted rB sh)) = sh := by
  have ht : fShtype (packG op f rD rA (.shifted rB sh)) = sh.type.toBits := by
    rw [fShtype, packG, extract_append_high _ _ _ _ (by decide), extract_append_high _ _ _ _ (by decide),
      extract_append_high _ _ _ _ (by decide), extract_append_high _ _ _ _ (by decide),
      extract_append_low _ _ _ _ (by decide), SrcB.shiftBits, extract_append_high _ _ _ _ (by decide)]
    exact extract_all sh.type.toBits
  have ha : fShamt (packG op f rD rA (.shifted rB sh)) = sh.amount := by
    rw [fShamt, packG, extract_append_high _ _ _ _ (by decide), extract_append_high _ _ _ _ (by decide),
      extract_append_high _ _ _ _ (by decide), extract_append_high _ _ _ _ (by decide),
      extract_append_low _ _ _ _ (by decide), SrcB.shiftBits, extract_append_low _ _ _ _ (by decide)]
    exact extract_all sh.amount
  rw [fShift, ht, ha, ShiftType.ofBits_toBits]
/-- An operand rB is read back from its word, where the encoding's group is the one it fits. -/
theorem srcB_packG {e : Encoding} {o : GrpOp} (h : e.srcOk o b = true) :
    (e.grpCode o).group.srcB (packG op f rD rA b) = b := by
  cases b <;> rw [Encoding.srcOk, beq_iff_eq] at h <;> rw [h, ExtGroup.srcB] <;> simp [SrcB.idx]
/-- What the decoder gives is one of the encoding's instructions. -/
theorem decodeGrp_wf (e : Encoding) (o : GrpOp) (w : Word) : (decodeGrp (e.grpCode o).group o w).wf e = true := by
  cases o <;> simp only [decodeGrp, Instr.wf, Encoding.srcOk] <;> cases (e.grpCode _).group <;> rfl

/-- The opcode's low three bits are the major field (R19). -/
theorem fMajor_of_fOp (w : Word) : fMajor w = (fOp w).setWidth 3 := by
  apply BitVec.eq_of_getLsbD_eq
  intro i hi
  simp only [fMajor, fOp, BitVec.getLsbD_extractLsb', BitVec.getLsbD_setWidth]
  have : i < 6 := by omega
  simp [hi, this]

/-! ### Lookups of an allowed numbering (R162) -/

/-- In a list without repeats under `g`, the element whose `g` is that of `a` is `a`. -/
theorem find_of_nodup {α β : Type} [DecidableEq β] {l : List α} {g : α → β} (h : (l.map g).Nodup) {a : α}
    (ha : a ∈ l) : l.find? (fun o => g o == g a) = some a := by
  induction l with
  | nil => cases ha
  | cons b l ih =>
    rw [List.map_cons, List.nodup_cons] at h
    rw [List.find?_cons]
    by_cases hb : g b = g a
    · have : b = a := by
        rcases List.mem_cons.mp ha with rfl | hl
        · rfl
        · exact absurd (List.mem_map.mpr ⟨a, hl, hb.symm⟩) h.1
      simp [this]
    · have hl : a ∈ l := by
        rcases List.mem_cons.mp ha with rfl | hl
        · exact absurd rfl hb
        · exact hl
      have hf : (g b == g a) = false := by simp [hb]
      rw [hf]
      exact ih h.2 hl

theorem MajorOp.mem_all (o : MajorOp) : o ∈ MajorOp.all := by cases o <;> decide
theorem RegOp.mem_all (o : RegOp) : o ∈ RegOp.all := by cases o <;> decide
theorem GrpOp.mem_all (o : GrpOp) : o ∈ GrpOp.all := by cases o <;> decide
theorem PrivOp.mem_all (o : PrivOp) : o ∈ PrivOp.all := by cases o <;> decide

variable {e : Encoding} (he : e.wf = true)
include he

theorem Encoding.findMajor_opcode (o : MajorOp) : e.findMajor (e.opcode o) = some o := by
  simp only [Encoding.wf, Encoding.opcodesWf, Bool.and_eq_true, decide_eq_true_eq] at he
  exact find_of_nodup he.1.1.1.1 o.mem_all
theorem Encoding.findReg_funct (o : RegOp) : e.findReg (e.regFunct o) = some o := by
  simp only [Encoding.wf, Encoding.regWf, Bool.and_eq_true, decide_eq_true_eq] at he
  exact find_of_nodup he.1.1.2.1 o.mem_all
theorem Encoding.findGrp_code (o : GrpOp) : e.findGrp (e.grpCode o).group (e.grpCode o).funct = some o := by
  simp only [Encoding.wf, Encoding.grpWf, Bool.and_eq_true, decide_eq_true_eq] at he
  exact find_of_nodup he.1.2.1 o.mem_all

/-- R162 (a): one of the eight that is in group 0x39 has no function code of a format R member. -/
theorem Encoding.findReg_grpCode (o : GrpOp) (hg : (e.grpCode o).group = .reg) :
    e.findReg (e.grpCode o).funct = none := by
  simp only [Encoding.wf, Encoding.grpWf, Bool.and_eq_true, List.all_eq_true] at he
  have := he.1.2.2 o o.mem_all
  simp only [hg, Bool.or_eq_true, beq_iff_eq, reduceCtorEq, false_or, List.all_eq_true, bne_iff_ne] at this
  exact List.find?_eq_none.mpr fun r hr => by simpa using this r hr

theorem Encoding.findPriv_funct (o : PrivOp) : e.findPriv (e.privFunct o) = some o := by
  simp only [Encoding.wf, Encoding.privWf, Bool.and_eq_true, decide_eq_true_eq] at he
  exact find_of_nodup he.2 o.mem_all

/-- R162 (b): what an allowed opcode is not. -/
theorem Encoding.opcode_free (o : MajorOp) :
    (e.opcode o).setWidth 3 ≠ 6 ∧ (e.opcode o).setWidth 3 ≠ 7 ∧ e.opcode o ≠ groupReg ∧
      e.opcode o ≠ groupGrp ∧ e.opcode o ≠ groupPriv := by
  simp only [Encoding.wf, Encoding.opcodesWf, Bool.and_eq_true, List.all_eq_true] at he
  have := he.1.1.1.2 o o.mem_all
  simpa [opcodeFree, and_assoc] using this

/-! ### What the decoder answers (R151) -/

omit he in
theorem decode_j (e : Encoding) {w : Word} (h : fMajor w = 6) : decode e w = .ok (.j (fTarget29 w)) := by
  rw [decode, if_pos h]

omit he in
theorem decode_jal (e : Encoding) {w : Word} (h : fMajor w = 7) : decode e w = .ok (.jal (fTarget29 w)) := by
  rw [decode, if_neg (by rw [h]; decide), if_pos h]

omit he in
/-- A group's low three bits are neither of the majors of J and JAL. -/
theorem decode_group {w : Word} {g : BitVec 6} (h : fOp w = g)
    (hg : g = groupReg ∨ g = groupGrp ∨ g = groupPriv) : fMajor w ≠ 6 ∧ fMajor w ≠ 7 := by
  rw [fMajor_of_fOp, h]
  rcases hg with rfl | rfl | rfl <;> decide

omit he in
theorem decode_reg (e : Encoding) {w : Word} (h : fOp w = groupReg) :
    decode e w = match e.findReg (fFunct w) with
      | some o => .ok (decodeReg o w)
      | none =>
        match e.findGrp .reg (fFunct w) with
        | some o => .ok (decodeGrp .reg o w)
        | none => .error (.unusedRegFunct (fFunct w)) := by
  obtain ⟨h6, h7⟩ := decode_group h (.inl rfl)
  rw [decode, if_neg h6, if_neg h7, if_pos h]
  all_goals cases e.findReg (fFunct w) <;> [cases e.findGrp .reg (fFunct w) <;> rfl; rfl]

omit he in
theorem decode_grp (e : Encoding) {w : Word} (h : fOp w = groupGrp) :
    decode e w = match e.findGrp .grp (fFunct w) with
      | some o => .ok (decodeGrp .grp o w)
      | none => .error (.unusedGrpFunct (fFunct w)) := by
  obtain ⟨h6, h7⟩ := decode_group h (.inr (.inl rfl))
  rw [decode, if_neg h6, if_neg h7, if_neg (by rw [h]; decide), if_pos h]
  all_goals cases e.findGrp .grp (fFunct w) <;> rfl

omit he in
theorem decode_priv (e : Encoding) {w : Word} (h : fOp w = groupPriv) :
    decode e w = match e.findPriv (fFunct w) with
      | some o => .ok (decodePriv o w)
      | none => .error (.unusedPrivFunct (fFunct w)) := by
  obtain ⟨h6, h7⟩ := decode_group h (.inr (.inr rfl))
  rw [decode, if_neg h6, if_neg h7, if_neg (by rw [h]; decide), if_neg (by rw [h]; decide), if_pos h]
  all_goals cases e.findPriv (fFunct w) <;> rfl

theorem decode_regOp (o : RegOp) {w : Word} (h : fOp w = groupReg) (hf : fFunct w = e.regFunct o) :
    decode e w = .ok (decodeReg o w) := by
  rw [decode_reg e h, hf, e.findReg_funct he]

/-- A word of one of the eight instructions, in whichever group its encoding puts it (R162 (e)). -/
theorem decode_grpOp (o : GrpOp) {w : Word} (h : fOp w = (e.grpCode o).group.code)
    (hf : fFunct w = (e.grpCode o).funct) : decode e w = .ok (decodeGrp (e.grpCode o).group o w) := by
  have hfind := e.findGrp_code he o
  cases hg : (e.grpCode o).group with
  | reg =>
    rw [hg] at h hfind
    rw [decode_reg e h, hf, e.findReg_grpCode he o hg, hfind]
  | grp =>
    rw [hg] at h hfind
    rw [decode_grp e h, hf, hfind]

theorem decode_privOp (o : PrivOp) {w : Word} (h : fOp w = groupPriv) (hf : fFunct w = e.privFunct o) :
    decode e w = .ok (decodePriv o w) := by
  rw [decode_priv e h, hf, e.findPriv_funct he]

theorem decode_majorOp (o : MajorOp) {w : Word} (h : fOp w = e.opcode o) : decode e w = .ok (decodeMajor o w) := by
  obtain ⟨h6, h7, hr, hg, hp⟩ := e.opcode_free he o
  rw [decode, if_neg (by rw [fMajor_of_fOp, h]; exact h6), if_neg (by rw [fMajor_of_fOp, h]; exact h7),
    if_neg (by rw [h]; exact hr), if_neg (by rw [h]; exact hg), if_neg (by rw [h]; exact hp), h,
    e.findMajor_opcode he]

end Sys2Proof
end

