-- ==== Sys2Proof/Laws/Devices.lean ====
section
/-! SUPPORT. What the operations of the LSIC do to one vector's bits (R410 to R415), and what bytes a placed list and a
store leave. -/

namespace Sys2Proof.Machine

/-- A block count that fits port_b is given as it is (R471). -/
theorem DiskImage.countWord_of_lt {i : DiskImage} (h : i.size / 512 < 2 ^ 32) :
    i.countWord = BitVec.ofNat 32 (i.size / 512) := if_pos h

/-! ### The LSIC's bits -/

/-- The bit of a vector is the one at the vector's place in its word (R410). -/
theorem vectorBit_getLsbD {v k : Nat} (hk : k < 32) : (vectorBit v).getLsbD k = decide (k = v % 32) := by
  rw [vectorBit, BitVec.getLsbD_ofNat, Nat.testBit_two_pow]
  by_cases h : v % 32 = k
  · simp [h, hk]
  · have : ¬ k = v % 32 := fun e => h e.symm
    simp [h, this]

/-- `PEND(r) <- 1` sets that bit and no other, and no mask. -/
theorem Lsic.setPend_bits (l : Lsic) {r v : Nat} (hr : r < 64) (hv : v < 64) :
    (l.setPend r).pending v = (l.pending v || decide (v = r)) ∧ (l.setPend r).masked v = l.masked v := by
  unfold Lsic.setPend Lsic.pending Lsic.masked
  by_cases h1 : r < 32 <;> by_cases h2 : v < 32 <;> simp only [h1, h2, if_true, if_false, and_true]
  · rw [BitVec.getLsbD_or, vectorBit_getLsbD h2, Nat.mod_eq_of_lt h1]
  · rw [show decide (v = r) = false by simp; omega, Bool.or_false]
  · rw [show decide (v = r) = false by simp; omega, Bool.or_false]
  · rw [BitVec.getLsbD_or, vectorBit_getLsbD (by omega),
      show decide (v - 32 = r % 32) = decide (v = r) by congr 1; apply propext; omega]

/-- `PEND(r) <- 0` clears that bit and no other, and no mask. -/
theorem Lsic.clearPend_bits (l : Lsic) {r v : Nat} (hr : r < 64) (hv : v < 64) :
    (l.clearPend r).pending v = (l.pending v && decide (v ≠ r)) ∧ (l.clearPend r).masked v = l.masked v := by
  unfold Lsic.clearPend Lsic.pending Lsic.masked
  by_cases h1 : r < 32 <;> by_cases h2 : v < 32 <;> simp only [h1, h2, if_true, if_false, and_true]
  · rw [BitVec.getLsbD_and, BitVec.getLsbD_not, vectorBit_getLsbD h2, Nat.mod_eq_of_lt h1]; simp [h2]
  · rw [show decide (v ≠ r) = true by simp; omega, Bool.and_true]
  · rw [show decide (v ≠ r) = true by simp; omega, Bool.and_true]
  · have h3 : v - 32 < 32 := by omega
    rw [BitVec.getLsbD_and, BitVec.getLsbD_not, vectorBit_getLsbD h3,
      show decide (v - 32 = r % 32) = decide (v = r) by congr 1; apply propext; omega]
    simp [h3]

/-- A claim is 0 where no vector of 1..63 is pending and unmasked, else the lowest such vector (R413). -/
theorem Lsic.claim_cases (l : Lsic) :
    (l.claim = 0 ∧ ∀ v, 1 ≤ v → v ≤ 63 → ¬ (l.pending v = true ∧ l.masked v = false)) ∨
      (1 ≤ l.claim ∧ l.claim ≤ 63 ∧ l.pending l.claim = true ∧ l.masked l.claim = false ∧
        ∀ v, 1 ≤ v → v < l.claim → ¬ (l.pending v = true ∧ l.masked v = false)) := by
  unfold Lsic.claim
  cases h : (List.range' 1 63).find? (fun v => l.pending v && !l.masked v) with
  | none =>
    refine .inl ⟨rfl, fun v h1 h2 hh => ?_⟩
    have := List.find?_eq_none.mp h v (by simp [List.mem_range'_1]; omega)
    simp [hh] at this
  | some a =>
    have h1 := List.find?_some h
    have h2 := List.mem_of_find?_eq_some h
    simp only [List.mem_range'_1, Bool.and_eq_true, Bool.not_eq_true'] at h1 h2
    refine .inr ⟨h2.1, by simp only [Option.getD_some]; omega, h1.1, h1.2, fun v hv1 hv2 hh => ?_⟩
    obtain ⟨_, as, bs, hsplit, hall⟩ := List.find?_eq_some_iff_append.mp h
    have hmem : v ∈ as ++ a :: bs := by
      rw [← hsplit, List.mem_range'_1]
      simp only [Option.getD_some] at hv2
      omega
    have hpw : (as ++ a :: bs).Pairwise (· < ·) := by rw [← hsplit]; exact List.pairwise_lt_range'
    rw [List.pairwise_append] at hpw
    simp only [List.mem_append, List.mem_cons] at hmem
    rcases hmem with hm | rfl | hm
    · have := hall v hm
      simp [hh] at this
    · simp at hv2
    · have := (List.pairwise_cons.mp hpw.2.1).1 v hm
      simp only [Option.getD_some] at hv2
      omega

/-- The signal is some pending unmasked bit of either word (R416). -/
theorem Lsic.signal_iff (l : Lsic) :
    l.signal = true ↔ ∃ k, k < 32 ∧ ((l.pend0.getLsbD k = true ∧ l.mask0.getLsbD k = false) ∨
      (l.pend1.getLsbD k = true ∧ l.mask1.getLsbD k = false)) := by
  unfold Lsic.signal
  rw [bne_iff_ne]
  constructor
  · intro h
    by_contra hh
    apply h
    apply BitVec.eq_of_getLsbD_eq
    intro k hk
    have := fun x => hh ⟨k, hk, x⟩
    simp only [BitVec.getLsbD_or, BitVec.getLsbD_and, BitVec.getLsbD_not, hk, decide_true, Bool.true_and]
    grind
  · rintro ⟨k, hk, h⟩ he
    have := congrArg (fun x : Word => x.getLsbD k) he
    simp only [BitVec.getLsbD_or, BitVec.getLsbD_and, BitVec.getLsbD_not, hk, decide_true, Bool.true_and] at this
    grind

/-! ### Bytes -/

/-- Above every listed address memory reads as unlisted. -/
theorem Memory.read_above {m : Memory} {k : Nat} (h : ∀ c ∈ m, c.1 < k) : m.read k = Memory.unlisted := by
  induction m with
  | nil => rfl
  | cons c m ih =>
    obtain ⟨a, b⟩ := c
    have h1 : a < k := h (a, b) List.mem_cons_self
    simp only [Memory.read]
    rw [if_neg (by omega), if_neg (by omega)]
    exact ih (fun c hc => h c (List.mem_cons_of_mem _ hc))

/-- Reading after placing a list of bytes: the list's byte inside it, else as before. -/
theorem Memory.read_place {m : Memory} (a : Nat) (bs : List Byte) (j : Nat) (h : m.wf = true) :
    (m.place a bs).read j = if hj : a ≤ j ∧ j < a + bs.length then bs[j - a]'(by omega) else m.read j := by
  induction bs generalizing m a with
  | nil => rw [dif_neg (by simp)]; rfl
  | cons b bs ih =>
    rw [Memory.place, ih (a + 1) (Memory.wf_write _ _ h), Memory.read_write _ _ _ h]
    by_cases h1 : a + 1 ≤ j ∧ j < a + 1 + bs.length
    · rw [dif_pos h1, dif_pos (by simp only [List.length_cons]; omega)]
      have : j - a = (j - (a + 1)) + 1 := by omega
      simp [this]
    · rw [dif_neg h1]
      by_cases h2 : j = a
      · subst h2; rw [if_pos rfl, dif_pos (by simp)]; simp
      · rw [if_neg h2, dif_neg (by simp only [List.length_cons]; omega)]

/-- A read of a window as the number of its bytes (R85). -/
theorem readLE_eq (m : Memory) (pa : Word) (n : Width) :
    m.readLE pa.toNat n = BitVec.ofNat 32 (bytesValue m pa n) := by
  rw [← readLE_toNat, BitVec.ofNat_toNat, BitVec.setWidth_eq]

/-- The low bytes of a value as a number (R92). -/
theorem Width.trunc_eq (n : Width) (v : Word) : n.trunc v = BitVec.ofNat 32 (v.toNat % 2 ^ (8 * n.bytes)) := by
  apply BitVec.eq_of_toNat_eq
  have := v.isLt
  cases n
  · simp [Width.trunc, Width.bytes]
  · simp [Width.trunc, Width.bytes]
  · simp only [Width.trunc, Width.bytes, BitVec.toNat_ofNat]
    omega

/-- The bytes stored give the value's low bytes back (R85). -/
theorem BytesStored.value {p q : Platform} {pa : Word} {n : Width} {v : Word} (h : BytesStored p q pa n v) :
    bytesValue q.mem pa n = v.toNat % 2 ^ (8 * n.bytes) := by
  have hv := v.isLt
  have hs := h.stored
  cases n
  · have h0 := hs 0 (by decide)
    simp only [Nat.mul_zero, Nat.pow_zero, Nat.div_one, Nat.add_zero] at h0
    simp [bytesValue, h0, Width.bytes]
  · have h0 := hs 0 (by decide)
    have h1 := hs 1 (by decide)
    simp only [Nat.mul_zero, Nat.pow_zero, Nat.div_one, Nat.add_zero, Nat.mul_one] at h0 h1
    simp [bytesValue, h0, h1, Width.bytes]
    omega
  · have h0 := hs 0 (by decide)
    have h1 := hs 1 (by decide)
    have h2 := hs 2 (by decide)
    have h3 := hs 3 (by decide)
    simp only [Nat.mul_zero, Nat.pow_zero, Nat.div_one, Nat.add_zero, Nat.mul_one] at h0 h1 h2 h3
    simp [bytesValue, h0, h1, h2, h3, Width.bytes]
    omega

end Sys2Proof.Machine
end

