-- ==== Sys2Proof/Laws/Platform.lean ====
section
/-! SUPPORT. What the devices, the ports and the host's calls leave: memory, the disk images, and the platform's
invariants (`Platform.Wf`). -/

namespace Sys2Proof.Machine

variable {c : Config} {p q : Platform}

/-! ### What the operations of one device leave of the others -/

@[simp] theorem raiseIrq_mem (p : Platform) (v : Nat) : (p.raiseIrq v).mem = p.mem := rfl
@[simp] theorem raiseIrq_disk (p : Platform) (v : Nat) : (p.raiseIrq v).disk = p.disk := rfl
@[simp] theorem raiseIrq_hub (p : Platform) (v : Nat) : (p.raiseIrq v).hub = p.hub := rfl
@[simp] theorem raiseIrq_kbd (p : Platform) (v : Nat) : (p.raiseIrq v).kbd = p.kbd := rfl

@[simp] theorem rtcNow_mem (p : Platform) : p.rtcNow.2.mem = p.mem := by unfold Platform.rtcNow; split <;> rfl
@[simp] theorem rtcNow_disk (p : Platform) : p.rtcNow.2.disk = p.disk := by unfold Platform.rtcNow; split <;> rfl
@[simp] theorem rtcNow_hub (p : Platform) : p.rtcNow.2.hub = p.hub := by unfold Platform.rtcNow; split <;> rfl
@[simp] theorem rtcNow_kbd (p : Platform) : p.rtcNow.2.kbd = p.kbd := by unfold Platform.rtcNow; split <;> rfl

/-- An RTC command changes the RTC only (and the count of clock reads). -/
theorem rtcCommand_keeps (mode : RtcMsMode) (p : Platform) (v : Word) :
    (p.rtcCommand mode v).mem = p.mem ∧ (p.rtcCommand mode v).disk = p.disk ∧
      (p.rtcCommand mode v).hub = p.hub ∧ (p.rtcCommand mode v).kbd = p.kbd := by
  unfold Platform.rtcCommand
  split <;> (try split) <;> simp [Platform.rtcGive, Platform.rtcOverride]

/-- A hub action changes the hub and the keyboard only. -/
theorem hubAction_keeps (scan : KbdScan) (p : Platform) (v : Word) :
    (p.hubAction scan v).mem = p.mem ∧ (p.hubAction scan v).disk = p.disk := by
  unfold Platform.hubAction Platform.hubCtrlAction Platform.hubReset
  repeat' split
  all_goals simp

/-- A write to hub port 0x33 or 0x34 changes no line and no key. -/
theorem hubSetPortA_keeps (p : Platform) (v : Word) :
    (p.hubSetPortA v).mem = p.mem ∧ (p.hubSetPortA v).disk = p.disk ∧ (p.hubSetPortA v).hub.lines = p.hub.lines ∧
      (p.hubSetPortA v).kbd.isPressed = p.kbd.isPressed ∧
      (p.hubSetPortA v).kbd.outstandingPress = p.kbd.outstandingPress ∧
      (p.hubSetPortA v).kbd.outstandingRelease = p.kbd.outstandingRelease := by
  unfold Platform.hubSetPortA
  split <;> simp

theorem hubSetPortB_keeps (p : Platform) (v : Word) :
    (p.hubSetPortB v).mem = p.mem ∧ (p.hubSetPortB v).disk = p.disk ∧ (p.hubSetPortB v).hub.lines = p.hub.lines ∧
      (p.hubSetPortB v).kbd.isPressed = p.kbd.isPressed ∧
      (p.hubSetPortB v).kbd.outstandingPress = p.kbd.outstandingPress ∧
      (p.hubSetPortB v).kbd.outstandingRelease = p.kbd.outstandingRelease := by
  unfold Platform.hubSetPortB
  split <;> simp

@[simp] theorem diskWriteInfo_mem (p : Platform) (a b : Word) : (p.diskWriteInfo a b).mem = p.mem := by
  unfold Platform.diskWriteInfo; simp only; split <;> rfl
@[simp] theorem diskWriteInfo_hub (p : Platform) (a b : Word) : (p.diskWriteInfo a b).hub = p.hub := by
  unfold Platform.diskWriteInfo; simp only; split <;> rfl
@[simp] theorem diskWriteInfo_kbd (p : Platform) (a b : Word) : (p.diskWriteInfo a b).kbd = p.kbd := by
  unfold Platform.diskWriteInfo; simp only; split <;> rfl
@[simp] theorem diskWriteInfo_images (p : Platform) (a b : Word) :
    (p.diskWriteInfo a b).disk.images = p.disk.images := by
  unfold Platform.diskWriteInfo; simp only; split <;> rfl
@[simp] theorem diskWriteInfo_selected (p : Platform) (a b : Word) :
    (p.diskWriteInfo a b).disk.selected = p.disk.selected := by
  unfold Platform.diskWriteInfo; simp only; split <;> rfl

/-- A disk command leaves the hub and the keyboard, and all of memory but what command 2 copies into the buffer (R471). -/
theorem diskCommand_keeps (p : Platform) (v : Word) :
    (p.diskCommand v).hub = p.hub ∧ (p.diskCommand v).kbd = p.kbd ∧
      ((p.diskCommand v).mem = p.mem ∨
        ∃ src sa, (p.diskCommand v).mem = p.mem.copy dbufBase src sa 512) := by
  unfold Platform.diskCommand
  split
  case h_2 =>
    unfold Platform.diskRead
    split
    · simp
    · rename_i img _
      exact ⟨by simp, by simp, .inr ⟨img.bytes, p.disk.portA.toNat * 512, by simp⟩⟩
  case h_3 =>
    unfold Platform.diskWrite
    split <;> simp
  all_goals simp

/-- A selected target is an image, and the block lies inside it (R471, R475). -/
theorem Disk.target_some {d : Disk} {i : Nat} {img : DiskImage} (h : d.target = some (i, img)) :
    d.selected = some i ∧ d.images[i]? = some img ∧ d.portA.toNat < img.size / 512 := by
  unfold Disk.target DiskImage.blockCount at h
  grind

/-! ### Memory after a bus write -/

/-- What a bus write does to memory: nothing; the bytes of a window; or the disk buffer, by a disk command. -/
theorem busWrite_mem {pa : Word} {n : Width} {v : Word} (h : busWrite c p pa n v = some q) :
    q.mem = p.mem ∨ (Writable c pa n ∧ q.mem = p.mem.writeLE pa.toNat n v) ∨
      (DiskCommandPort pa ∧ ∃ src sa, q.mem = p.mem.copy dbufBase src sa 512) := by
  have hl := pa.isLt
  have hb := n.bytes_cases
  by_cases h0 : pa.toNat < 0x10000000
  · rw [busWrite_ram h0] at h
    split at h
    · cases h; exact .inr (.inl ⟨.inl ⟨h0, by assumption⟩, rfl⟩)
    · cases h
  by_cases h31 : 0xF8000000 ≤ pa.toNat
  · rw [busWrite_area31 h31, boardWrite] at h
    have hr := regionOf_bounds c (pa.toNat - 0xF8000000)
    split at h
    · -- the ports
      rename_i heq
      have ho := hr.1 heq
      unfold portWrite at h
      split at h
      case h_5 =>
        cases h
        have := diskCommand_keeps p (n.trunc v)
        rcases this.2.2 with hm | hm
        · exact .inl hm
        · exact .inr (.inr ⟨⟨by omega, by omega⟩, hm⟩)
      case h_8 => cases h; exact .inl (rtcCommand_keeps ..).1
      case h_12 => cases h; exact .inl (hubAction_keeps ..).1
      case h_13 => cases h; exact .inl (hubSetPortA_keeps ..).1
      case h_14 => cases h; exact .inl (hubSetPortB_keeps ..).1
      case h_15 => cases h
      all_goals cases h; exact .inl rfl
    · split at h
      · cases h
        left
        unfold boardRegWrite
        split
        · rfl
        · split <;> rfl
      · cases h
    · rename_i heq
      have ho := hr.2.2.1 heq
      split at h
      · rename_i hw
        have hw := of_decide_eq_true hw
        cases h
        exact .inr (.inl ⟨.inr (.inl ⟨by omega, by omega⟩), rfl⟩)
      · cases h
    · rename_i heq
      have ho := hr.2.2.2.1 heq
      split at h
      · rename_i hw
        have hw := of_decide_eq_true hw
        cases h
        exact .inr (.inl ⟨.inr (.inr ⟨by omega, by omega⟩), rfl⟩)
      · cases h
    · split at h
      · obtain ⟨l, _, rfl⟩ := Option.map_eq_some_iff.mp h
        exact .inl rfl
      · cases h
    · split at h
      · split at h <;> (cases h; exact .inl rfl)
      · cases h
    · split at h <;> (cases h; try exact .inl rfl)
    · cases h
  · have ha : areaOf pa = pa.toNat / 2 ^ 27 := areaOf_eq pa
    have h1 : ¬ areaOf pa ≤ 1 := by omega
    have h2 : ¬ areaOf pa = 31 := by omega
    simp only [busWrite, h1, h2, if_false] at h
    left
    repeat' split at h
    all_goals (try cases h)
    all_goals (try rfl)
    simp only [fbWrite] at h
    split at h <;> cases h
    rfl

/-- A bus write leaves every byte outside its own bytes, but for the disk buffer under a disk command. -/
theorem busWrite_read {pa : Word} {n : Width} {v : Word} (h : busWrite c p pa n v = some q) (hm : p.mem.wf = true)
    (a : Nat) (h1 : ¬ (Writable c pa n ∧ InAccess pa n a)) (h2 : ¬ (DiskCommandPort pa ∧ InDiskBuffer a)) :
    q.mem.read a = p.mem.read a := by
  rcases busWrite_mem h with e | ⟨hw, e⟩ | ⟨hd, src, sa, e⟩
  · rw [e]
  · rw [e, Memory.read_writeLE _ _ _ _ hm, if_neg (fun hx : pa.toNat ≤ a ∧ a < pa.toNat + n.bytes => h1 ⟨hw, hx⟩)]
  · rw [e, Memory.read_copy _ _ _ _ _ hm]
    apply if_neg
    rintro ⟨ha, hb⟩
    exact h2 ⟨hd, by simp only [dbufBase] at ha; omega, by simp only [dbufBase] at hb; omega⟩

/-! ### The invariants -/

/-- A write of one byte lists addresses that were listed, and its own. -/
theorem Memory.mem_write {m : Memory} {k : Nat} {v : Byte} {x : Host.Cell} (h : x ∈ m.write k v) :
    x ∈ m ∨ x.1 = k := by
  induction m with
  | nil => simp only [Memory.write] at h; split at h <;> simp_all
  | cons y m ih =>
    obtain ⟨a, b⟩ := y
    simp only [Memory.write] at h
    grind

/-- A block copy lists addresses that were listed, and those of the block. -/
theorem Memory.mem_copy {m src : Memory} {da sa n : Nat} {x : Host.Cell} (h : x ∈ m.copy da src sa n) :
    x ∈ m ∨ (da ≤ x.1 ∧ x.1 < da + n) := by
  induction n generalizing m da sa with
  | zero => exact .inl h
  | succ n ih =>
    rcases ih h with h | h
    · rcases Memory.mem_write h with h | h
      · exact .inl h
      · exact .inr ⟨by omega, by omega⟩
    · exact .inr ⟨by omega, by omega⟩

/-- A platform with the same memory, disk, lines and keys keeps the invariants. -/
theorem Platform.Wf.congr (h : p.Wf) (hm : q.mem = p.mem) (hd : q.disk.images = p.disk.images)
    (hs : q.disk.selected = p.disk.selected) (hl : q.hub.lines = p.hub.lines)
    (h1 : q.kbd.isPressed = p.kbd.isPressed) (h2 : q.kbd.outstandingPress = p.kbd.outstandingPress)
    (h3 : q.kbd.outstandingRelease = p.kbd.outstandingRelease) : q.Wf := by
  constructor
  · rw [hm]; exact h.mem
  · rw [hd]; exact h.images
  · rw [hd]; exact h.count
  · unfold Disk.SelectedWf; rw [hd, hs]; exact h.selected
  · unfold Hub.LinesWf; rw [hl]; exact h.lines
  · unfold Keyboard.ZeroUnset; simp only [h1, h2, h3]; exact h.keys

/-- Raising a vector keeps the invariants. -/
theorem Platform.Wf.raiseIrq (h : p.Wf) (v : Nat) : (p.raiseIrq v).Wf :=
  h.congr rfl rfl rfl rfl rfl rfl rfl

/-- The hub's reset keeps the invariants (R488, R489). -/
theorem Platform.Wf.hubReset (h : p.Wf) : p.hubReset.Wf where
  mem := h.mem
  images := h.images
  count := h.count
  selected := h.selected
  lines := fun d => .inl (by simp [Platform.hubReset, Hub.reset])
  keys := by simp [Keyboard.ZeroUnset, Platform.hubReset, Keyboard.reset]

/-- Setting a slot's line to 0 or to its vector keeps the lines' invariant (R476). -/
theorem Hub.LinesWf.setLine {h : Hub} (hw : h.LinesWf) (d : Word) (line : Nat)
    (hl : line = 0 ∨ line = 48 + d.toNat) : (h.setLine d line).LinesWf := by
  unfold Hub.setLine
  split
  · intro e
    have he := hw e
    simp only [Vector.getElem_set]
    split
    · rename_i hd
      rcases hl with hl | hl
      · exact .inl hl
      · right; omega
    · exact he
  · exact hw

/-- The controller's action keeps the invariants (R476). -/
theorem Platform.Wf.hubCtrlAction (h : p.Wf) (v : Word) : (p.hubCtrlAction v).Wf := by
  unfold Platform.hubCtrlAction
  split
  · exact h
  split
  · exact ⟨h.mem, h.images, h.count, h.selected, h.lines.setLine _ _ (.inr rfl), h.keys⟩
  · exact h.hubReset
  · exact ⟨h.mem, h.images, h.count, h.selected, h.lines.setLine _ _ (.inl rfl), h.keys⟩
  · exact h

/-- Giving out an event sets no key (R478). -/
theorem Keyboard.ZeroUnset.takeRelease {k : Keyboard} (h : k.ZeroUnset) (i : Fin 86) :
    (k.takeRelease i).ZeroUnset := by
  obtain ⟨h1, h2, h3⟩ := h
  refine ⟨h1, ?_, ?_⟩ <;> simp only [Keyboard.takeRelease, Vector.getElem_set] <;> split <;> first | rfl | assumption

theorem Keyboard.ZeroUnset.takePress {k : Keyboard} (h : k.ZeroUnset) (i : Fin 86) : (k.takePress i).ZeroUnset := by
  obtain ⟨h1, h2, h3⟩ := h
  refine ⟨h1, ?_, h3⟩
  simp only [Keyboard.takePress, Vector.getElem_set]
  split <;> first | rfl | assumption

/-- A keyboard action keeps code 0 unset (R477, R478, R489). -/
theorem Keyboard.ZeroUnset.action {k : Keyboard} (h : k.ZeroUnset) (scan : KbdScan) (v : Word) :
    (k.action scan v).ZeroUnset := by
  unfold Keyboard.action
  split
  · unfold Keyboard.nextEvent
    repeat' split
    all_goals first
      | exact h.takeRelease _
      | exact h.takePress _
      | exact ⟨h.1, h.2.1, h.2.2⟩
  · simp [Keyboard.ZeroUnset, Keyboard.reset]
  · unfold Keyboard.isDown
    split
    · exact ⟨h.1, h.2.1, h.2.2⟩
    · exact h
  · exact h

/-- A hub action keeps the invariants (R487). -/
theorem Platform.Wf.hubAction (h : p.Wf) (scan : KbdScan) (v : Word) : (p.hubAction scan v).Wf := by
  unfold Platform.hubAction
  split
  · exact h.hubCtrlAction v
  · exact ⟨h.mem, h.images, h.count, h.selected, h.lines, h.keys.action scan v⟩
  · exact h

/-- Another canonical memory keeps the invariants. -/
theorem Platform.Wf.withMem (h : p.Wf) {m : Memory} (hm : m.wf = true) : Platform.Wf { p with mem := m } :=
  ⟨hm, h.images, h.count, h.selected, h.lines, h.keys⟩

/-- Another image in a drive keeps the invariants. -/
theorem Platform.Wf.withImage (h : p.Wf) {img : DiskImage} (hi : img.Wf) (i : Nat) :
    Platform.Wf { p with disk := { p.disk with images := p.disk.images.set i img } } := by
  refine ⟨h.mem, ?_, by simpa using h.count, ?_, h.lines, h.keys⟩
  · intro j hj
    rcases List.mem_or_eq_of_mem_set hj with hj | rfl
    · exact h.images j hj
    · exact hi
  · intro k hk
    simpa using h.selected k hk

/-- Storing the info keeps the invariants (R472). -/
theorem Platform.Wf.diskWriteInfo (h : p.Wf) (a b : Word) : (p.diskWriteInfo a b).Wf :=
  h.congr (by simp) (by simp) (by simp) (by simp) (by simp) (by simp) (by simp)

/-- An image with a block inside it replaced is canonical and lies below its size (R471). -/
theorem DiskImage.Wf.copyBlock {img : DiskImage} (h : img.Wf) {src : Memory} {a sa n : Nat}
    (hn : a + n ≤ img.size) : DiskImage.Wf { img with bytes := img.bytes.copy a src sa n } := by
  refine ⟨Memory.wf_copy _ _ _ _ h.1, fun x hx => ?_⟩
  rcases Memory.mem_copy hx with hx | ⟨_, hx⟩
  · exact h.2 x hx
  · exact Nat.lt_of_lt_of_le hx hn

/-- Select keeps a drive that exists (R471). -/
theorem Platform.Wf.diskSelect (h : p.Wf) :
    Platform.Wf { p with disk := { p.disk with
      selected := if p.disk.portA.toNat < p.disk.images.length then some p.disk.portA.toNat else none } } := by
  refine ⟨h.mem, h.images, h.count, ?_, h.lines, h.keys⟩
  intro i hi
  simp only at hi
  split at hi <;> simp_all

/-- A disk command keeps the invariants (R471). -/
theorem Platform.Wf.diskCommand (h : p.Wf) (v : Word) : (p.diskCommand v).Wf := by
  unfold Platform.diskCommand
  split
  · exact h.diskSelect
  · unfold Platform.diskRead
    split
    · exact h
    · exact (h.withMem (Memory.wf_copy _ _ _ _ h.mem)).diskWriteInfo _ _
  · unfold Platform.diskWrite
    split
    · exact h
    · rename_i i img ht
      obtain ⟨hs, hi, hb⟩ := Disk.target_some ht
      exact (h.withImage ((h.images img (List.mem_of_getElem? hi)).copyBlock (by omega)) i).diskWriteInfo _ _
  · exact h.congr rfl rfl rfl rfl rfl rfl rfl
  · unfold Disk.driveSize
    split <;> exact h.congr rfl rfl rfl rfl rfl rfl rfl
  · exact h.congr rfl rfl rfl rfl rfl rfl rfl
  · exact h.congr rfl rfl rfl rfl rfl rfl rfl
  · exact h

/-- A port write keeps the invariants (R91). -/
theorem Platform.Wf.portWrite (h : p.Wf) {port : Nat} {v : Word} (hq : portWrite c p port v = some q) : q.Wf := by
  unfold Machine.portWrite at hq
  split at hq
  case h_5 => cases hq; exact h.diskCommand v
  case h_8 =>
    cases hq
    obtain ⟨h1, h2, h3, h4⟩ := rtcCommand_keeps c.rtcMsMode p v
    exact h.congr h1 (by rw [h2]) (by rw [h2]) (by rw [h3]) (by rw [h4]) (by rw [h4]) (by rw [h4])
  case h_10 => cases hq; exact h.congr rfl rfl rfl (by simp only [Hub.select]; split <;> rfl) rfl rfl rfl
  case h_12 => cases hq; exact h.hubAction c.kbdScan v
  case h_13 =>
    cases hq
    obtain ⟨h1, h2, h3, h4, h5, h6⟩ := hubSetPortA_keeps p v
    exact h.congr h1 (by rw [h2]) (by rw [h2]) h3 h4 h5 h6
  case h_14 =>
    cases hq
    obtain ⟨h1, h2, h3, h4, h5, h6⟩ := hubSetPortB_keeps p v
    exact h.congr h1 (by rw [h2]) (by rw [h2]) h3 h4 h5 h6
  case h_15 => cases hq
  all_goals cases hq; exact h.congr rfl rfl rfl rfl rfl rfl rfl

/-- A board reset keeps the invariants (R101). -/
theorem Platform.Wf.boardReset (h : p.Wf) : p.boardReset.Wf := by
  unfold Platform.boardReset
  apply Platform.Wf.hubReset
  refine ⟨h.mem, h.images, h.count, ?_, h.lines, h.keys⟩
  intro i hi
  simp [Disk.boardReset, Disk.reset] at hi

/-- A bus write keeps the invariants. -/
theorem Platform.Wf.busWrite (h : p.Wf) {pa : Word} {n : Width} {v : Word} (hq : busWrite c p pa n v = some q) :
    q.Wf := by
  have hmem : ∀ m : Memory, m.wf = true → Platform.Wf { p with mem := m } := fun m hm =>
    ⟨hm, h.images, h.count, h.selected, h.lines, h.keys⟩
  unfold Machine.busWrite at hq
  simp only at hq
  split at hq
  · split at hq <;> cases hq
    exact hmem _ (Memory.wf_writeLE _ _ _ h.mem)
  split at hq
  · split at hq <;> cases hq
    exact h
  split at hq
  · cases hq
  split at hq
  · simp only [fbWrite] at hq
    split at hq <;> cases hq
    exact h.congr rfl rfl rfl rfl rfl rfl rfl
  split at hq
  · unfold boardWrite at hq
    split at hq
    · exact h.portWrite hq
    · split at hq <;> cases hq
      unfold boardRegWrite
      split
      · exact h
      · split
        · exact h.congr rfl rfl rfl rfl rfl rfl rfl
        · exact h
    · split at hq <;> cases hq
      exact hmem _ (Memory.wf_writeLE _ _ _ h.mem)
    · split at hq <;> cases hq
      exact hmem _ (Memory.wf_writeLE _ _ _ h.mem)
    · split at hq
      · obtain ⟨l, _, rfl⟩ := Option.map_eq_some_iff.mp hq
        exact h.congr rfl rfl rfl rfl rfl rfl rfl
      · cases hq
    · split at hq
      · split at hq <;> cases hq
        · exact h.boardReset
        · exact h
      · cases hq
    · split at hq <;> cases hq
      exact h
    · cases hq
  · cases hq; exact h

/-! ### The host's calls -/

@[simp] theorem raiseKbd_mem (p : Platform) : p.raiseKbd.mem = p.mem := by unfold Platform.raiseKbd; split <;> rfl

/-- Raising the keyboard's line keeps the invariants. -/
theorem Platform.Wf.raiseKbd (h : p.Wf) : p.raiseKbd.Wf := by
  unfold Platform.raiseKbd
  split
  · exact h
  · exact h.raiseIrq _

/-- A call of the host changes no memory and keeps the invariants (R490). -/
theorem Platform.Wf.hostEvent (h : p.Wf) (e : HostEvent) :
    (p.hostEvent c e).Wf ∧ (p.hostEvent c e).mem = p.mem := by
  cases e with
  | rtcTick ms =>
    simp only [Platform.hostEvent, Platform.rtcTick]
    split <;> exact ⟨h.congr rfl rfl rfl rfl rfl rfl rfl, rfl⟩
  | keyDown code =>
    simp only [Platform.hostEvent, Platform.keyDown]
    split
    · refine ⟨Platform.Wf.raiseKbd ⟨h.mem, h.images, h.count, h.selected, h.lines, ?_⟩, by simp⟩
      obtain ⟨h1, h2, h3⟩ := h.keys
      refine ⟨?_, ?_, h3⟩
      · rw [Vector.getElem_set_ne _ _ (by omega)]; exact h1
      · rw [Vector.getElem_set_ne _ _ (by omega)]; exact h2
    · exact ⟨h, rfl⟩
  | keyUp code =>
    simp only [Platform.hostEvent, Platform.keyUp]
    split
    · refine ⟨Platform.Wf.raiseKbd ⟨h.mem, h.images, h.count, h.selected, h.lines, ?_⟩, by simp⟩
      obtain ⟨h1, h2, h3⟩ := h.keys
      refine ⟨?_, h2, ?_⟩
      · rw [Vector.getElem_set_ne _ _ (by omega)]; exact h1
      · rw [Vector.getElem_set_ne _ _ (by omega)]; exact h3
    · exact ⟨h, rfl⟩
  | uartReceive n char =>
    simp only [Platform.hostEvent, Platform.uartReceive]
    cases n <;> (repeat' split) <;> exact ⟨h.congr rfl rfl rfl rfl rfl rfl rfl, rfl⟩

/-- The host's calls before a step change no memory and keep the invariants (R490). -/
theorem hostCalls_wf {s : State} (h : s.plat.Wf) : s.hostCalls.plat.Wf ∧ s.hostCalls.plat.mem = s.plat.mem := by
  unfold State.hostCalls
  split
  · exact ⟨h, rfl⟩
  · rename_i batch rest _
    simp only
    suffices ∀ (l : List HostEvent) (p : Platform), p.Wf →
        (l.foldl (Platform.hostEvent s.config) p).Wf ∧ (l.foldl (Platform.hostEvent s.config) p).mem = p.mem from
      this batch _ h
    intro l
    induction l with
    | nil => exact fun p h => ⟨h, rfl⟩
    | cons e l ih =>
      intro p hp
      obtain ⟨h1, h2⟩ := hp.hostEvent (c := s.config) e
      obtain ⟨h3, h4⟩ := ih _ h1
      exact ⟨h3, h4.trans h2⟩

end Sys2Proof.Machine
end

