-- ==== Sys2Proof/Laws/Exec.lean ====
section
/-! SUPPORT. What one instruction can do, said once (`Effect`): every meaning answers a next state of one of these shapes, so
that a statement about every instruction is a case analysis over the shapes and not over the table. -/

namespace Sys2Proof.Machine

/-- What an instruction raises of its own accord: a call trap, or INVPRVG in user mode; or what its access raises. -/
inductive Raises (i : Instr) (s : State) : Raised → Prop
  | sys : i = .sys → Raises i s ⟨.syscall, none⟩
  | brk : i = .brk → Raises i s ⟨.brkpoint, none⟩
  | fwc : i = .fwc → s.user = false → Raises i s ⟨.fwcall, none⟩
  | user : privileged i = true → s.user = true → Raises i s ⟨.invprvg, none⟩
  | access (kind : AccessKind) (x : Raised) : AccessExc kind x → Raises i s x

/-- The next states an instruction can give. -/
inductive Effect (i : Instr) (s : State) : State → Prop
  /-- A register written, and on (ALU, loads, a failed SC). -/
  | wrote (rD : RegIdx) (v : Word) : Effect i s (s.setReg rD v).advance
  /-- A branch or jump without a link. -/
  | went (pc : Word) : Effect i s (s.setPc pc)
  /-- A jump with a link. -/
  | linked (rD : RegIdx) (v pc : Word) : Effect i s ((s.setReg rD v).setPc pc)
  /-- An exception latched. -/
  | raised (x : Raised) : Raises i s x → Effect i s (s.raise x)
  /-- A store the bus took. -/
  | stored (pa : Word) (n : Width) (v : Word) (p : Platform) : busWrite s.config s.plat pa n v = some p →
      Effect i s (s.setPlat p).advance
  /-- A store-conditional the bus took. -/
  | storedStatus (pa : Word) (n : Width) (v : Word) (p : Platform) (rD : RegIdx) :
      busWrite s.config s.plat pa n v = some p → Effect i s ((s.setPlat p).setReg rD 1).advance
  /-- A load-linked. -/
  | linkedLoad (rD rA : RegIdx) (v : Word) : i = .ll rD rA → Effect i s ((s.setLocked true).setReg rD v).advance
  /-- A load-linked whose read raises. -/
  | linkedRaise (rD rA : RegIdx) (x : Raised) : i = .ll rD rA → AccessExc .read x →
      Effect i s ((s.setLocked true).raise x)
  /-- RFE. -/
  | returned : i = .rfe → s.user = false → Effect i s s.returnFromException
  /-- HLT. -/
  | halted : i = .hlt → s.user = false → Effect i s (s.setHalted true).advance
  /-- FTLB. -/
  | flushed : i = .ftlb → s.user = false → Effect i s s.advance
  /-- MTCR. -/
  | toControl (c : CrIdx) (rA : RegIdx) : i = .mtcr c rA → s.user = false → Effect i s (s.setCr c (s.reg rA)).advance
  /-- MFCR. -/
  | fromControl (rD : RegIdx) (c : CrIdx) : i = .mfcr rD c → s.user = false →
      Effect i s (s.setRegMfcr rD (s.cr c)).advance

variable {i : Instr} {s : State}

theorem Effect.of_finish (rD : RegIdx) (v : Word) : ∃ t, s.finish rD v = .next t ∧ Effect i s t :=
  ⟨_, rfl, .wrote rD v⟩

theorem Effect.of_loadTo (rD : RegIdx) (ea : Word) (n : Width) :
    ∃ t, s.loadTo rD ea n = .next t ∧ Effect i s t := by
  rcases loadTo_cases s rD ea n with ⟨v, _, h⟩ | ⟨x, hx, h⟩
  · exact ⟨_, h, .wrote rD v⟩
  · exact ⟨_, h, .raised x (.access .read x (memRead_error hx))⟩

theorem Effect.of_storeAt (ea : Word) (n : Width) (v : Word) :
    ∃ t, s.storeAt ea n v = .next t ∧ Effect i s t := by
  unfold State.storeAt
  rcases memWrite_cases s ea n v with ⟨x, _, h⟩ | ⟨pa, _, _, h⟩ | ⟨pa, p, _, hb, h⟩
  · rw [h]; exact ⟨_, rfl, .raised _ (.access .write _ (memWrite_error h))⟩
  · rw [h]; exact ⟨_, rfl, .raised _ (.access .write _ (memWrite_error h))⟩
  · rw [h]; exact ⟨_, rfl, .stored pa n v p hb⟩

theorem Effect.of_branchIf (taken : Bool) (disp : BitVec 21) :
    ∃ t, s.branchIf taken disp = .next t ∧ Effect i s t := by
  cases taken
  · exact ⟨_, rfl, .went _⟩
  · exact ⟨_, rfl, .went _⟩

theorem Effect.of_privileged {next : State} (hp : privileged i = true) (h : s.user = false → Effect i s next) :
    ∃ t, s.privileged next = .next t ∧ Effect i s t := by
  cases hu : s.user
  · exact ⟨_, privileged_kernel hu, h hu⟩
  · exact ⟨_, privileged_user hu, .raised _ (.user hp hu)⟩

/-- Every instruction answers a next state of one of the shapes of `Effect`. -/
theorem exec_effect (i : Instr) (s : State) : ∃ t, exec i s = .next t ∧ Effect i s t := by
  cases i
  case j => exact ⟨_, rfl, .went _⟩
  case jal => exact ⟨_, rfl, .linked _ _ _⟩
  case jalr => exact ⟨_, rfl, .linked _ _ _⟩
  case ldb | ldi | ldl | ldbx | ldix | ldlx => exact Effect.of_loadTo _ _ _
  case stb | sti | stl | stbx | stix | stlx => exact Effect.of_storeAt _ _ _
  case beq | bne | blt => exact Effect.of_branchIf _ _
  case ll rD rA =>
    show ∃ t, (s.setLocked true).loadTo rD (s.reg rA) .long = .next t ∧ _
    rcases loadTo_cases (s.setLocked true) rD (s.reg rA) .long with ⟨v, _, h⟩ | ⟨x, hx, h⟩
    · exact ⟨_, h, .linkedLoad rD rA v rfl⟩
    · exact ⟨_, h, .linkedRaise rD rA x rfl (memRead_error hx)⟩
  case sc rD rA rB =>
    show ∃ t, execSc rD rA rB s = .next t ∧ _
    unfold execSc
    split
    · rcases memWrite_cases s (s.reg rA) .long (s.opG rB) with ⟨x, _, h⟩ | ⟨pa, _, _, h⟩ | ⟨pa, p, _, hb, h⟩
      · rw [h]; exact ⟨_, rfl, .raised _ (.access .write _ (memWrite_error h))⟩
      · rw [h]; exact ⟨_, rfl, .raised _ (.access .write _ (memWrite_error h))⟩
      · rw [h]; exact ⟨_, rfl, .storedStatus pa _ _ p rD hb⟩
    · exact Effect.of_finish _ _
  case sys => exact ⟨_, rfl, .raised _ (.sys rfl)⟩
  case brk => exact ⟨_, rfl, .raised _ (.brk rfl)⟩
  case fwc => exact Effect.of_privileged rfl fun h => .raised _ (.fwc rfl h)
  case rfe => exact Effect.of_privileged rfl fun h => .returned rfl h
  case hlt => exact Effect.of_privileged rfl fun h => .halted rfl h
  case ftlb => exact Effect.of_privileged rfl fun h => .flushed rfl h
  case mtcr c rA => exact Effect.of_privileged rfl fun h => .toControl c rA rfl h
  case mfcr rD c => exact Effect.of_privileged rfl fun h => .fromControl rD c rfl h
  all_goals exact Effect.of_finish _ _

/-- The next state of an instruction has one of the shapes of `Effect`. -/
theorem effect_of_exec {t : State} (h : exec i s = .next t) : Effect i s t := by
  obtain ⟨u, hu, he⟩ := exec_effect i s
  rw [h] at hu
  cases hu
  exact he

/-- No instruction changes the parameters or the schedule. -/
theorem Effect.outside {t : State} (h : Effect i s t) : t.config = s.config ∧ t.schedule = s.schedule := by
  cases h
  case raised x _ => exact ⟨(raise_keeps s x).2.1, (raise_keeps s x).2.2.1⟩
  case linkedRaise rD rA x _ _ =>
    exact ⟨(raise_keeps (s.setLocked true) x).2.1, (raise_keeps (s.setLocked true) x).2.2.1⟩
  all_goals simp [State.returnFromException]

/-- An instruction leaves the platform, or it is a store the bus took. -/
theorem Effect.platform {t : State} (h : Effect i s t) :
    t.plat = s.plat ∨ ∃ pa n v, busWrite s.config s.plat pa n v = some t.plat := by
  cases h
  case raised x _ => exact .inl (raise_keeps s x).1
  case linkedRaise rD rA x _ _ => exact .inl (raise_keeps (s.setLocked true) x).1
  case stored pa n v p hb => exact .inr ⟨pa, n, v, by simpa using hb⟩
  case storedStatus pa n v p rD hb => exact .inr ⟨pa, n, v, by simpa using hb⟩
  all_goals simp [State.returnFromException]

/-- With nothing pending an instruction leaves the fatal mark (R430). -/
theorem Effect.fatal {t : State} (h : Effect i s t) (hp : s.cpu.excPending = none) : t.fatal = s.fatal := by
  cases h
  case raised x _ => simp [raise_fatal, hp]
  case linkedRaise rD rA x _ _ => simp [raise_fatal, hp]
  all_goals simp [State.returnFromException]

end Sys2Proof.Machine
end

