-- ==== Sys2Proof/Laws/PerInstr.lean ====
section
/-! SUPPORT. The family `RowMatch`, one lemma per instruction: the encoder's word of the instruction meets its row of
spec/opcode_table.json, that is, under the row's `mask` it is the row's `match` (the OPEN numbers as `ENC_<M>`). -/

namespace Sys2Proof.Laws.RowMatch

/-- The row's `mask` (spec/opcode_table.json). -/
def mask : Instr → Word
  | .j _ | .jal _ => 0x00000007
  | .addi _ _ _ | .subi _ _ _ | .slti _ _ _ | .sltis _ _ _ | .andi _ _ _ | .ori _ _ _ | .xori _ _ _ | .lui _ _ _
  | .jalr _ _ _ | .ldb _ _ _ | .ldi _ _ _ | .ldl _ _ _ | .stb _ _ _ | .sti _ _ _ | .stl _ _ _ | .beq _ _
  | .bne _ _ | .blt _ _ => 0x0000003F
  | .add _ _ _ _ | .sub _ _ _ _ | .slt _ _ _ _ | .slts _ _ _ _ | .and _ _ _ _ | .or _ _ _ _ | .xor _ _ _ _
  | .nor _ _ _ _ | .ldbx _ _ _ _ | .ldix _ _ _ _ | .ldlx _ _ _ _ | .stbx _ _ _ _ | .stix _ _ _ _ | .stlx _ _ _ _
  | .mul _ _ _ | .div _ _ _ | .divs _ _ _ | .mod _ _ _ | .ll _ _ | .sc _ _ _ | .sys | .brk | .fwc | .rfe | .hlt
  | .ftlb | .mtcr _ _ | .mfcr _ _ => 0xF000003F

/-- The row's `match` (spec/opcode_table.json): a constant for J and JAL, else `ENC_<M>` in its place (for the
eight instructions of R162 (e) the group too). -/
def value (e : Encoding) : Instr → Word
  | .j _ => 6
  | .jal _ => 7
  | .addi _ _ _ => e.addi.setWidth 32
  | .subi _ _ _ => e.subi.setWidth 32
  | .slti _ _ _ => e.slti.setWidth 32
  | .sltis _ _ _ => e.sltis.setWidth 32
  | .andi _ _ _ => e.andi.setWidth 32
  | .ori _ _ _ => e.ori.setWidth 32
  | .xori _ _ _ => e.xori.setWidth 32
  | .lui _ _ _ => e.lui.setWidth 32
  | .jalr _ _ _ => e.jalr.setWidth 32
  | .ldb _ _ _ => e.ldb.setWidth 32
  | .ldi _ _ _ => e.ldi.setWidth 32
  | .ldl _ _ _ => e.ldl.setWidth 32
  | .stb _ _ _ => e.stb.setWidth 32
  | .sti _ _ _ => e.sti.setWidth 32
  | .stl _ _ _ => e.stl.setWidth 32
  | .beq _ _ => e.beq.setWidth 32
  | .bne _ _ => e.bne.setWidth 32
  | .blt _ _ => e.blt.setWidth 32
  | .add _ _ _ _ => e.add.setWidth 32 <<< 28 ||| 0x39
  | .sub _ _ _ _ => e.sub.setWidth 32 <<< 28 ||| 0x39
  | .slt _ _ _ _ => e.slt.setWidth 32 <<< 28 ||| 0x39
  | .slts _ _ _ _ => e.slts.setWidth 32 <<< 28 ||| 0x39
  | .and _ _ _ _ => e.and.setWidth 32 <<< 28 ||| 0x39
  | .or _ _ _ _ => e.or.setWidth 32 <<< 28 ||| 0x39
  | .xor _ _ _ _ => e.xor.setWidth 32 <<< 28 ||| 0x39
  | .nor _ _ _ _ => e.nor.setWidth 32 <<< 28 ||| 0x39
  | .ldbx _ _ _ _ => e.ldbx.setWidth 32 <<< 28 ||| 0x39
  | .ldix _ _ _ _ => e.ldix.setWidth 32 <<< 28 ||| 0x39
  | .ldlx _ _ _ _ => e.ldlx.setWidth 32 <<< 28 ||| 0x39
  | .stbx _ _ _ _ => e.stbx.setWidth 32 <<< 28 ||| 0x39
  | .stix _ _ _ _ => e.stix.setWidth 32 <<< 28 ||| 0x39
  | .stlx _ _ _ _ => e.stlx.setWidth 32 <<< 28 ||| 0x39
  | .mul _ _ _ => e.mul.funct.setWidth 32 <<< 28 ||| e.mul.group.code.setWidth 32
  | .div _ _ _ => e.div.funct.setWidth 32 <<< 28 ||| e.div.group.code.setWidth 32
  | .divs _ _ _ => e.divs.funct.setWidth 32 <<< 28 ||| e.divs.group.code.setWidth 32
  | .mod _ _ _ => e.mod.funct.setWidth 32 <<< 28 ||| e.mod.group.code.setWidth 32
  | .ll _ _ => e.ll.funct.setWidth 32 <<< 28 ||| e.ll.group.code.setWidth 32
  | .sc _ _ _ => e.sc.funct.setWidth 32 <<< 28 ||| e.sc.group.code.setWidth 32
  | .sys => e.sys.funct.setWidth 32 <<< 28 ||| e.sys.group.code.setWidth 32
  | .brk => e.brk.funct.setWidth 32 <<< 28 ||| e.brk.group.code.setWidth 32
  | .fwc => e.fwc.setWidth 32 <<< 28 ||| 0x29
  | .rfe => e.rfe.setWidth 32 <<< 28 ||| 0x29
  | .hlt => e.hlt.setWidth 32 <<< 28 ||| 0x29
  | .ftlb => e.ftlb.setWidth 32 <<< 28 ||| 0x29
  | .mtcr _ _ => e.mtcr.setWidth 32 <<< 28 ||| 0x29
  | .mfcr _ _ => e.mfcr.setWidth 32 <<< 28 ||| 0x29

/-- The encoded instruction meets its row, whatever the OPEN numbers are. -/
def Statement (i : Instr) : Prop := ∀ e : Encoding, encode e i &&& mask i = value e i

theorem and_major (w : Word) : w &&& 0x00000007 = (fMajor w).setWidth 32 := by
  apply BitVec.eq_of_getLsbD_eq
  intro i hi
  simp only [fMajor, BitVec.getLsbD_and, BitVec.getLsbD_setWidth, BitVec.getLsbD_extractLsb']
  interval_cases i <;> simp

theorem and_op (w : Word) : w &&& 0x0000003F = (fOp w).setWidth 32 := by
  apply BitVec.eq_of_getLsbD_eq
  intro i hi
  simp only [fOp, BitVec.getLsbD_and, BitVec.getLsbD_setWidth, BitVec.getLsbD_extractLsb']
  interval_cases i <;> simp

theorem and_funct_op (w : Word) :
    w &&& (0xF000003F : Word) = (fFunct w).setWidth 32 <<< 28 ||| (fOp w).setWidth 32 := by
  apply BitVec.eq_of_getLsbD_eq
  intro i hi
  simp only [fOp, fFunct, BitVec.getLsbD_and, BitVec.getLsbD_or, BitVec.getLsbD_shiftLeft, BitVec.getLsbD_setWidth,
    BitVec.getLsbD_extractLsb']
  interval_cases i <;> simp

theorem group_reg : groupReg.setWidth 32 = (0x39 : Word) := rfl
theorem group_priv : groupPriv.setWidth 32 = (0x29 : Word) := rfl

theorem j (t : BitVec 29) : Statement (.j t) := by
  intro e; simp only [encode, mask, value]; rw [and_major, fMajor_packJ]; rfl
theorem jal (t : BitVec 29) : Statement (.jal t) := by
  intro e; simp only [encode, mask, value]; rw [and_major, fMajor_packJ]; rfl
theorem addi (d a : RegIdx) (i : BitVec 16) : Statement (.addi d a i) := by
  intro e; simp only [encode, mask, value]; rw [and_op, fOp_packI]
theorem subi (d a : RegIdx) (i : BitVec 16) : Statement (.subi d a i) := by
  intro e; simp only [encode, mask, value]; rw [and_op, fOp_packI]
theorem slti (d a : RegIdx) (i : BitVec 16) : Statement (.slti d a i) := by
  intro e; simp only [encode, mask, value]; rw [and_op, fOp_packI]
theorem sltis (d a : RegIdx) (i : BitVec 16) : Statement (.sltis d a i) := by
  intro e; simp only [encode, mask, value]; rw [and_op, fOp_packI]
theorem andi (d a : RegIdx) (i : BitVec 16) : Statement (.andi d a i) := by
  intro e; simp only [encode, mask, value]; rw [and_op, fOp_packI]
theorem ori (d a : RegIdx) (i : BitVec 16) : Statement (.ori d a i) := by
  intro e; simp only [encode, mask, value]; rw [and_op, fOp_packI]
theorem xori (d a : RegIdx) (i : BitVec 16) : Statement (.xori d a i) := by
  intro e; simp only [encode, mask, value]; rw [and_op, fOp_packI]
theorem lui (d a : RegIdx) (i : BitVec 16) : Statement (.lui d a i) := by
  intro e; simp only [encode, mask, value]; rw [and_op, fOp_packI]
theorem jalr (d a : RegIdx) (i : BitVec 16) : Statement (.jalr d a i) := by
  intro e; simp only [encode, mask, value]; rw [and_op, fOp_packI]
theorem ldb (d a : RegIdx) (i : BitVec 16) : Statement (.ldb d a i) := by
  intro e; simp only [encode, mask, value]; rw [and_op, fOp_packI]
theorem ldi (d a : RegIdx) (i : BitVec 16) : Statement (.ldi d a i) := by
  intro e; simp only [encode, mask, value]; rw [and_op, fOp_packI]
theorem ldl (d a : RegIdx) (i : BitVec 16) : Statement (.ldl d a i) := by
  intro e; simp only [encode, mask, value]; rw [and_op, fOp_packI]
theorem stb (d a : RegIdx) (i : BitVec 16) : Statement (.stb d a i) := by
  intro e; simp only [encode, mask, value]; rw [and_op, fOp_packI]
theorem sti (d a : RegIdx) (i : BitVec 16) : Statement (.sti d a i) := by
  intro e; simp only [encode, mask, value]; rw [and_op, fOp_packI]
theorem stl (d a : RegIdx) (i : BitVec 16) : Statement (.stl d a i) := by
  intro e; simp only [encode, mask, value]; rw [and_op, fOp_packI]
theorem beq (d : RegIdx) (p : BitVec 21) : Statement (.beq d p) := by
  intro e; simp only [encode, mask, value]; rw [and_op, fOp_packB]
theorem bne (d : RegIdx) (p : BitVec 21) : Statement (.bne d p) := by
  intro e; simp only [encode, mask, value]; rw [and_op, fOp_packB]
theorem blt (d : RegIdx) (p : BitVec 21) : Statement (.blt d p) := by
  intro e; simp only [encode, mask, value]; rw [and_op, fOp_packB]
theorem add (d a b : RegIdx) (sh : Shift) : Statement (.add d a b sh) := by
  intro e; simp only [encode, mask, value]; rw [and_funct_op, fFunct_packR, fOp_packR, group_reg]
theorem sub (d a b : RegIdx) (sh : Shift) : Statement (.sub d a b sh) := by
  intro e; simp only [encode, mask, value]; rw [and_funct_op, fFunct_packR, fOp_packR, group_reg]
theorem slt (d a b : RegIdx) (sh : Shift) : Statement (.slt d a b sh) := by
  intro e; simp only [encode, mask, value]; rw [and_funct_op, fFunct_packR, fOp_packR, group_reg]
theorem slts (d a b : RegIdx) (sh : Shift) : Statement (.slts d a b sh) := by
  intro e; simp only [encode, mask, value]; rw [and_funct_op, fFunct_packR, fOp_packR, group_reg]
theorem and (d a b : RegIdx) (sh : Shift) : Statement (.and d a b sh) := by
  intro e; simp only [encode, mask, value]; rw [and_funct_op, fFunct_packR, fOp_packR, group_reg]
theorem or (d a b : RegIdx) (sh : Shift) : Statement (.or d a b sh) := by
  intro e; simp only [encode, mask, value]; rw [and_funct_op, fFunct_packR, fOp_packR, group_reg]
theorem xor (d a b : RegIdx) (sh : Shift) : Statement (.xor d a b sh) := by
  intro e; simp only [encode, mask, value]; rw [and_funct_op, fFunct_packR, fOp_packR, group_reg]
theorem nor (d a b : RegIdx) (sh : Shift) : Statement (.nor d a b sh) := by
  intro e; simp only [encode, mask, value]; rw [and_funct_op, fFunct_packR, fOp_packR, group_reg]
theorem ldbx (d a b : RegIdx) (sh : Shift) : Statement (.ldbx d a b sh) := by
  intro e; simp only [encode, mask, value]; rw [and_funct_op, fFunct_packR, fOp_packR, group_reg]
theorem ldix (d a b : RegIdx) (sh : Shift) : Statement (.ldix d a b sh) := by
  intro e; simp only [encode, mask, value]; rw [and_funct_op, fFunct_packR, fOp_packR, group_reg]
theorem ldlx (d a b : RegIdx) (sh : Shift) : Statement (.ldlx d a b sh) := by
  intro e; simp only [encode, mask, value]; rw [and_funct_op, fFunct_packR, fOp_packR, group_reg]
theorem stbx (d a b : RegIdx) (sh : Shift) : Statement (.stbx d a b sh) := by
  intro e; simp only [encode, mask, value]; rw [and_funct_op, fFunct_packR, fOp_packR, group_reg]
theorem stix (d a b : RegIdx) (sh : Shift) : Statement (.stix d a b sh) := by
  intro e; simp only [encode, mask, value]; rw [and_funct_op, fFunct_packR, fOp_packR, group_reg]
theorem stlx (d a b : RegIdx) (sh : Shift) : Statement (.stlx d a b sh) := by
  intro e; simp only [encode, mask, value]; rw [and_funct_op, fFunct_packR, fOp_packR, group_reg]
theorem mul (d a : RegIdx) (b : SrcB) : Statement (.mul d a b) := by
  intro e; simp only [encode, mask, value]; rw [and_funct_op, fFunct_packG, fOp_packG]
theorem div (d a : RegIdx) (b : SrcB) : Statement (.div d a b) := by
  intro e; simp only [encode, mask, value]; rw [and_funct_op, fFunct_packG, fOp_packG]
theorem divs (d a : RegIdx) (b : SrcB) : Statement (.divs d a b) := by
  intro e; simp only [encode, mask, value]; rw [and_funct_op, fFunct_packG, fOp_packG]
theorem mod (d a : RegIdx) (b : SrcB) : Statement (.mod d a b) := by
  intro e; simp only [encode, mask, value]; rw [and_funct_op, fFunct_packG, fOp_packG]
theorem ll (d a : RegIdx) : Statement (.ll d a) := by
  intro e; simp only [encode, mask, value]; rw [and_funct_op, fFunct_packG, fOp_packG]
theorem sc (d a : RegIdx) (b : SrcB) : Statement (.sc d a b) := by
  intro e; simp only [encode, mask, value]; rw [and_funct_op, fFunct_packG, fOp_packG]
theorem sys : Statement .sys := by
  intro e; simp only [encode, mask, value]; rw [and_funct_op, fFunct_packG, fOp_packG]
theorem brk : Statement .brk := by
  intro e; simp only [encode, mask, value]; rw [and_funct_op, fFunct_packG, fOp_packG]
theorem fwc : Statement .fwc := by
  intro e; simp only [encode, mask, value]; rw [and_funct_op, fFunct_packG, fOp_packG, group_priv]
theorem rfe : Statement .rfe := by
  intro e; simp only [encode, mask, value]; rw [and_funct_op, fFunct_packG, fOp_packG, group_priv]
theorem hlt : Statement .hlt := by
  intro e; simp only [encode, mask, value]; rw [and_funct_op, fFunct_packG, fOp_packG, group_priv]
theorem ftlb : Statement .ftlb := by
  intro e; simp only [encode, mask, value]; rw [and_funct_op, fFunct_packG, fOp_packG, group_priv]
theorem mtcr (c : CrIdx) (a : RegIdx) : Statement (.mtcr c a) := by
  intro e; simp only [encode, mask, value]; rw [and_funct_op, fFunct_packG, fOp_packG, group_priv]
theorem mfcr (d : RegIdx) (c : CrIdx) : Statement (.mfcr d c) := by
  intro e; simp only [encode, mask, value]; rw [and_funct_op, fFunct_packG, fOp_packG, group_priv]

end Sys2Proof.Laws.RowMatch
end

