-- ==== Sys2Proof/Tests/Slice0.lean ====
section
/-! SUPPORT. Tests: the well-formedness checks refuse an ill-formed term each, every instruction's word decodes, single steps
and device sequences give what spec 95_test_vectors.md says, and every statement's hypotheses can be met. Every expected
value is the spec's own or calculated by hand from its rules; none is the model's. -/

namespace Sys2Proof.Tests

open Sys2Proof Sys2Proof.Machine

/-! ### Helpers -/

/-- The common start of 95_test_vectors.md section 0, with instruction `w` at pc, the listed registers, and the bytes
78 56 34 AB at 0x2000. -/
def start (w : Word) (regs : List (RegIdx × Word)) : State :=
  let s0 : State := { State.reset with
    cpu := { Cpu.reset with
      regs := (Vector.replicate 32 0xAAAAAAAA).set 0 0
      pc := 0x10000
      cr := #v[0, 0xAAAAAAAA, 0xAAAAAAAA, 0xAAAAAAAA, 0x8000, 0xAAAAAAAA, 0xAAAAAAAA, 0xAAAAAAAA, 0x80060000, 0,
        0, 0, 0, 0, 0, 0, 0, 0, 0, 0, 0, 0, 0, 0, 0, 0, 0, 0, 0, 0, 0, 0] }
    plat := { Platform.reset with
      mem := Memory.place (Memory.writeLE [] 0x10000 .long w) 0x2000 [0x78, 0x56, 0x34, 0xAB] } }
  regs.foldl (fun s r => s.setReg r.1 r.2) s0

/-- The state after one step. -/
def after (s : State) : Option State :=
  match step s with
  | .next t => some t
  | _ => none

/-- A register and the pc after one step. -/
def regPc (i : RegIdx) (s : State) : Option (Word × Word) := (after s).map (fun t => (t.reg i, t.cpu.pc))

/-- Four bytes of memory after one step that goes on to pc0 + 4. -/
def bytesAfter (a : Nat) (s : State) : Option (List Byte) :=
  match after s with
  | some t => if t.cpu.pc = s.cpu.pc + 4 then
      some [t.plat.mem.read a, t.plat.mem.read (a + 1), t.plat.mem.read (a + 2), t.plat.mem.read (a + 3)] else none
  | none => none

/-- The exception latched by one step, EBADADDR and the pc. -/
def raised (s : State) : Option (Exc × Word × Word) :=
  match after s with
  | some t => t.cpu.excPending.map (fun e => (e, t.cr crEBADADDR, t.cpu.pc))
  | none => none

/-! ### Well-formedness: an ill-formed term for each check, refused -/

/-- The numbering of `State.reset` is one that R162 allows. -/
theorem test_candidate_wf : Encoding.candidate.wf = true := by decide

/-- R162 (a): two instructions outside the groups with one opcode. -/
theorem test_wf_refuses_equal_opcodes : ({ Encoding.candidate with subi := 0x3C }).opcodesWf = false := by decide

/-- R162 (b): an opcode that major 0b110 hides. -/
theorem test_wf_refuses_major_j : ({ Encoding.candidate with addi := 0x0E }).opcodesWf = false := by decide

/-- R162 (b): an opcode that major 0b111 hides. -/
theorem test_wf_refuses_major_jal : ({ Encoding.candidate with addi := 0x3F }).opcodesWf = false := by decide

/-- R162 (b): the three group codes. -/
theorem test_wf_refuses_group_codes :
    opcodeFree groupReg = false ∧ opcodeFree groupGrp = false ∧ opcodeFree groupPriv = false := by decide

/-- R162 (a): two members of group 0x39 with one function code. -/
theorem test_wf_refuses_equal_reg_functs : ({ Encoding.candidate with add := 6 }).regWf = false := by decide

/-- R162 (d): an indexed store outside 9, 10 and 11. -/
theorem test_wf_refuses_store_funct : ({ Encoding.candidate with stbx := 8 }).regWf = false := by decide

/-- R162 (a): two members of group 0x31 with one function code. -/
theorem test_wf_refuses_equal_grp_functs : ({ Encoding.candidate with sys := ⟨.grp, 1⟩ }).grpWf = false := by decide

/-- R162 (a), (e): MUL in group 0x39 with the function code of ADD. -/
theorem test_wf_refuses_taken_reg_funct : ({ Encoding.candidate with mul := ⟨.reg, 7⟩ }).grpWf = false := by decide

/-- R162 (e): a numbering with MUL and SYS in group 0x39, at the function codes that R164 leaves free there. -/
def placed : Encoding := { Encoding.candidate with mul := ⟨.reg, 8⟩, sys := ⟨.reg, 12⟩ }

/-- R156, R162 (e): that numbering is allowed; MUL's word has group 0x39 and its bits 27..21 are the shift of format R, SYS's
does not read them; group 0x31 has no MUL, and DIV there has no shift. -/
theorem test_decode_placed :
    placed.wf = true ∧ decode placed 0x80031079 = .ok (.mul 1 2 (.shifted 3 ⟨0, .lsl⟩)) ∧
    decode placed 0x8FE31079 = .ok (.mul 1 2 (.shifted 3 ⟨31, .ror⟩)) ∧
    decode placed 0xC0000039 = .ok .sys ∧ decode placed 0xCFFFFFF9 = .ok .sys ∧
    decode placed 0xF0031071 = .error (.unusedGrpFunct 15) ∧
    decode placed 0xDFE31071 = .ok (.div 1 2 (.reg 3)) ∧ decode placed 0x70031079 = .ok (.add 1 2 3 ⟨0, .lsl⟩) := by decide

/-- R156, R157: MUL with a shift where it is in group 0x31, and without one where it is in group 0x39. -/
theorem test_wf_refuses_shift :
    (Instr.mul 1 2 (.shifted 3 ⟨4, .lsl⟩)).wf Encoding.candidate = false ∧ (Instr.mul 1 2 (.reg 3)).wf placed = false := by
  decide

/-- R156, R160: MUL in group 0x39 multiplies by the shifter's output, 3 * (5 << 4). -/
theorem test_mul_shifted :
    let s := start 0x80831079 [(2, 3), (3, 5)]
    regPc 1 { s with config := { s.config with enc := placed } } = some (0xF0, 0x10004) := by decide

/-- R162 (a): two members of group 0x29 with one function code. -/
theorem test_wf_refuses_equal_priv_functs : ({ Encoding.candidate with rfe := 15 }).privWf = false := by decide

/-- The parameters of `State.reset` are a machine's (R10). -/
theorem test_config_wf : defaultConfig.wf = true := by decide

/-- R10: an encoding that R162 forbids. -/
theorem test_wf_refuses_encoding :
    ({ defaultConfig with enc := { Encoding.candidate with subi := 0x3C } }).wf = false := by decide

/-- R84: no RAM, and one byte more than 256 MiB. -/
theorem test_wf_refuses_ram_size :
    ({ defaultConfig with ramSize := 0 }).wf = false ∧ ({ defaultConfig with ramSize := 0x10000001 }).wf = false := by
  decide

/-- R97: one byte more than the ROM window. -/
theorem test_wf_refuses_rom_length : ({ defaultConfig with romLen := 0x20001 }).wf = false := by decide

/-- R482: vectors that Raise does not perform. -/
theorem test_wf_refuses_uart_vector :
    ({ defaultConfig with uartIrq := some 0 }).wf = false ∧ ({ defaultConfig with uartIrq := some 64 }).wf = false := by
  decide

/-- The construction that `State.reset` is the power-on state of. -/
def base : Construction := ⟨defaultConfig, [], [], [], []⟩

/-- R495, R9: nine disks; RAM contents past the RAM; contents that are not canonical; an image shorter than its bytes. -/
theorem test_construction_refuses :
    ({ base with disks := List.replicate 9 ⟨512, []⟩ }).allowed = false ∧
    ({ base with ramInit := [(0x100000, 1)] }).allowed = false ∧
    ({ base with ramInit := [(1, 1), (0, 1)] }).allowed = false ∧
    ({ base with disks := [⟨1, [(1, 1)]⟩] }).allowed = false := by decide

/-- V1: the undecoded words are refused by name (R170). -/
theorem test_decode_refuses :
    decode Encoding.candidate 0x80000039 = .error (.unusedRegFunct 8) ∧
    decode Encoding.candidate 0x00000000 = .error (.unusedOpcode 0) ∧
    decode Encoding.candidate 0x20000031 = .error (.unusedGrpFunct 2) ∧
    decode Encoding.candidate 0x00000029 = .error (.unusedPrivFunct 0) ∧
    decodeBytes Encoding.candidate [0, 0, 0] = .error .truncated := by decide

/-- W10: the sign extensions. -/
theorem test_sign_extensions :
    sext16 0x8000 = 0xFFFF8000 ∧ sext5 0x10 = 0xFFFFFFF0 ∧ sext5 0x0F = 0x0F ∧ sext5 0x1F = 0xFFFFFFFF := by decide

/-! ### Decoding: one word per instruction, written out from its format (R153 to R158), most of them 95_test_vectors.md's -/

/-- V1. -/
theorem test_decode_j : decode Encoding.candidate 0x0000000E = .ok (.j 1) := by decide

/-- V1. -/
theorem test_decode_jal : decode Encoding.candidate 0x0000003F = .ok (.jal 7) := by decide

/-- V1. -/
theorem test_decode_addi : decode Encoding.candidate 0xFFFF107C = .ok (.addi 1 2 0xFFFF) := by decide

/-- V2. -/
theorem test_decode_subi : decode Encoding.candidate 0x00011074 = .ok (.subi 1 2 1) := by decide

/-- V2. -/
theorem test_decode_slti : decode Encoding.candidate 0xFFFF106C = .ok (.slti 1 2 0xFFFF) := by decide

/-- V2. -/
theorem test_decode_sltis : decode Encoding.candidate 0x80001064 = .ok (.sltis 1 2 0x8000) := by decide

/-- V2. -/
theorem test_decode_andi : decode Encoding.candidate 0xFF00105C = .ok (.andi 1 2 0xFF00) := by decide

/-- V2. -/
theorem test_decode_ori : decode Encoding.candidate 0x5678104C = .ok (.ori 1 2 0x5678) := by decide

/-- V2. -/
theorem test_decode_xori : decode Encoding.candidate 0x00FF1094 = .ok (.xori 2 2 0x00FF) := by decide

/-- V2. -/
theorem test_decode_lui : decode Encoding.candidate 0x12341044 = .ok (.lui 1 2 0x1234) := by decide

/-- V1. -/
theorem test_decode_jalr : decode Encoding.candidate 0x80002838 = .ok (.jalr 0 5 0x8000) := by decide

/-- V5. -/
theorem test_decode_ldb : decode Encoding.candidate 0x0003107B = .ok (.ldb 1 2 3) := by decide

/-- V5. -/
theorem test_decode_ldi : decode Encoding.candidate 0x00011073 = .ok (.ldi 1 2 1) := by decide

/-- V5. -/
theorem test_decode_ldl : decode Encoding.candidate 0x0200106B = .ok (.ldl 1 2 0x200) := by decide

/-- V5. -/
theorem test_decode_stb : decode Encoding.candidate 0x0003107A = .ok (.stb 1 2 3) := by decide

/-- V5. -/
theorem test_decode_sti : decode Encoding.candidate 0x00011072 = .ok (.sti 1 2 1) := by decide

/-- V5. -/
theorem test_decode_stl : decode Encoding.candidate 0x0002106A = .ok (.stl 1 2 2) := by decide

/-- V1. -/
theorem test_decode_beq : decode Encoding.candidate 0x8000003D = .ok (.beq 0 0x100000) := by decide

/-- V1. -/
theorem test_decode_bne : decode Encoding.candidate 0x7FFFF875 = .ok (.bne 1 0x0FFFFF) := by decide

/-- V7. -/
theorem test_decode_blt : decode Encoding.candidate 0x0000106D = .ok (.blt 1 2) := by decide

/-- V1. -/
theorem test_decode_add : decode Encoding.candidate 0x7BE30079 = .ok (.add 1 0 3 ⟨31, .asr⟩) := by decide

/-- V1. -/
theorem test_decode_sub : decode Encoding.candidate 0x6017A639 = .ok (.sub 24 20 23 ⟨0, .lsl⟩) := by decide

/-- V3. -/
theorem test_decode_slt : decode Encoding.candidate 0x50031079 = .ok (.slt 1 2 3 ⟨0, .lsl⟩) := by decide

/-- V3. -/
theorem test_decode_slts : decode Encoding.candidate 0x40231079 = .ok (.slts 1 2 3 ⟨1, .lsl⟩) := by decide

/-- V3. -/
theorem test_decode_and : decode Encoding.candidate 0x35031079 = .ok (.and 1 2 3 ⟨8, .lsr⟩) := by decide

/-- V3. -/
theorem test_decode_or : decode Encoding.candidate 0x1F031079 = .ok (.or 1 2 3 ⟨24, .ror⟩) := by decide

/-- V3. -/
theorem test_decode_xor : decode Encoding.candidate 0x20021079 = .ok (.xor 1 2 2 ⟨0, .lsl⟩) := by decide

/-- V3. -/
theorem test_decode_nor : decode Encoding.candidate 0x00001079 = .ok (.nor 1 2 0 ⟨0, .lsl⟩) := by decide

/-- V5. -/
theorem test_decode_ldbx : decode Encoding.candidate 0xF0031079 = .ok (.ldbx 1 2 3 ⟨0, .lsl⟩) := by decide

/-- V5. -/
theorem test_decode_ldix : decode Encoding.candidate 0xE0231079 = .ok (.ldix 1 2 3 ⟨1, .lsl⟩) := by decide

/-- V5. -/
theorem test_decode_ldlx : decode Encoding.candidate 0xD8231079 = .ok (.ldlx 1 2 3 ⟨1, .asr⟩) := by decide

/-- V5. -/
theorem test_decode_stbx : decode Encoding.candidate 0xB0031079 = .ok (.stbx 1 2 3 ⟨0, .lsl⟩) := by decide

/-- V5. -/
theorem test_decode_stix : decode Encoding.candidate 0xA0231079 = .ok (.stix 1 2 3 ⟨1, .lsl⟩) := by decide

/-- V5. -/
theorem test_decode_stlx : decode Encoding.candidate 0x90001039 = .ok (.stlx 0 2 0 ⟨0, .lsl⟩) := by decide

/-- V1, bits 27..21 ignored. -/
theorem test_decode_mul : decode Encoding.candidate 0xFFE31071 = .ok (.mul 1 2 (.reg 3)) := by decide

/-- V4. -/
theorem test_decode_div : decode Encoding.candidate 0xD0031071 = .ok (.div 1 2 (.reg 3)) := by decide

/-- V4. -/
theorem test_decode_divs : decode Encoding.candidate 0xC0031071 = .ok (.divs 1 2 (.reg 3)) := by decide

/-- V4. -/
theorem test_decode_mod : decode Encoding.candidate 0xB0031071 = .ok (.mod 1 2 (.reg 3)) := by decide

/-- V6. -/
theorem test_decode_ll : decode Encoding.candidate 0x90001071 = .ok (.ll 1 2) := by decide

/-- V6. -/
theorem test_decode_sc : decode Encoding.candidate 0x80021931 = .ok (.sc 4 3 (.reg 2)) := by decide

/-- V8. -/
theorem test_decode_sys : decode Encoding.candidate 0x00000031 = .ok (.sys) := by decide

/-- V8. -/
theorem test_decode_brk : decode Encoding.candidate 0x10000031 = .ok (.brk) := by decide

/-- V8. -/
theorem test_decode_fwc : decode Encoding.candidate 0xA0000029 = .ok (.fwc) := by decide

/-- V8. -/
theorem test_decode_rfe : decode Encoding.candidate 0xB0000029 = .ok (.rfe) := by decide

/-- V8. -/
theorem test_decode_hlt : decode Encoding.candidate 0xC0000029 = .ok (.hlt) := by decide

/-- V8. -/
theorem test_decode_ftlb : decode Encoding.candidate 0xD0000029 = .ok (.ftlb) := by decide

/-- V8. -/
theorem test_decode_mtcr : decode Encoding.candidate 0xE0040829 = .ok (.mtcr 4 1) := by decide

/-- V8. -/
theorem test_decode_mfcr : decode Encoding.candidate 0xF0080069 = .ok (.mfcr 1 8) := by decide

/-! ### One step of each instruction (95_test_vectors.md V2 to V8): the register and the pc after it -/

/-- V2 (R202). -/
theorem test_addi_wraps : regPc 1 (start 0x0001107C [(2, 0xFFFFFFFF)]) = some (0, 0x10004) := by decide

/-- V2 (R203). -/
theorem test_subi_zero_extends : regPc 1 (start 0xFFFF1074 [(2, 0x10000)]) = some (1, 0x10004) := by decide

/-- V2 (R204). -/
theorem test_slti_is_unsigned : regPc 1 (start 0xFFFF106C [(2, 0xFFFFFFFF)]) = some (0, 0x10004) := by decide

/-- V2 (R205). -/
theorem test_sltis_sign_extends : regPc 1 (start 0x80001064 [(2, 0x80000000)]) = some (1, 0x10004) := by decide

/-- V2 (R205). -/
theorem test_sltis_is_strict : regPc 1 (start 0x80001064 [(2, 0xFFFF8000)]) = some (0, 0x10004) := by decide

/-- V2 (R206). -/
theorem test_andi_zero_extends : regPc 1 (start 0xFFFF105C [(2, 0xFFFFFFFF)]) = some (0xFFFF, 0x10004) := by decide

/-- V2 (R207). -/
theorem test_ori : regPc 1 (start 0x5678104C [(2, 0x12340000)]) = some (0x12345678, 0x10004) := by decide

/-- V2 (R208). -/
theorem test_xori_own_source : regPc 2 (start 0x00FF1094 [(2, 0x0F0F0F0F)]) = some (0x0F0F0FF0, 0x10004) := by decide

/-- V2 (R209). -/
theorem test_lui_keeps_high_bits : regPc 1 (start 0xFFFF1044 [(2, 0x00F0F000)]) = some (0xFFFFF000, 0x10004) := by decide

/-- V2 (R32). -/
theorem test_r0_write_discarded : regPc 0 (start 0x0005103C [(2, 1)]) = some (0, 0x10004) := by decide

/-- V3 (R210). -/
theorem test_add_shifted : regPc 1 (start 0x70831079 [(2, 1), (3, 1)]) = some (0x11, 0x10004) := by decide

/-- V3 (R160). -/
theorem test_add_asr_31 : regPc 1 (start 0x7BE30079 [(3, 0x80000000)]) = some (0xFFFFFFFF, 0x10004) := by decide

/-- V3 (R211). -/
theorem test_sub_wraps : regPc 1 (start 0x60031079 [(2, 0), (3, 1)]) = some (0xFFFFFFFF, 0x10004) := by decide

/-- V3 (R212). -/
theorem test_slt_is_unsigned : regPc 1 (start 0x50031079 [(2, 1), (3, 0xFFFFFFFF)]) = some (1, 0x10004) := by decide

/-- V3 (R213). -/
theorem test_slts_is_signed : regPc 1 (start 0x40031079 [(2, 0x80000000), (3, 0x7FFFFFFF)]) = some (1, 0x10004) := by decide

/-- V3 (R214). -/
theorem test_and_lsr : regPc 1 (start 0x35031079 [(2, 0xFFFFFFFF), (3, 0xFF00FF00)]) = some (0x00FF00FF, 0x10004) := by decide

/-- V3 (R215). -/
theorem test_or_ror : regPc 1 (start 0x1D031079 [(2, 0), (3, 0x12345678)]) = some (0x78123456, 0x10004) := by decide

/-- V3 (R216). -/
theorem test_xor_self : regPc 1 (start 0x20021079 [(2, 0xDEADBEEF)]) = some (0, 0x10004) := by decide

/-- V3 (R217). -/
theorem test_nor : regPc 1 (start 0x00001079 [(2, 0xFFFF)]) = some (0xFFFF0000, 0x10004) := by decide

/-- V4 (R218). -/
theorem test_mul_low_word : regPc 1 (start 0xF0031071 [(2, 0xFFFFFFFF), (3, 3)]) = some (0xFFFFFFFD, 0x10004) := by decide

/-- V4 (R219). -/
theorem test_div_by_zero : regPc 1 (start 0xD0031071 [(2, 7), (3, 0)]) = some (0, 0x10004) := by decide

/-- V4 (R219). -/
theorem test_div_is_unsigned : regPc 1 (start 0xD0031071 [(2, 0xFFFFFFF9), (3, 2)]) = some (0x7FFFFFFC, 0x10004) := by decide

/-- V4 (R220). -/
theorem test_divs_rounds_to_zero : regPc 1 (start 0xC0031071 [(2, 7), (3, 0xFFFFFFFE)]) = some (0xFFFFFFFD, 0x10004) := by decide

/-- V4 (R220). -/
theorem test_divs_overflow : regPc 1 (start 0xC0031071 [(2, 0x80000000), (3, 0xFFFFFFFF)]) = some (0x80000000, 0x10004) := by decide

/-- V4 (R221). -/
theorem test_mod_is_unsigned : regPc 1 (start 0xB0031071 [(2, 0xFFFFFFF9), (3, 10)]) = some (9, 0x10004) := by decide

/-- V5 (R252). -/
theorem test_ldb_zero_extends : regPc 1 (start 0x0003107B [(2, 0x2000)]) = some (0xAB, 0x10004) := by decide

/-- V5 (R253). -/
theorem test_ldi_odd_address : regPc 1 (start 0x00001073 [(2, 0x2001)]) = some (0x3456, 0x10004) := by decide

/-- V5 (R254). -/
theorem test_ldl_little_endian : regPc 1 (start 0x0001106B [(2, 0x1FFC)]) = some (0xAB345678, 0x10004) := by decide

/-- V5 (R93). -/
theorem test_ldl_board_register : regPc 1 (start 0x0200106B [(2, 0xF8000000)]) = some (0x00030001, 0x10004) := by decide

/-- V5 (R258), other byte. -/
theorem test_ldbx : regPc 1 (start 0xF0031079 [(2, 0x2000), (3, 2)]) = some (0x34, 0x10004) := by decide

/-- V5 (R259), other bytes. -/
theorem test_ldix : regPc 1 (start 0xE0231079 [(2, 0x2000), (3, 1)]) = some (0xAB34, 0x10004) := by decide

/-- V5 (R260), other address. -/
theorem test_ldlx_negative_index : regPc 1 (start 0xD8231079 [(2, 0x2004), (3, 0xFFFFFFF8)]) = some (0xAB345678, 0x10004) := by decide

/-- V8 (R309). -/
theorem test_mfcr : regPc 1 (start 0xF0080069 []) = some (0x80060000, 0x10004) := by decide

/-- V8 (R309, R32). -/
theorem test_mfcr_r0 : regPc 0 (start 0xF0080029 []) = some (0x80060000, 0x10004) := by decide

/-- V6 (R265). -/
theorem test_sc_unlocked : regPc 4 (start 0x80021931 [(2, 0x99), (3, 0xFFFFF000)]) = some (0, 0x10004) := by decide

/-- V7 (R281). -/
theorem test_j_bank : regPc 1 (start 0xFFFFFFFE []) = some (0xAAAAAAAA, 0x7FFFFFFC) := by decide

/-- V7 (R282). -/
theorem test_jal : regPc 31 (start 0x00002007 []) = some (0x10004, 0x1000) := by decide

/-- V7 (R283). -/
theorem test_jalr_same_register : regPc 5 (start 0x00012978 [(5, 0x3000)]) = some (0x10004, 0x3004) := by decide

/-- V7 (R283). -/
theorem test_jalr_negative : regPc 1 (start 0xFFFF2878 [(5, 0x3000)]) = some (0x10004, 0x2FFC) := by decide

/-- V7 (R284). -/
theorem test_beq_taken : regPc 1 (start 0xFFFFF87D [(1, 0)]) = some (0, 0xFFFC) := by decide

/-- V7 (R284). -/
theorem test_beq_not_taken : regPc 1 (start 0xFFFFF87D [(1, 1)]) = some (1, 0x10004) := by decide

/-- V7 (R285). -/
theorem test_bne_most_positive : regPc 1 (start 0x7FFFF875 [(1, 1)]) = some (1, 0x40FFFC) := by decide

/-- V7 (R285). -/
theorem test_bne_not_taken : regPc 1 (start 0x00002075 [(1, 0)]) = some (0, 0x10004) := by decide

/-- V7 (R286). -/
theorem test_blt_taken : regPc 1 (start 0x0000106D [(1, 0x80000000)]) = some (0x80000000, 0x10008) := by decide

/-- V7 (R286). -/
theorem test_blt_not_taken : regPc 1 (start 0x0000106D [(1, 0x7FFFFFFF)]) = some (0x7FFFFFFF, 0x10004) := by decide

/-- V5 (R255). -/
theorem test_stb : bytesAfter 0x2003 (start 0x0003107A [(1, 0x123456AB), (2, 0x2000)]) = some [0xAB, 0, 0, 0] := by decide

/-- V5 (R256), other address. -/
theorem test_sti : bytesAfter 0x2004 (start 0x00011072 [(1, 0xAAAA1234), (2, 0x2002)]) = some [0x34, 0x12, 0, 0] := by decide

/-- V5 (R257). -/
theorem test_stl : bytesAfter 0x2008 (start 0x0002106A [(1, 0x11223344), (2, 0x2000)]) = some [0x44, 0x33, 0x22, 0x11] := by decide

/-- V5 (R261). -/
theorem test_stbx : bytesAfter 0x2005 (start 0xB0031079 [(1, 0x77), (2, 0x2000), (3, 5)]) = some [0x77, 0, 0, 0] := by decide

/-- V5 (R262), other address. -/
theorem test_stix : bytesAfter 0x2004 (start 0xA0231079 [(1, 0xBEEF), (2, 0x2000), (3, 2)]) = some [0xEF, 0xBE, 0, 0] := by decide

/-- V5 (R263). -/
theorem test_stlx_r0 : bytesAfter 0x2000 (start 0x90001039 [(2, 0x2000)]) = some [0, 0, 0, 0] := by decide

/-- V5 (R121). -/
theorem test_ldl_r0_still_faults_raises : raised (start 0x0000102B [(2, 0xFFC)]) = some (.pagefault, 0xFFC, 0x10000) := by decide

/-- V5 (R82). -/
theorem test_ldb_unmapped_area_raises : raised (start 0x0000107B [(2, 0x18000000)]) = some (.buserror, 0x18000000, 0x10000) := by decide

/-- V5 (R121). -/
theorem test_stl_below_bounds_raises : raised (start 0x0000106A [(1, 5), (2, 0)]) = some (.pagewrite, 0, 0x10000) := by decide

/-- V6 (R265). -/
theorem test_sc_faults_raises : raised ((start 0x80021931 [(2, 0x99), (3, 0xFFFFF000)]).setLocked true) = some (.pagewrite, 0xFFFFF000, 0x10000) := by decide

/-- V8 (R301). -/
theorem test_sys_raises : raised (start 0x00000031 []) = some (.syscall, 0xAAAAAAAA, 0x10004) := by decide

/-- V8 (R302). -/
theorem test_brk_raises : raised (start 0x10000031 []) = some (.brkpoint, 0xAAAAAAAA, 0x10004) := by decide

/-- V8 (R304). -/
theorem test_fwc_raises : raised (start 0xA0000029 []) = some (.fwcall, 0xAAAAAAAA, 0x10004) := by decide

/-- V8 (R170). -/
theorem test_unused_funct_raises : raised (start 0x80000039 []) = some (.invinst, 0xAAAAAAAA, 0x10000) := by decide

/-- V8 (R170). -/
theorem test_unused_opcode_raises : raised (start 0x00000000 []) = some (.invinst, 0xAAAAAAAA, 0x10000) := by decide

/-- V6 (R264): LL sets the flag, also where its load faults. -/
theorem test_ll :
    regPc 1 (start 0x90001071 [(2, 0x2000)]) = some (0xAB345678, 0x10004) ∧
    (after (start 0x90001071 [(2, 0x2000)])).map (·.cpu.locked) = some true := by decide

theorem test_ll_faults :
    raised (start 0x90001071 [(2, 0x800)]) = some (.pagefault, 0x800, 0x10000) ∧
    (after (start 0x90001071 [(2, 0x800)])).map (·.cpu.locked) = some true := by decide

/-- V6 (R265): with rD = rB the data is read before the status is written. -/
theorem test_sc_locked :
    regPc 2 ((start 0x800218B1 [(2, 0x99), (3, 0x2000)]).setLocked true) = some (1, 0x10004) ∧
    bytesAfter 0x2000 ((start 0x800218B1 [(2, 0x99), (3, 0x2000)]).setLocked true) = some [0x99, 0, 0, 0] := by decide

/-- V8 (R308): CPUID is writable. -/
theorem test_mtcr : (after (start 0xE0080829 [(1, 0x12345678)])).map (·.cr crCPUID) = some 0x12345678 := by decide

/-- V8 (R305). -/
theorem test_rfe :
    (after ((((start 0xB0000029 []).setCr crEPC 0x5004).setCr crERS 1).setLocked true)).map
      (fun t => (t.cpu.pc, t.cr crRS, t.cpu.locked)) = some (0x5004, 1, false) := by decide

/-- V8 (R306). -/
theorem test_hlt :
    (after (start 0xC0000029 [])).map (fun t => (t.cpu.halted, t.cpu.pc)) = some (true, 0x10004) := by decide

/-- V8 (R307). -/
theorem test_ftlb : after (start 0xD0000029 []) = some ((start 0xD0000029 []).setPc 0x10004) := by decide

/-- V8 (R300): a privileged instruction in user mode. -/
theorem test_user_mode :
    raised ((start 0xE0040829 [(1, 0x9000)]).setCr crRS 1) = some (.invprvg, 0xAAAAAAAA, 0x10000) ∧
    raised ((start 0x00000029 []).setCr crRS 1) = some (.invprvg, 0xAAAAAAAA, 0x10000) := by decide

/-- V5 (R122): an unaligned long where `ALIGN_TRAP`. -/
theorem test_align_trap :
    raised { start 0x0000106B [(2, 0x2001)] with config := { defaultConfig with alignTrap := true } } =
      some (.unaligned, 0x2001, 0x10000) := by decide

/-- V8 (R32): MFCR into R0 where `MFCR_R0_VISIBLE` is false. -/
theorem test_mfcr_r0_hidden :
    regPc 0 { start 0xF0080029 [] with config := { defaultConfig with mfcrR0Visible := false } } =
      some (0, 0x10004) := by decide

/-! ### Delivery (V9) -/

/-- The start of V9 with a pending exception and RS. -/
def raisedState (e : Option Exc) (rs : Word) : State := (((start 0 []).setPc 0x10008).setExc e).setCr crRS rs

/-- EPC, ECAUSE, ERS, RS and the pc after the delivery check. -/
def delivered (s : State) : List Word :=
  let t := s.deliver
  [t.cr crEPC, t.cr crECAUSE, t.cr crERS, t.cr crRS, t.cpu.pc]

/-- V9 (R441): the TMMU bit clears MMU. -/
theorem test_deliver_tmmu :
    delivered (raisedState (some .pagefault) 0x87) = [0x10008, 12, 0x87, 0x80, 0x8000] := by decide

/-- V9 (R441): MMU and the reserved bits are kept. -/
theorem test_deliver_keeps_bits :
    delivered (raisedState (some .pagefault) 5) = [0x10008, 12, 5, 4, 0x8000] ∧
    delivered (raisedState (some .buserror) 0x10103) = [0x10008, 4, 0x10103, 0x10100, 0x8000] := by decide

/-- V9 (R441): FWCALL goes to FWVEC and clears MMU. -/
theorem test_deliver_fwcall :
    delivered ((raisedState (some .fwcall) 6).setCr crFWVEC 0xFFFE0100) = [0x10008, 3, 6, 0, 0xFFFE0100] := by decide

/-- V9 (R443): FWVEC = 0 resets the CPU and saves nothing. -/
theorem test_deliver_vector_zero :
    delivered (raisedState (some .fwcall) 6) = [0xAAAAAAAA, 0xAAAAAAAA, 0xAAAAAAAA, 0, 0xFFFE0000] := by decide

/-- V9 with bits set in the LSIC. -/
def withLsic (s : State) (l : Lsic) : State := s.setPlat { s.plat with lsic := l }

/-- V9 (R440, R416): the disk's interrupt; the second word; masked; INT clear. -/
theorem test_deliver_interrupt :
    delivered (withLsic (raisedState none 2) ⟨0, 0, 8, 0⟩) = [0x10008, 1, 2, 0, 0x8000] ∧
    delivered (withLsic (raisedState none 2) ⟨0, 0, 0, 0x20000⟩) = [0x10008, 1, 2, 0, 0x8000] ∧
    (withLsic (raisedState none 2) ⟨8, 0, 8, 0⟩).deliverable = false ∧
    (withLsic (raisedState none 0) ⟨0, 0, 8, 0⟩).deliverable = false := by decide

/-- V9 (R442): the exception comes before the interrupt. -/
theorem test_deliver_exception_first :
    delivered (withLsic (raisedState (some .pagefault) 2) ⟨0, 0, 2, 0⟩) = [0x10008, 12, 2, 0, 0x8000] := by decide

/-- V9 (R460): a halted CPU takes no interrupt. -/
theorem test_halted_stays :
    after ((withLsic (raisedState none 2) ⟨0, 0, 8, 0⟩).setHalted true) =
      some ((withLsic (raisedState none 2) ⟨0, 0, 8, 0⟩).setHalted true) := by decide

/-! ### Translation (V10) and the bus (V11) -/

/-- The start of V10. -/
def mapped : State :=
  let s := (((start 0 []).setCr crRS 4).setCr crPGTB 0x1000)
  s.setPlat { s.plat with
    mem := ((((Memory.writeLE [] 0x1004 .long 0x61).writeLE 0x300C .long 0xA01).writeLE 0x50ABC .long 0xCAFEBABE).writeLE
      0x1008 .long 0).writeLE 0x100C .long 0x300001 }

/-- V10: a mapped read; an invalid PTE; an invalid PDE; a write to it; a PTE that cannot be read; no walk below 0x1000. -/
theorem test_page_walk :
    mapped.memRead 0x403ABC .long = .ok 0xCAFEBABE ∧
    mapped.memRead 0x404000 .long = .error ⟨.pagefault, some 0x404000⟩ ∧
    mapped.memRead 0x800000 .long = .error ⟨.pagefault, some 0x800000⟩ ∧
    mapped.translate 0x800000 .long .write = .error ⟨.pagewrite, some 0x800000⟩ ∧
    mapped.memRead 0xC03ABC .long = .error ⟨.buserror, some 0x1800000C⟩ ∧
    mapped.memRead 0x800 .long = .error ⟨.pagefault, some 0x800⟩ := by decide

/-- V10 (R111): a directory that cannot be read. -/
theorem test_page_directory_unreadable :
    (mapped.setCr crPGTB 0x18000000).memRead 0x403ABC .long = .error ⟨.buserror, some 0x18000004⟩ := by decide

/-- The parameters and the platform of V11: a ROM of 32 bytes. -/
def busConfig : Config := { defaultConfig with romLen := 32 }
/-- See `busConfig`. -/
def busPlat : Platform := { Platform.reset with
  mem := Memory.place (Memory.place [] romBase [0, 1, 2, 3, 4, 5, 6, 7, 8, 9, 10, 11, 12, 13, 14, 15]) 0xFFFE0010
    [0, 1, 2, 3, 4, 5, 6, 7, 8, 9, 10, 11, 12, 13, 14, 15] }

/-- V11: the edges of RAM and the unmapped areas. -/
theorem test_bus_areas :
    busRead busConfig busPlat 0x000FFFFC .long = some 0 ∧ busRead busConfig busPlat 0x000FFFFD .long = none ∧
    busRead busConfig busPlat 0x0FFFFFFF .byte = none ∧ busRead busConfig busPlat 0xB8000000 .long = none ∧
    busRead busConfig busPlat 0xC0000000 .long = some 0 ∧ busRead busConfig busPlat 0xF0000000 .long = some 0 := by decide

/-- V11: the ROM and its end. -/
theorem test_bus_rom :
    busRead busConfig busPlat 0xFFFE0000 .long = some 0x03020100 ∧
    busRead busConfig busPlat 0xFFFE001E .int = some 0x0F0E ∧ busRead busConfig busPlat 0xFFFE001E .long = none ∧
    busRead busConfig busPlat 0xFFFE0020 .byte = none ∧
    busWrite busConfig busPlat 0xFFFE0000 .long 9 = some busPlat := by decide

/-- V11: the windows of the board and their edges. -/
theorem test_bus_board :
    busRead busConfig busPlat 0xF8000045 .byte = some 0 ∧ busRead busConfig busPlat 0xF8000010 .long = none ∧
    busRead busConfig busPlat 0xF8000800 .int = none ∧ busRead busConfig busPlat 0xF8010FFE .int = some 0 ∧
    busRead busConfig busPlat 0xF8010FFE .long = none ∧ busRead busConfig busPlat 0xF80201FE .long = none ∧
    busRead busConfig busPlat 0xF8030014 .long = none ∧ busRead busConfig busPlat 0xF8800000 .long = none := by decide

/-- W8: NVRAM is little-endian. -/
theorem test_nvram :
    ((busWrite busConfig busPlat 0xF8001004 .long 0x11223344).map
      (fun q => busRead busConfig q 0xF8001005 .byte)) = some (some 0x33) := by decide

/-! ### Devices (V12 to V16) -/

/-- V12: claim, complete, masks. -/
theorem test_lsic :
    (Lsic.reset.raise 5).claim = 5 ∧ ((Lsic.reset.raise 5).complete 5).claim = 0 ∧
    ((Lsic.reset.raise 49).raise 3).claim = 3 ∧
    ({ (Lsic.reset.raise 49).raise 3 with mask0 := 8 }).claim = 49 ∧
    ({ (Lsic.reset.raise 49).raise 3 with mask0 := 8, mask1 := 0x20000 }).signal = false ∧
    (Lsic.reset.raise 3).complete 64 = Lsic.reset.raise 3 ∧
    (⟨0, 0, 1, 0⟩ : Lsic).claim = 0 ∧ (⟨0, 0, 1, 0⟩ : Lsic).signal = true ∧
    (⟨0, 0, 0, 0x80000000⟩ : Lsic).claim = 63 := by decide

/-- A platform with an image of 1124 bytes, the first of block 1 and the first two of block 0 not zero, and one of 511. -/
def diskPlat : Platform := { Platform.reset with
  disk := { Disk.reset with images := [⟨1124, [(0, 0xAB), (1, 0xCD), (512, 0x5A)]⟩, ⟨511, []⟩] } }

/-- A sequence of port writes. -/
def ports (c : Config) : List (Nat × Word) → Platform → Option Platform
  | [], p => some p
  | (n, v) :: l, p => (portWrite c p n v).bind (ports c l)

/-- V13, rows 2 to 5: sizes, a drive that does not exist, and what select makes of it. -/
theorem test_disk_sizes :
    (ports defaultConfig [(0x19, 5)] diskPlat).map (fun p => (p.disk.portA, p.disk.portB)) = some (1, 2) ∧
    (ports defaultConfig [(0x1A, 1), (0x19, 5)] diskPlat).map (fun p => (p.disk.portA, p.disk.portB)) = some (1, 0) ∧
    (ports defaultConfig [(0x1A, 2), (0x19, 5)] diskPlat).map (fun p => (p.disk.portA, p.disk.portB)) = some (0, 0) ∧
    (ports defaultConfig [(0x1A, 9), (0x19, 1)] diskPlat).map (·.disk.selected) = some none := by decide

/-- V13, rows 7 to 11: select 0, interrupts on, read block 1, block 2 is silent, read info. -/
theorem test_disk_read :
    (ports defaultConfig [(0x19, 1), (0x19, 6), (0x1A, 1), (0x19, 2), (0x1A, 2), (0x19, 2), (0x19, 4)] diskPlat).map
      (fun p => (p.mem, p.lsic.pend0, p.disk.portA, p.disk.portB)) = some ([(0xF8020000, 0x5A)], 8, 0, 1) := by decide +kernel

/-- V13, row 13: the buffer into block 0. -/
theorem test_disk_write :
    (ports defaultConfig [(0x19, 1), (0x19, 3)] { diskPlat with mem := [(0xF8020001, 0xEE)] }).map
      (fun p => p.disk.images) = some [⟨1124, [(1, 0xEE), (512, 0x5A)]⟩, ⟨511, []⟩] := by
  decide +kernel

/-- V14: write, receive twice, read. -/
theorem test_uart :
    (ports defaultConfig [(0x11, 0x41), (0x10, 1), (0x11, 0x12345642), (0x10, 1), (0x10, 2)] Platform.reset).map
      (fun p => (p.uart0.output, p.uart0.data)) = some ([0x41, 0x42], 0xFFFF) ∧
    (ports defaultConfig [(0x10, 2)] ((Platform.reset.hostEvent defaultConfig (.uartReceive .uart0 0x7A)).hostEvent
      defaultConfig (.uartReceive .uart0 0x7B))).map (fun p => (p.uart0.data, p.uart0.lastData)) =
        some (0x7B, 0xFFFF) := by decide

/-- V15, rows 5 to 8: the ticks of an interval of 10. -/
theorem test_rtc_ticks :
    let p := fun (acc ms : Nat) =>
      ({ Platform.reset with rtc := ⟨10, acc, none, 10⟩ } : Platform).hostEvent defaultConfig (.rtcTick ms)
    (p 0 4).rtc.acc = 4 ∧ (p 0 4).lsic.pend0 = 0 ∧ (p 4 7).rtc.acc = 1 ∧ (p 4 7).lsic.pend0 = 2 ∧
    (p 1 25).rtc.acc = 16 ∧ (p 3 7).rtc.acc = 0 := by decide

/-- V15, rows 11 to 13: the overridden clock. -/
theorem test_rtc_override :
    (ports defaultConfig [(0x20, 2)] { Platform.reset with rtc := ⟨10, 0, some 1001023, 0⟩ }).map (·.rtc.data) =
      some 1001 ∧
    (ports defaultConfig [(0x20, 3)] { Platform.reset with rtc := ⟨10, 0, some 1001023, 0⟩ }).map (·.rtc.data) =
      some 23 ∧
    (ports defaultConfig [(0x21, 5), (0x20, 5)] { Platform.reset with rtc := ⟨10, 0, some 1001023, 0⟩ }).map
      (·.rtc.override) = some (some 1001005) ∧
    (ports defaultConfig [(0x21, 2000), (0x20, 4)] { Platform.reset with rtc := ⟨10, 0, some 1001023, 0⟩ }).map
      (·.rtc.override) = some (some 2000023) := by decide

/-- V16, rows 5 to 8: the line of slot 1, the key events, and what next event gives. -/
theorem test_hub :
    let p := (Platform.reset.hostEvent defaultConfig (.keyDown 1))
    let q := (ports defaultConfig [(0x34, 1), (0x32, 1)] p).map (fun p =>
      ((p.hostEvent defaultConfig (.keyDown 0x1B)).hostEvent defaultConfig (.keyUp 1)))
    p.lsic.pend1 = 0 ∧ q.map (fun p => (p.hub.lines[1], p.lsic.pend1)) = some (49, 0x20000) ∧
    (q.bind (ports defaultConfig [(0x30, 1), (0x32, 1)])).map (·.kbd.portA) = some 0x8001 ∧
    (q.bind (ports defaultConfig [(0x30, 1), (0x32, 1), (0x32, 1)])).map (·.kbd.portA) = some 0x1B ∧
    (q.bind (ports defaultConfig [(0x30, 1), (0x32, 1), (0x32, 1), (0x32, 1)])).map (·.kbd.portA) = some 0xFFFF ∧
    (q.bind (ports defaultConfig [(0x30, 16), (0x30, 1), (0x33, 0x1B), (0x32, 3)])).map (·.kbd.portA) = some 1 := by
  decide

/-- R487, R489: action 2 of the keyboard and of the controller, with port_b below 16, at 15 and at 16 (R476). -/
theorem test_hub_resets :
    let p : Platform := { Platform.reset with hub := ⟨0, Vector.replicate 16 0, 7, 8⟩ }
    (ports defaultConfig [(0x30, 1), (0x33, 9), (0x32, 2)] p).map (fun p => (p.kbd.portA, p.hub.portA)) = some (0, 7) ∧
    (ports defaultConfig [(0x32, 2)] p).map (·.hub.portA) = some 0 ∧
    (ports defaultConfig [(0x34, 15), (0x32, 2)] p).map (·.hub.portA) = some 0 ∧
    (ports defaultConfig [(0x34, 16), (0x32, 2)] p).map (·.hub.portA) = some 7 := by decide

/-- R88: the framebuffer's first long, its second, and the string after them, by width. -/
theorem test_framebuffer :
    let c := { defaultConfig with fbPresent := true }
    busRead c Platform.reset 0xC0000000 .long = some 0x0C007CA1 ∧
    busRead c Platform.reset 0xC0000004 .long = some 0x4B494E35 ∧
    busRead c Platform.reset 0xC0000008 .byte = some 0x6B ∧ busRead c Platform.reset 0xC0000011 .int = some 0x3631 ∧
    busRead c Platform.reset 0xC0000013 .byte = some 0 := by decide

/-- R471: the block count of an image of 2^41 - 1 bytes is the last that port_b holds; that of 2^41 bytes is a free value. -/
theorem test_block_count :
    (⟨2 ^ 41 - 1, []⟩ : DiskImage).countWord = 0xFFFFFFFF ∧
    (⟨2 ^ 41, []⟩ : DiskImage).countWord = Config.longBlockCount (2 ^ 32) := ⟨by decide, if_neg (by decide)⟩

/-! ### Reset and loading -/

/-- W11, V17: the first step after reset fetches ROM byte 0. -/
theorem test_first_fetch :
    State.reset.nextFetchAddr = 0xFFFE0000 ∧ regPc 1 (State.reset.withFetchWord 32 0x0001107C) = some (1, 0xFFFE0004) := by
  decide

/-- R443, R504: with an empty ROM the first step latches BUSERROR and the second resets the CPU and latches it again. -/
theorem test_empty_rom :
    raised State.reset = some (.buserror, 0xFFFE0000, 0xFFFE0000) ∧
    ((after State.reset).bind raised) = some (.buserror, 0xFFFE0000, 0xFFFE0000) := by decide

/-! ### Witnesses: a state and operands that meet every hypothesis of each statement, clause by clause -/

/-- DecodeInvertsEncode, DecodeReadsExactlyTheFormat: a numbering, a word with an ignored bit set. -/
theorem witness_decode :
    Encoding.candidate.wf = true ∧ decode Encoding.candidate 0xFFE31071 = .ok (.mul 1 2 (.reg 3)) ∧
      (0xFFE31071 : Word) ≠ encode Encoding.candidate (.mul 1 2 (.reg 3)) := by decide

/-- NotOrMultiplyAndShiftedForms, Division, LoadLinked, StoreConditional, CallTraps: the placement in group 0x31; and, with
DecodeInvertsEncode and DecodeReadsExactlyTheFormat, a placement in group 0x39 and a shifted instruction of it. -/
theorem witness_groups :
    Encoding.candidate.mul.group = .grp ∧ Encoding.candidate.div.group = .grp ∧ Encoding.candidate.divs.group = .grp ∧
    Encoding.candidate.mod.group = .grp ∧ Encoding.candidate.ll.group = .grp ∧ Encoding.candidate.sc.group = .grp ∧
    Encoding.candidate.sys.group = .grp ∧ Encoding.candidate.brk.group = .grp ∧
    placed.wf = true ∧ placed.mul = ⟨.reg, 8⟩ ∧ (Instr.mul 1 2 (.shifted 3 ⟨4, .lsl⟩)).wf placed = true ∧
    (Instr.mul 1 2 (.reg 3)).wf placed = false := by decide

/-- Division, NotOrMultiplyAndShiftedForms: a zero divisor, the overflow, an ordinary division whose quotient is not 0, each
without a shift and behind one (0x80000000 shifted out to the left, or right with its sign; 1 with a shift by 0). -/
theorem witness_division :
    let zero := start 0 [(2, 7), (3, 0)]
    let ovf := start 0 [(2, 0x80000000), (3, 0xFFFFFFFF)]
    let plain := start 0 [(2, 0x80000000), (3, 1)]
    zero.reg 3 = 0 ∧ (ovf.reg 2 = 0x80000000 ∧ ovf.reg 3 = 0xFFFFFFFF) ∧
      plain.reg 3 ≠ 0 ∧ ¬ (plain.reg 2 = 0x80000000 ∧ plain.reg 3 = 0xFFFFFFFF) ∧
      (ovf.opG (.shifted 2 ⟨1, .lsl⟩) = 0 ∧ ovf.reg 2 = 0x80000000 ∧ ovf.opG (.shifted 2 ⟨31, .asr⟩) = 0xFFFFFFFF ∧
        plain.opG (.shifted 3 ⟨0, .ror⟩) = 1) := by decide

/-- ImmediateLoads, IndexedLoads, LoadLinked: a read that answers, and one that raises with nothing pending. -/
theorem witness_loads :
    (start 0 []).memRead 0x2000 .byte = .ok 0x78 ∧ (start 0 []).memRead 0x2000 .int = .ok 0x5678 ∧
    (start 0 []).memRead 0x2000 .long = .ok 0xAB345678 ∧
    (start 0 []).memRead 0xFFF .byte = .error ⟨.pagefault, some 0xFFF⟩ ∧
    (start 0 []).memRead 0xFFF .int = .error ⟨.pagefault, some 0xFFF⟩ ∧
    (start 0 []).memRead 0xFFFFD .long = .error ⟨.buserror, some 0xFFFFD⟩ ∧
    (start 0 []).cpu.excPending = none := by decide

/-- The first and the last bytes of RAM that a plain access reaches. -/
theorem witness_plain_ram :
    PlainRam (start 0 []) 0x1000 .byte ∧ PlainRam (start 0 []) 0xFFFFF .byte ∧
    PlainRam (start 0 []) 0xFFFFE .int ∧ PlainRam (start 0 []) 0xFFFFC .long :=
  ⟨⟨by decide, by decide, by decide, by decide, .inl (by decide)⟩,
    ⟨by decide, by decide, by decide, by decide, .inl (by decide)⟩,
    ⟨by decide, by decide, by decide, by decide, .inl (by decide)⟩,
    ⟨by decide, by decide, by decide, by decide, .inl (by decide)⟩⟩

/-- LoadsCompleteFromRam, StoresCompleteInRam, LoadLinked, StoreConditional: operands whose effective address is plain RAM
in canonical memory, for an immediate and an indexed form, and the flag set. -/
theorem witness_ram_operands :
    let s := (start 0 [(2, 0x1000), (3, 0x400)]).setLocked true
    s.eaImm 2 .long 0xFFFF = 0x40FFC ∧ s.eaIdx 2 3 ⟨2, .lsl⟩ = 0x2000 ∧ s.reg 2 = 0x1000 ∧
      s.plat.mem.wf = true ∧ s.cpu.locked = true := by decide

/-- ImmediateStores, IndexedStores, StoreConditional: a write the bus takes, one it fails, one that does not translate; a
window of bytes; the disk's command port. -/
theorem witness_stores :
    let s := start 0 []
    (s.translate 0x2000 .byte .write = .ok 0x2000 ∧ Writable s.config 0x2000 .byte ∧
      (busWrite s.config s.plat 0x2000 .byte 7).isSome = true) ∧
    (s.translate 0xF8000064 .long .write = .ok 0xF8000064 ∧ DiskCommandPort 0xF8000064 ∧
      (busWrite s.config s.plat 0xF8000064 .long 2).isSome = true) ∧
    (s.translate 0x18000000 .int .write = .ok 0x18000000 ∧ busWrite s.config s.plat 0x18000000 .int 7 = none) ∧
    s.translate 0xFFF .long .write = .error ⟨.pagewrite, some 0xFFF⟩ ∧
    s.plat.mem.wf = true ∧ s.cpu.excPending = none := by
  refine ⟨⟨by decide, .inl (by decide), by decide⟩, ⟨by decide, by unfold DiskCommandPort; decide, by decide⟩,
    by decide, by decide, by decide, by decide⟩

/-- StoreConditional: the flag clear, and set. -/
theorem witness_store_conditional :
    (start 0 []).cpu.locked = false ∧ ((start 0 []).setLocked true).cpu.locked = true := by decide

/-- LatchesChangeOnlyByTheirInstructions: each latch changed. -/
theorem witness_latches :
    (∃ t, exec (.ll 1 2) (start 0 [(2, 0x2000)]) = .next t ∧ t.cpu.locked ≠ (start 0 [(2, 0x2000)]).cpu.locked) ∧
    (∃ t, exec .rfe ((start 0 []).setLocked true) = .next t ∧
      t.cpu.locked ≠ ((start 0 []).setLocked true).cpu.locked) ∧
    (∃ t, exec .hlt (start 0 []) = .next t ∧ t.cpu.halted ≠ (start 0 []).cpu.halted) :=
  ⟨⟨_, rfl, by decide⟩, ⟨_, rfl, by decide⟩, ⟨_, rfl, by decide⟩⟩

/-- The parameters of `State.reset` with `ALIGN_TRAP`. -/
def trapping : State := { start 0 [] with config := { defaultConfig with alignTrap := true } }

/-- AccessChecks: both sides of both bounds; the alignment trap; a translation that answers and one that raises; a bus that
answers and one that fails. -/
theorem witness_access_checks :
    ((0xFFF : Word).toNat < 0x1000 ∧ 0xFFFFF000 ≤ (0xFFFFF000 : Word).toNat) ∧
    (0x1000 ≤ (0x1000 : Word).toNat ∧ (0xFFFFEFFF : Word).toNat < 0xFFFFF000) ∧
    (trapping.config.alignTrap = true ∧ (0x1001 : Word).toNat % 4 ≠ 0) ∧
    (AlignedEnough trapping.config 0xFFFFEFFF .byte ∧ AlignedEnough trapping.config 0x1000 .long ∧
      (trapping.cr crRS).getLsbD 2 = false) ∧
    (trapping.translate 0x1000 .long .read = .ok 0x1000 ∧ busRead trapping.config trapping.plat 0x1000 .long = some 0) ∧
    (trapping.translate 0x18000000 .byte .read = .ok 0x18000000 ∧
      busRead trapping.config trapping.plat 0x18000000 .byte = none) ∧
    trapping.translate 0xFFF .byte .read = .error ⟨.pagefault, some 0xFFF⟩ ∧
    trapping.translate 0xFFF .byte .write = .error ⟨.pagewrite, some 0xFFF⟩ ∧
    (trapping.translate 0x1000 .long .write = .ok 0x1000 ∧
      (busWrite trapping.config trapping.plat 0x1000 .long 5).isSome = true) ∧
    (trapping.translate 0x18000000 .byte .write = .ok 0x18000000 ∧
      busWrite trapping.config trapping.plat 0x18000000 .byte 5 = none) :=
  ⟨by decide, by decide, by decide, ⟨.inr (.inl (by decide)), .inr (.inr (by decide)), by decide⟩, by decide, by decide,
    by decide, by decide, by decide, by decide⟩

/-- PageWalk: the hypotheses, and each entry unreadable, invalid and valid. -/
theorem witness_page_walk :
    AlignedEnough mapped.config 0x403ABC .long ∧ (mapped.cr crRS).getLsbD 2 = true ∧
    busRead mapped.config mapped.plat 0x1004 .long = some 0x61 ∧
    busRead mapped.config mapped.plat 0x300C .long = some 0xA01 ∧
    busRead mapped.config mapped.plat 0x3010 .long = some 0 ∧
    busRead mapped.config mapped.plat 0x1008 .long = some 0 ∧
    busRead mapped.config mapped.plat 0x100C .long = some 0x300001 ∧
    busRead mapped.config mapped.plat 0x1800000C .long = none ∧
    busRead mapped.config mapped.plat 0x18000004 .long = none :=
  ⟨.inl rfl, by decide⟩

/-- UnmappedAddresses: the first and last areas and offsets of each clause, and a machine with a framebuffer. -/
theorem witness_unmapped :
    (0x18000000 : Word).toNat / 2 ^ 27 = 3 ∧ (0xBFFFFFFF : Word).toNat / 2 ^ 27 = 23 ∧
    (0xC8000000 : Word).toNat / 2 ^ 27 = 25 ∧ (0xF7FFFFFF : Word).toNat / 2 ^ 27 = 30 ∧
    ((0xC0000000 : Word).toNat / 2 ^ 27 = 24 ∧ defaultConfig.fbPresent = false) ∧
    ((0xF8000400 : Word).toNat / 2 ^ 27 = 31 ∧ (0xF8000400 : Word).toNat % 2 ^ 27 = 0x400) ∧
    (0xF8000FFF : Word).toNat % 2 ^ 27 = 0xFFF ∧ (0xF8011000 : Word).toNat % 2 ^ 27 = 0x11000 ∧
    (0xF8020200 : Word).toNat % 2 ^ 27 = 0x20200 ∧ (0xF8030100 : Word).toNat % 2 ^ 27 = 0x30100 ∧
    (0xFFFDFFFF : Word).toNat % 2 ^ 27 = 0x7FDFFFF ∧ ({ defaultConfig with fbPresent := true }).fbPresent = true := by
  decide

/-- ByteWindows: an address of the RAM-descriptor page, and one of a present framebuffer. -/
theorem witness_opaque_areas :
    (0x10000000 : Word).toNat / 2 ^ 27 = 2 ∧ (0x17FFFFFF : Word).toNat / 2 ^ 27 = 2 ∧
    (0xC0000000 : Word).toNat / 2 ^ 27 = 24 ∧ (0xC7FFFFFF : Word).toNat / 2 ^ 27 = 24 ∧
    ({ defaultConfig with fbPresent := true }).fbPresent = true := by decide

/-- ByteWindows: the last access inside each window, and the first that leaves it. -/
theorem witness_byte_windows :
    Writable defaultConfig 0xFFFFC .long ∧ Writable defaultConfig 0xF8010FFE .int ∧
    Writable defaultConfig 0xF80201FF .byte ∧ Writable defaultConfig 0xF8020000 .long ∧
    (0xFFFFD : Word).toNat + Width.long.bytes = defaultConfig.ramSize + 1 ∧
    (0xF8010FFF : Word).toNat + Width.int.bytes = 0xF8011001 ∧
    (0xF80201FD : Word).toNat + Width.long.bytes = 0xF8020201 ∧ Platform.reset.mem.wf = true :=
  ⟨.inl (by decide), .inr (.inl (by decide)), .inr (.inr (by decide)), .inr (.inr (by decide)), by decide, by decide,
    by decide, by decide⟩

/-- RomWindow: the last long of a ROM of 32 bytes, and the first that leaves it (parameters in bounds: `test_config_wf`). -/
theorem witness_rom_window :
    0xFFFE0000 ≤ (0xFFFE001C : Word).toNat ∧
    (0xFFFE001C : Word).toNat + Width.long.bytes = 0xFFFE0000 + busConfig.romLen ∧
    0xFFFE0000 + busConfig.romLen < (0xFFFE001D : Word).toNat + Width.long.bytes := by decide

/-- BoardRegisters: registers 0 and 31, and accesses that are no aligned long. -/
theorem witness_board_registers :
    (0xF8000800 : Word).toNat = 0xF8000800 + 4 * (0 : Fin 32).val ∧
    (0xF800087C : Word).toNat = 0xF8000800 + 4 * (31 : Fin 32).val ∧
    ((0xF800087F : Word).toNat ≤ 0xF800087F ∧ (0xF800087F : Word).toNat % 4 ≠ 0) := by decide

/-- PortWindow: the first and last addresses, a registered port and one that is not. -/
theorem witness_port_window :
    0xF8000000 ≤ (0xF8000000 : Word).toNat ∧ (0xF80003FF : Word).toNat ≤ 0xF80003FF ∧
    ((0xF80000D3 : Word).toNat - 0xF8000000) / 4 = 0x34 ∧ (portRead Platform.reset 0x34).isSome = true ∧
    portRead Platform.reset 0xFF = none := by decide

/-- LsicWindow: each register, the first place past them, and accesses that are no aligned long. -/
theorem witness_lsic_window :
    (∀ k : Fin 5, (0xF8030000 + 4 * BitVec.ofNat 32 k.val : Word).toNat % 4 = 0 ∧
      ((0xF8030000 + 4 * BitVec.ofNat 32 k.val : Word).toNat - 0xF8030000) / 4 = k.val) ∧
    ((0xF8030014 : Word).toNat - 0xF8030000) / 4 = 5 ∧ (0xF80300FF : Word).toNat ≤ 0xF80300FF ∧
    (0xF8030001 : Word).toNat % 4 ≠ 0 := by decide

/-- CallTraps, ReturnFromException, HaltFlushAndMoveToControl, MoveFromControl: kernel mode, and user mode with nothing
pending. PrivilegedInUserMode: the latter, with two instructions of the group. -/
theorem witness_modes :
    ((start 0 []).cr crRS).getLsbD 0 = false ∧
    (((start 0 []).setCr crRS 1).cr crRS).getLsbD 0 = true ∧ ((start 0 []).setCr crRS 1).cpu.excPending = none ∧
    privileged (.mfcr 1 8) = true ∧ privileged .fwc = true := by decide

/-- RaiseLatches: a non-recoverable exception while one is pending; a recoverable one then; any with nothing pending. -/
theorem witness_raise :
    ((raisedState (some .syscall) 0).cpu.excPending ≠ none ∧ Exc.buserror ≠ .interrupt) ∧
    ((raisedState (some .syscall) 0).raise ⟨.buserror, some 0⟩).fatal = true ∧
    ((raisedState (some .syscall) 0).raise ⟨.brkpoint, none⟩).cpu.excPending = some .brkpoint ∧
    (raisedState none 0).cpu.excPending = none := by decide

/-- DeliveryCondition, DeliverySavesAndEnters, VectorZeroResetsTheCpu: deliverable by an exception through EVEC and
through FWVEC, and by an interrupt of vector 0, 32 and 63; not deliverable; and through vector 0. -/
theorem witness_delivery :
    ((raisedState (some .brkpoint) 0).deliverable = true ∧ (raisedState (some .brkpoint) 0).cr crEVEC ≠ 0) ∧
    (((raisedState (some .fwcall) 0).setCr crFWVEC 4).deliverable = true ∧
      ((raisedState (some .fwcall) 0).setCr crFWVEC 4).cr crFWVEC ≠ 0) ∧
    ((withLsic (raisedState none 2) ⟨0, 0, 1, 0⟩).deliverable = true ∧
      (withLsic (raisedState none 2) ⟨0, 0, 0, 1⟩).deliverable = true ∧
      (withLsic (raisedState none 2) ⟨0, 0, 0, 0x80000000⟩).deliverable = true ∧
      (raisedState none 2).deliverable = false) ∧
    ((raisedState (some .fwcall) 0).deliverable = true ∧ (raisedState (some .fwcall) 0).cr crFWVEC = 0) ∧
    (((raisedState (some .invinst) 0).setCr crEVEC 0).deliverable = true ∧
      ((raisedState (some .invinst) 0).setCr crEVEC 0).cr crEVEC = 0) := by decide

/-- PreciseExceptions: an instruction that leaves an exception latched, of each kind of cause. -/
theorem witness_precise :
    (start 0 []).cpu.excPending = none ∧
    (∃ t, exec .sys (start 0 []) = .next t ∧ t.cpu.excPending = some .syscall) ∧
    (∃ t, exec (.ldl 1 2 0) (start 0 [(2, 0xFFF)]) = .next t ∧ t.cpu.excPending = some .pagefault) ∧
    (∃ t, exec (.stb 1 2 0) (start 0 [(2, 0x18000000)]) = .next t ∧ t.cpu.excPending = some .buserror) ∧
    (∃ t, exec (.ll 1 2) (start 0 [(2, 0xFFFFF000)]) = .next t ∧ t.cpu.excPending = some .pagefault) :=
  ⟨rfl, ⟨_, rfl, rfl⟩, ⟨_, rfl, by decide⟩, ⟨_, rfl, by decide⟩, ⟨_, rfl, by decide⟩⟩

/-- UserModeKeepsControl: a step in user mode, with nothing to deliver. -/
theorem witness_user_step :
    let s := (start 0x0001107C []).setCr crRS 1
    (s.cr crRS).getLsbD 0 = true ∧ s.hostCalls.deliverable = false ∧ ∃ t, step s = .next t :=
  ⟨by decide, by decide, _, rfl⟩

/-- OnlyMfcrChangesRegisterZero: an instruction that changes what R0 reads. -/
theorem witness_register_zero :
    ∃ t, exec (.mfcr 0 8) (start 0 []) = .next t ∧ t.reg 0 ≠ (start 0 []).reg 0 := ⟨_, rfl, by decide⟩

/-- StepRunsDecodedInstruction: a word at pc that decodes, and its four bytes in RAM. -/
theorem witness_step_runs :
    let s := start 0x0001107C []
    let u := s.hostCalls.deliver
    s.fatal = false ∧ s.cpu.halted = false ∧ u.memRead u.cpu.pc .long = .ok 0x0001107C ∧
      decode s.config.enc 0x0001107C = .ok (.addi 1 2 1) ∧
      u.translate u.cpu.pc .long .read = .ok 0x10000 ∧ Readable s.config 0x10000 .long ∧
      decodeBytes s.config.enc [u.plat.mem.read 0x10000, u.plat.mem.read 0x10001, u.plat.mem.read 0x10002,
        u.plat.mem.read 0x10003] = .ok (.addi 1 2 1, []) :=
  ⟨by decide, by decide, by decide, by decide, by decide, .inl (.inl (by decide)), by decide⟩

/-- StepWithoutInstruction: a fetch that raises; an undecoded word of group 0x29 in user mode, and one in kernel mode. -/
theorem witness_step_without :
    (State.reset.fatal = false ∧ State.reset.cpu.halted = false ∧
      State.reset.hostCalls.deliver.memRead 0xFFFE0000 .long = .error ⟨.buserror, some 0xFFFE0000⟩) ∧
    ((start 0x29 []).hostCalls.deliver.memRead 0x10000 .long = .ok 0x29 ∧
      decode Encoding.candidate 0x29 = .error (.unusedPrivFunct 0) ∧ (0x29 : Word).toNat % 64 = 0x29) ∧
    (((start 0x29 []).setCr crRS 1).hostCalls.deliver.cr crRS).getLsbD 0 = true := by decide

/-- HaltedCpuStays, FatalIsTheOnlyStop: a halted machine with a call of the host to come, and a fatal one. -/
theorem witness_halted_and_fatal :
    let s := { (start 0 []).setHalted true with schedule := [[.keyDown 1]] }
    (s.fatal = false ∧ s.cpu.halted = true ∧ s.hostCalls.schedule = []) ∧
      ((start 0 []).setFatal true).fatal = true ∧ step ((start 0 []).setFatal true) = .fault .nestedException :=
  ⟨by decide, by decide, rfl⟩

/-- ConfigurationNeverChanges, StepKeepsTheInvariants: a machine with an image, a ROM and a word to run, that keeps the
invariants and steps. -/
theorem witness_invariants :
    let s : State := { start 0x0002106A [] with
      plat := { (start 0x0002106A []).plat with
        disk := { Disk.reset with images := [⟨512, [(0, 1)]⟩], selected := some 0 }
        hub := ⟨1, (Vector.replicate 16 0).set 15 63, 0, 0⟩ } }
    s.Wf ∧ s.plat.mem.wf = true ∧ ∃ t, step s = .next t := by
  refine ⟨⟨⟨by decide, ?_, by decide, ?_, ?_, by unfold Keyboard.ZeroUnset; decide⟩, fun _ => by decide, rfl⟩,
    by decide, _, rfl⟩
  · intro i hi
    cases List.mem_singleton.mp hi
    exact ⟨by decide, fun c hc => by cases List.mem_singleton.mp hc; decide⟩
  · intro i hi
    cases hi
    decide
  · unfold Hub.LinesWf
    decide

/-- PowerOnState: a construction with contents everywhere, and one out of bounds. -/
theorem witness_power_on :
    (⟨defaultConfig, [1, 2], [(0, 3), (0xFFFFF, 4)], [5], [⟨1024, [(1023, 6)]⟩]⟩ : Construction).allowed = true ∧
    ({ base with config := { defaultConfig with ramSize := 0 } }).allowed = false := by decide

/-- LsicArbiter: no claim, and claims of the lowest and the highest vectors. -/
theorem witness_lsic :
    Lsic.reset.claim = 0 ∧ (⟨0, 0, 2, 0⟩ : Lsic).claim = 1 ∧ (⟨0, 0, 0, 0x80000000⟩ : Lsic).claim = 63 := by decide

/-- DiskBlockCommands: no drive; a drive without the block; the last block of a drive. -/
theorem witness_disk :
    diskPlat.disk.selected = none ∧
    (let d := { diskPlat.disk with selected := some 0, portA := 2 };
      d.images[0]? = some ⟨1124, [(0, 0xAB), (1, 0xCD), (512, 0x5A)]⟩ ∧ 1124 / 512 ≤ d.portA.toNat) ∧
    (let d := { diskPlat.disk with selected := some 0, portA := 1 };
      d.images[0]?.isSome = true ∧ d.portA.toNat < 1124 / 512) ∧
    diskPlat.mem.wf = true ∧ Memory.wf [(0, 0xAB), (1, 0xCD), (512, 0x5A)] = true := by decide

/-- DiskOtherCommands: a drive that exists and one that does not; the first and the last values without a meaning; the sizes
of the last image whose block count fits port_b and of the first whose count does not. -/
theorem witness_disk_others :
    diskPlat.disk.images[diskPlat.disk.portA.toNat]?.isSome = true ∧
    diskPlat.disk.images.length ≤ ({ diskPlat.disk with portA := 2 }).portA.toNat ∧
    8 ≤ (8 : Word).toNat ∧ 8 ≤ (0xFFFFFFFF : Word).toNat ∧
    (2 ^ 41 - 1) / 512 < 2 ^ 32 ∧ ¬ 2 ^ 41 / 512 < 2 ^ 32 := by decide

/-- UartCommands: no vector, and one. -/
theorem witness_uart :
    defaultConfig.uartIrq = none ∧ ({ defaultConfig with uartIrq := some 63 }).uartIrq = some 63 := by decide

/-- RtcTick: no interval; one below it; exactly at it. RtcCommands: an overridden clock, and the host's. -/
theorem witness_rtc :
    Rtc.reset.interval = 0 ∧
    (let r : Rtc := ⟨10, 4, some 1, 0⟩;
      r.interval ≠ 0 ∧ r.acc + 5 < r.interval.toNat ∧ r.interval.toNat ≤ r.acc + 6 ∧ r.override = some 1) ∧
    Rtc.reset.override = none := by decide

/-- KeyboardNextEvent: slot 1 selected, and the is-down query at 85, the last code, and at 86. -/
theorem witness_keyboard_actions :
    let p := fun a : Word => { Platform.reset with
      hub := { Hub.reset with selected := 1 }
      kbd := { Keyboard.reset with portA := a, isPressed := (Vector.replicate 86 false).set 85 true } }
    (p 85).hub.selected.toNat = 1 ∧ (p 85).kbd.portA.toNat = (85 : Fin 86).val ∧ 86 ≤ (p 86).kbd.portA.toNat ∧
    (portWrite defaultConfig (p 85) 0x32 3).map (·.kbd.portA) = some 1 ∧
    (portWrite defaultConfig (p 86) 0x32 3).map (·.kbd.portA) = some 86 := by decide

/-- KeyboardNextEvent: nothing outstanding; a press below a release, which the two orders give out differently. -/
theorem witness_keyboard :
    let k : Keyboard := { Keyboard.reset with
      outstandingPress := (Vector.replicate 86 false).set 3 true
      outstandingRelease := (Vector.replicate 86 false).set 85 true }
    (∀ i : Fin 86, Keyboard.reset.outstandingRelease[i.val] = false ∧ Keyboard.reset.outstandingPress[i.val] = false) ∧
    (k.outstandingPress[(3 : Fin 86).val] = true ∧ k.outstandingRelease[(85 : Fin 86).val] = true) ∧
    (∀ j : Fin 86, j < 3 → ¬ (k.outstandingRelease[j.val] = true ∨ k.outstandingPress[j.val] = true)) ∧
    (∀ j : Fin 86, j < 85 → k.outstandingRelease[j.val] = false) ∧
    (k.nextEvent .interleaved).portA = 3 ∧ (k.nextEvent .releasesFirst).portA = 0x8055 := by decide

/-- KeyboardNextEvent with releases first: a press with no release outstanding. -/
theorem witness_keyboard_press :
    let k : Keyboard := { Keyboard.reset with outstandingPress := (Vector.replicate 86 false).set 1 true }
    k.outstandingRelease[(1 : Fin 86).val] = false ∧ (∀ j : Fin 86, k.outstandingRelease[j.val] = false) ∧
    (∀ j : Fin 86, j < 1 → k.outstandingPress[j.val] = false) ∧ (k.nextEvent .releasesFirst).portA = 1 := by decide

/-- KeyEvents: the first and the last codes, and those next to them. -/
theorem witness_key_events :
    let d := fun c => (Platform.reset.hostEvent defaultConfig (.keyDown c)).kbd.isPressed
    d 0 = Keyboard.reset.isPressed ∧ d 86 = Keyboard.reset.isPressed ∧ (d 1)[1] = true ∧ (d 85)[85] = true := by decide

/-- HubPorts: the controller, the keyboard and an empty slot selected. -/
theorem witness_hub :
    Platform.reset.hub.selected.toNat = 0 ∧ (15 : BitVec 4).toNat = 15 ∧ (16 : Word).toNat = 16 ∧
    (ports defaultConfig [(0x30, 15)] Platform.reset).map (·.hub.selected.toNat) = some 15 ∧
    (15 : Word).toNat < 16 ∧ 16 ≤ (16 : Word).toNat ∧
    ({ Platform.reset with hub := { Hub.reset with portB := 16 } }).hub.portB.toNat = 16 := by decide

/-- OperandShifter: no shift. BoardReset: another long, and an access that is no long. -/
theorem witness_shift_and_reset :
    (0 : BitVec 5) = 0 ∧ (0xAABBCCDC : Word) ≠ 0xAABBCCDD ∧ Width.int ≠ .long ∧ Width.byte ≠ .long := by decide

end Sys2Proof.Tests
end

/-! PROOFS of the family 20_memory.md: the checks of a virtual access, the page walk, and the windows of the bus. -/

namespace Sys2Proof.Machine

/-! ### The checks of a virtual access (R119 to R123) -/

section Access

variable {s : State} {va pa : Word} {n : Width} {kind : AccessKind}

theorem AccessKind.pageExc_eq (kind : AccessKind) :
    kind.pageExc = if kind = .write then .pagewrite else .pagefault := by
  cases kind <;> rfl

theorem inBounds_iff (va : Word) : inBounds va = true ↔ 0x1000 ≤ va.toNat ∧ va.toNat < 0xFFFFF000 := by
  simp [inBounds]

theorem alignFault_iff (c : Config) (va : Word) (n : Width) :
    alignFault c va n = true ↔ c.alignTrap = true ∧ n = .long ∧ va.toNat % 4 ≠ 0 := by
  simp [alignFault, and_assoc]

/-- The statements' word for an access that passes the alignment check (R122). -/
theorem alignFault_of_alignedEnough {c : Config} (h : AlignedEnough c va n) : alignFault c va n = false := by
  rw [← Bool.not_eq_true, alignFault_iff]
  rintro ⟨ht, hn, ha⟩
  rcases h with h | h | h
  · simp [ht] at h
  · exact h hn
  · exact ha h

theorem translate_outOfBounds (h : va.toNat < 0x1000 ∨ 0xFFFFF000 ≤ va.toNat) :
    s.translate va n kind = .error ⟨kind.pageExc, some va⟩ := by
  have hb : inBounds va = false := by rw [← Bool.not_eq_true, inBounds_iff]; omega
  simp [State.translate, hb]

theorem translate_unaligned (hb : inBounds va = true) (ha : alignFault s.config va n = true) :
    s.translate va n kind = .error ⟨.unaligned, some va⟩ := by
  simp [State.translate, hb, ha]

/-- Past both checks the address is walked, or with translation off taken as it is (R110, R119). -/
theorem translate_checked (hb : inBounds va = true) (ha : AlignedEnough s.config va n) :
    s.translate va n kind = if (s.cr crRS).getLsbD 2 = true then s.walk va kind else .ok va := by
  simp [State.translate, hb, alignFault_of_alignedEnough ha, State.mmuOn]

theorem memRead_of_translate_error {x : Raised} (h : s.translate va n .read = .error x) :
    s.memRead va n = .error x := by
  simp [State.memRead, h]

theorem memRead_of_bus_fails (h : s.translate va n .read = .ok pa) (hb : busRead s.config s.plat pa n = none) :
    s.memRead va n = .error ⟨.buserror, some pa⟩ := by
  simp [State.memRead, h, hb]

theorem memRead_of_bus_answers {w : Word} (h : s.translate va n .read = .ok pa)
    (hb : busRead s.config s.plat pa n = some w) : s.memRead va n = .ok w := by
  simp [State.memRead, h, hb]

theorem memWrite_of_translate_error {x : Raised} {v : Word} (h : s.translate va n .write = .error x) :
    s.memWrite va n v = .error x := by
  simp [State.memWrite, h]

theorem memWrite_of_bus_fails {v : Word} (h : s.translate va n .write = .ok pa)
    (hb : busWrite s.config s.plat pa n v = none) : s.memWrite va n v = .error ⟨.buserror, some pa⟩ := by
  simp [State.memWrite, h, hb]

theorem memWrite_of_bus_answers {v : Word} {p : Platform} (h : s.translate va n .write = .ok pa)
    (hb : busWrite s.config s.plat pa n v = some p) : s.memWrite va n v = .ok p := by
  simp [State.memWrite, h, hb]

end Access

/-- Settles O21: the translation check by check, then the bus. -/
theorem accessChecks : Obligations.AccessChecks := by
  intro s va n kind
  refine ⟨fun h => ?_, fun hlo hhi => ⟨fun ht hn ha => ?_, fun ha hm => ?_⟩,
    fun _ => memRead_of_translate_error,
    fun _ h => ⟨memRead_of_bus_fails h, fun _ => memRead_of_bus_answers h⟩,
    fun _ _ => memWrite_of_translate_error,
    fun _ _ h => ⟨memWrite_of_bus_fails h, fun _ => memWrite_of_bus_answers h⟩⟩
  · rw [translate_outOfBounds h, kind.pageExc_eq]
  · exact translate_unaligned ((inBounds_iff va).mpr ⟨hlo, hhi⟩) ((alignFault_iff ..).mpr ⟨ht, hn, ha⟩)
  · rw [translate_checked ((inBounds_iff va).mpr ⟨hlo, hhi⟩) ha, if_neg (Bool.eq_false_iff.mp hm)]

/-! ### The page walk (R110 to R116) -/

section Walk

theorem pdeAddr_eq (pgtb va : Word) :
    pdeAddr pgtb va = BitVec.ofNat 32 (pgtb.toNat + va.toNat / 2 ^ 22 * 4) := by
  apply BitVec.eq_of_toNat_eq
  simp [pdeAddr, Nat.shiftRight_eq_div_pow, Nat.shiftLeft_eq]

theorem pteAddr_eq (pde va : Word) :
    pteAddr pde va = BitVec.ofNat 32 (pde.toNat / 2 ^ 5 * 2 ^ 12 + va.toNat / 2 ^ 12 % 2 ^ 10 * 4) := by
  have hmask (x : Nat) : x &&& 1023 = x % 2 ^ 10 := Nat.and_two_pow_sub_one_eq_mod x 10
  apply BitVec.eq_of_toNat_eq
  simp [pteAddr, Nat.shiftRight_eq_div_pow, Nat.shiftLeft_eq, hmask]

theorem pageAddr_eq (pte va : Word) :
    pageAddr pte va = BitVec.ofNat 32 (pte.toNat / 2 ^ 5 % 2 ^ 20 * 2 ^ 12 + va.toNat % 2 ^ 12) := by
  have hframe (x : Nat) : x &&& 1048575 = x % 2 ^ 20 := Nat.and_two_pow_sub_one_eq_mod x 20
  have hoffset (x : Nat) : x &&& 4095 = x % 2 ^ 12 := Nat.and_two_pow_sub_one_eq_mod x 12
  apply BitVec.eq_of_toNat_eq
  simp [pageAddr, Nat.shiftRight_eq_div_pow, Nat.shiftLeft_eq, hframe, hoffset]

/-- The valid bit is the entry's lowest (R116). -/
theorem entryValid_eq (entry : Word) : entryValid entry = decide (entry.toNat % 2 = 1) := by
  simp [entryValid, BitVec.getLsbD, Nat.testBit_zero]

variable {s : State} {va pde pte : Word} {kind : AccessKind}

theorem walk_pde_unreadable (h : busRead s.config s.plat (pdeAddr (s.cr crPGTB) va) .long = none) :
    s.walk va kind = .error ⟨.buserror, some (pdeAddr (s.cr crPGTB) va)⟩ := by
  simp [State.walk, h]

theorem walk_pde_invalid (h : busRead s.config s.plat (pdeAddr (s.cr crPGTB) va) .long = some pde)
    (hv : pde.toNat % 2 = 0) : s.walk va kind = .error ⟨kind.pageExc, some va⟩ := by
  simp [State.walk, h, entryValid_eq, hv]

theorem walk_pte_unreadable (h : busRead s.config s.plat (pdeAddr (s.cr crPGTB) va) .long = some pde)
    (hv : pde.toNat % 2 = 1) (h2 : busRead s.config s.plat (pteAddr pde va) .long = none) :
    s.walk va kind = .error ⟨.buserror, some (pteAddr pde va)⟩ := by
  simp [State.walk, h, entryValid_eq, hv, h2]

/-- With both entries read and the first valid, the second decides (R114, R115). -/
theorem walk_pte_read (h : busRead s.config s.plat (pdeAddr (s.cr crPGTB) va) .long = some pde)
    (hv : pde.toNat % 2 = 1) (h2 : busRead s.config s.plat (pteAddr pde va) .long = some pte) :
    s.walk va kind =
      if pte.toNat % 2 = 1 then .ok (pageAddr pte va) else .error ⟨kind.pageExc, some va⟩ := by
  simp [State.walk, h, entryValid_eq, hv, h2]

end Walk

/-- Settles O22: past the checks the translation is the walk, whose outcomes follow the two entries. -/
theorem pageWalk : Obligations.PageWalk := by
  intro s va n kind hlo hhi ha hm
  have hwalk : s.translate va n kind = s.walk va kind := by
    rw [translate_checked ((inBounds_iff va).mpr ⟨hlo, hhi⟩) ha, if_pos hm]
  simp only [hwalk, ← pdeAddr_eq, ← pteAddr_eq, ← pageAddr_eq, ← AccessKind.pageExc_eq]
  refine ⟨walk_pde_unreadable, fun pde h => ⟨walk_pde_invalid h, fun hv =>
    ⟨walk_pte_unreadable h hv, fun pte h2 => ⟨fun hp => ?_, fun hp => ?_⟩⟩⟩⟩
  · rw [walk_pte_read h hv h2, if_neg (by omega)]
  · rw [walk_pte_read h hv h2, if_pos hp]

/-! ### Areas and offsets with nothing behind them (R82, R89, R99) -/

section Bus

variable {c : Config} {p : Platform} {pa : Word} {n : Width} {v : Word}

theorem bus_fails_of_unmappedArea (h1 : 3 ≤ areaOf pa) (h2 : areaOf pa ≤ 23) :
    busRead c p pa n = none ∧ busWrite c p pa n v = none := by
  have hlow : ¬ areaOf pa ≤ 1 := by omega
  have hdesc : areaOf pa ≠ 2 := by omega
  have hlt : areaOf pa < 24 := by omega
  simp [busRead, busWrite, hlow, hdesc, hlt]

/-- The areas from 24 on that hold nothing read 0 and ignore writes (R82). -/
theorem bus_of_emptyArea (h : (25 ≤ areaOf pa ∧ areaOf pa ≤ 30) ∨ (areaOf pa = 24 ∧ c.fbPresent = false)) :
    busRead c p pa n = some 0 ∧ busWrite c p pa n v = some p := by
  have hlow : ¬ areaOf pa ≤ 1 := by omega
  have hdesc : areaOf pa ≠ 2 := by omega
  have hlt : ¬ areaOf pa < 24 := by omega
  have hboard : areaOf pa ≠ 31 := by omega
  have hfb : ¬ (areaOf pa = 24 ∧ c.fbPresent = true) := by
    rintro ⟨ha, hp⟩
    rcases h with h | h
    · omega
    · simp [hp] at h
  simp only [busRead, busWrite, hlow, hdesc, hlt, hfb, hboard, if_false, and_self]

theorem busRead_framebuffer (ha : areaOf pa = 24) (h : c.fbPresent = true) :
    busRead c p pa n = fbRead p (offsetOf pa) n := by
  simp [busRead, ha, h]

/-- The offsets below the ROM that R89 gives to no region. -/
theorem regionOf_unmapped {off : Nat}
    (h : (0x400 ≤ off ∧ off ≤ 0x7FF) ∨ (0x880 ≤ off ∧ off ≤ 0xFFF) ∨ (0x11000 ≤ off ∧ off ≤ 0x1FFFF) ∨
      (0x20200 ≤ off ∧ off ≤ 0x2FFFF) ∨ (0x30100 ≤ off ∧ off ≤ 0x7FFFFF) ∨ (0x800001 ≤ off ∧ off ≤ 0x7FDFFFF)) :
    regionOf c off = .unmapped := by
  rw [regionOf, if_neg (by omega), if_neg (by omega), if_neg (by omega), if_neg (by omega), if_neg (by omega),
    if_neg (by omega), if_neg (by omega)]

/-- Past the ROM's length there is no region either (R97). -/
theorem regionOf_pastRom {off : Nat} (h : 0x7FE0000 + c.romLen ≤ off) : regionOf c off = .unmapped := by
  rw [regionOf, if_neg (by omega), if_neg (by omega), if_neg (by omega), if_neg (by omega), if_neg (by omega),
    if_neg (by omega), if_neg (by omega)]

theorem bus_fails_of_unmapped (h : 0xF8000000 ≤ pa.toNat)
    (hr : regionOf c (pa.toNat - 0xF8000000) = .unmapped) :
    busRead c p pa n = none ∧ busWrite c p pa n v = none := by
  rw [busRead_area31 h, busWrite_area31 h, boardRead, boardWrite, hr]
  exact ⟨rfl, rfl⟩

/-! ### The boot ROM (R97) -/

theorem busWrite_rom (h : 0xFFFE0000 ≤ pa.toNat) (hn : pa.toNat + n.bytes ≤ 0xFFFE0000 + c.romLen) :
    busWrite c p pa n v = some p := by
  have hb := n.bytes_cases
  rw [busWrite_area31 (by omega), boardWrite, regionOf_rom (by omega) (by omega)]
  exact if_pos (decide_eq_true (by omega))

/-- An access that leaves the ROM fails, whether it starts inside or past it (R97, R100). -/
theorem bus_fails_past_rom (h : 0xFFFE0000 ≤ pa.toNat) (hn : 0xFFFE0000 + c.romLen < pa.toNat + n.bytes) :
    busRead c p pa n = none ∧ busWrite c p pa n v = none := by
  have h31 : 0xF8000000 ≤ pa.toNat := by omega
  by_cases hin : pa.toNat < 0xFFFE0000 + c.romLen
  · have hr : regionOf c (pa.toNat - 0xF8000000) = .rom := regionOf_rom (by omega) (by omega)
    have hw : within (pa.toNat - 0xF8000000) n (0x7FE0000 + c.romLen) = false := decide_eq_false (by omega)
    rw [busRead_area31 h31, busWrite_area31 h31, boardRead, boardWrite, hr]
    simp only [hw]
    exact ⟨rfl, rfl⟩
  · exact bus_fails_of_unmapped h31 (regionOf_pastRom (by omega))

theorem romLen_le_of_wf (h : c.wf = true) : c.romLen ≤ 0x20000 := by
  simp only [Config.wf, Bool.and_eq_true, decide_eq_true_eq] at h
  obtain ⟨⟨_, hrom⟩, _⟩ := h
  exact hrom

/-! ### The register windows: only aligned longs (R93, R96) -/

theorem alignedLong_iff (off : Nat) (n : Width) : alignedLong off n = true ↔ n = .long ∧ off % 4 = 0 := by
  simp [alignedLong]

/-- An address of area 31 and its offset are aligned alike. -/
theorem alignedLong_offset (h : 0xF8000000 ≤ pa.toNat) (n : Width) :
    alignedLong (pa.toNat - 0xF8000000) n = decide (n = .long ∧ pa.toNat % 4 = 0) := by
  rw [Bool.eq_iff_iff, alignedLong_iff, decide_eq_true_iff]
  have : (pa.toNat - 0xF8000000) % 4 = pa.toNat % 4 := by omega
  rw [this]

theorem busRead_boardRegs (h1 : 0xF8000800 ≤ pa.toNat) (h2 : pa.toNat ≤ 0xF800087F) :
    busRead c p pa n = if n = .long ∧ pa.toNat % 4 = 0 then some (boardRegRead p ((pa.toNat - 0xF8000800) / 4))
      else none := by
  have h31 : 0xF8000000 ≤ pa.toNat := by omega
  rw [busRead_area31 h31, boardRead, regionOf_boardRegs (by omega) (by omega)]
  simp only [alignedLong_offset h31, decide_eq_true_eq, Nat.sub_sub, Nat.reduceAdd]

theorem busWrite_boardRegs (h1 : 0xF8000800 ≤ pa.toNat) (h2 : pa.toNat ≤ 0xF800087F) :
    busWrite c p pa n v =
      if n = .long ∧ pa.toNat % 4 = 0 then some (boardRegWrite p ((pa.toNat - 0xF8000800) / 4) v) else none := by
  have h31 : 0xF8000000 ≤ pa.toNat := by omega
  rw [busWrite_area31 h31, boardWrite, regionOf_boardRegs (by omega) (by omega)]
  simp only [alignedLong_offset h31, decide_eq_true_eq, Nat.sub_sub, Nat.reduceAdd]

theorem boardRegRead_fin (p : Platform) (k : Fin 32) :
    boardRegRead p k.val = if k = 0 then 0x00030001 else p.boardRegs[k.val] := by
  by_cases hk : k = 0
  · simp [boardRegRead, boardReg0, hk]
  · have hv : k.val ≠ 0 := fun h => hk (Fin.ext h)
    simp [boardRegRead, hk, hv]

/-- A write of a board register changes that register's storage only, and nothing for register 0 (R93). -/
theorem boardRegWrite_fin (p : Platform) (k : Fin 32) (v : Word) :
    (∀ j : Fin 32, (boardRegWrite p k.val v).boardRegs[j.val] = if j = k ∧ k ≠ 0 then v else p.boardRegs[j.val]) ∧
      { boardRegWrite p k.val v with boardRegs := p.boardRegs } = p := by
  by_cases hk : k = 0
  · simp [boardRegWrite, hk]
  · have hv : k.val ≠ 0 := fun h => hk (Fin.ext h)
    simp [boardRegWrite, hk, hv, Vector.getElem_set, Fin.ext_iff, eq_comm (a := k.val)]

theorem busRead_lsic (h1 : 0xF8030000 ≤ pa.toNat) (h2 : pa.toNat ≤ 0xF80300FF) :
    busRead c p pa n =
      if n = .long ∧ pa.toNat % 4 = 0 then p.lsic.readReg ((pa.toNat - 0xF8030000) / 4) else none := by
  have h31 : 0xF8000000 ≤ pa.toNat := by omega
  rw [busRead_area31 h31, boardRead, regionOf_lsic (by omega) (by omega)]
  simp only [alignedLong_offset h31, decide_eq_true_eq, Nat.sub_sub, Nat.reduceAdd]

theorem busWrite_lsic (h1 : 0xF8030000 ≤ pa.toNat) (h2 : pa.toNat ≤ 0xF80300FF) :
    busWrite c p pa n v =
      if n = .long ∧ pa.toNat % 4 = 0 then
        (p.lsic.writeReg ((pa.toNat - 0xF8030000) / 4) v).map (fun l => { p with lsic := l })
      else none := by
  have h31 : 0xF8000000 ≤ pa.toNat := by omega
  rw [busWrite_area31 h31, boardWrite, regionOf_lsic (by omega) (by omega)]
  simp only [alignedLong_offset h31, decide_eq_true_eq, Nat.sub_sub, Nat.reduceAdd]

/-- The LSIC has the registers 0 to 4 only (R96). -/
theorem Lsic.readReg_none (l : Lsic) {k : Nat} (h : 5 ≤ k) : l.readReg k = none := by
  obtain ⟨j, rfl⟩ := Nat.exists_eq_add_of_le' h
  rfl

theorem Lsic.writeReg_none (l : Lsic) (v : Word) {k : Nat} (h : 5 ≤ k) : l.writeReg k v = none := by
  obtain ⟨j, rfl⟩ := Nat.exists_eq_add_of_le' h
  rfl

/-! ### The citron ports (R90 to R92) -/

theorem busRead_ports (h1 : 0xF8000000 ≤ pa.toNat) (h2 : pa.toNat ≤ 0xF80003FF) :
    busRead c p pa n = (portRead p ((pa.toNat - 0xF8000000) / 4)).map n.trunc := by
  rw [busRead_area31 h1, boardRead, regionOf_ports (by omega)]

theorem busWrite_ports (h1 : 0xF8000000 ≤ pa.toNat) (h2 : pa.toNat ≤ 0xF80003FF) :
    busWrite c p pa n v = portWrite c p ((pa.toNat - 0xF8000000) / 4) (n.trunc v) := by
  rw [busWrite_area31 h1, boardWrite, regionOf_ports (by omega)]

/-- The registered ports (R91). -/
def registeredPorts : List Nat :=
  [0x10, 0x11, 0x12, 0x13, 0x19, 0x1A, 0x1B, 0x20, 0x21, 0x30, 0x31, 0x32, 0x33, 0x34]

/-- A read is answered arm by arm exactly at the ports of R91; a write likewise (R90). -/
theorem portRead_ne_none_iff (p : Platform) (port : Nat) : portRead p port ≠ none ↔ port ∈ registeredPorts := by
  unfold portRead
  split <;> simp_all [registeredPorts]

theorem portWrite_ne_none_iff (c : Config) (p : Platform) (port : Nat) (v : Word) :
    portWrite c p port v ≠ none ↔ port ∈ registeredPorts := by
  unfold portWrite
  split <;> simp_all [registeredPorts]

end Bus

/-- Settles O23: area by area, then the board's gaps and the framebuffer's first two longs. -/
theorem unmappedAddresses : Obligations.UnmappedAddresses := by
  intro c p pa n v
  simp only [← areaOf_eq]
  refine ⟨fun ⟨h1, h2⟩ => bus_fails_of_unmappedArea h1 h2, bus_of_emptyArea, fun harea hoff => ?_, fun hfb => ⟨?_, ?_⟩⟩
  · have h31 : 0xF8000000 ≤ pa.toNat := by rw [areaOf_eq] at harea; omega
    have hsplit := (offset_area31 h31).2
    rw [offsetOf_eq] at hsplit
    exact bus_fails_of_unmapped h31 (regionOf_unmapped (hsplit ▸ hoff))
  · rw [busRead_framebuffer (by decide) hfb]; rfl
  · rw [busRead_framebuffer (by decide) hfb]; rfl

/-- Settles O25: the ROM is a window of bytes that takes no write, and ends at its length. -/
theorem romWindow : Obligations.RomWindow := by
  intro c p pa n v h
  refine ⟨fun hin => ⟨?_, busWrite_rom h hin⟩, bus_fails_past_rom h, romLen_le_of_wf⟩
  rw [busRead_readable (.inr ⟨h, hin⟩), readLE_eq]

/-- Settles O26: an aligned long reaches the register of its offset, every other access fails. -/
theorem boardRegisters : Obligations.BoardRegisters := by
  intro c p v
  refine ⟨fun k pa hpa => ?_, fun pa n h1 h2 hbad => ?_, fun k _ => ?_⟩
  · have h1 : 0xF8000800 ≤ pa.toNat := by omega
    have h2 : pa.toNat ≤ 0xF800087F := by omega
    have hlong : Width.long = .long ∧ pa.toNat % 4 = 0 := ⟨rfl, by omega⟩
    have hk : (pa.toNat - 0xF8000800) / 4 = k.val := by omega
    obtain ⟨hregs, hframe⟩ := boardRegWrite_fin p k v
    rw [busRead_boardRegs h1 h2, busWrite_boardRegs h1 h2, if_pos hlong, if_pos hlong, hk, boardRegRead_fin]
    exact ⟨rfl, _, rfl, hregs, hframe⟩
  · have hno : ¬ (n = .long ∧ pa.toNat % 4 = 0) := by tauto
    rw [busRead_boardRegs h1 h2, busWrite_boardRegs h1 h2, if_neg hno, if_neg hno]
    exact ⟨rfl, rfl⟩
  · simp [State.reset, Platform.reset]

/-- Settles O27: the port of the offset, with the low bytes of its value. -/
theorem portWindow : Obligations.PortWindow := by
  intro c p pa n v h1 h2
  simp only [busRead_ports h1 h2, busWrite_ports h1 h2, ← Width.trunc_eq, ne_eq, Option.map_eq_none_iff]
  exact ⟨trivial, trivial, portRead_ne_none_iff .., portWrite_ne_none_iff ..⟩

/-- Settles O28: an aligned long reaches the register of its offset, every other access fails. -/
theorem lsicWindow : Obligations.LsicWindow := by
  intro c p pa n v h1 h2 k
  rw [busRead_lsic h1 h2, busWrite_lsic h1 h2]
  refine ⟨fun hbad => ?_, fun hn ha => ?_⟩
  · by_cases hlong : n = .long ∧ pa.toNat % 4 = 0
    · have hk : 5 ≤ k := by tauto
      rw [if_pos hlong, if_pos hlong, Lsic.readReg_none _ hk, Lsic.writeReg_none _ _ hk]
      exact ⟨rfl, rfl⟩
    · rw [if_neg hlong, if_neg hlong]
      exact ⟨rfl, rfl⟩
  · rw [if_pos ⟨hn, ha⟩, if_pos ⟨hn, ha⟩]
    refine ⟨fun hk => ?_, fun hk => ?_, fun hk => ?_, fun hk => ?_, fun hk => ?_⟩ <;>
      rw [show (pa.toNat - 0xF8030000) / 4 = _ from hk] <;> exact ⟨rfl, rfl⟩

end Sys2Proof.Machine

/-! PROOFS of the family 30_encoding.md: the operand shifter. -/

namespace Sys2Proof.Machine

/-! ### The operand shifter (R160) -/

section Shifter

variable {n k : Nat}

@[simp] theorem shiftBy_zero (x : Word) (ty : ShiftType) : shiftBy x 0 ty = x := by
  cases ty <;> simp [shiftBy]

/-- An amount of 0 is no special case of the result: every type of shift by 0 is the identity. -/
theorem shiftOperand_eq_shiftBy (sh : Shift) (x : Word) :
    shiftOperand sh x = shiftBy x sh.amount.toNat sh.type := by
  by_cases h : sh.amount = 0
  · simp [shiftOperand, h]
  · rw [shiftOperand, if_neg h]

theorem shiftBy_lsl (x : Word) (n : Nat) : shiftBy x n .lsl = BitVec.ofNat 32 (x.toNat * 2 ^ n) := by
  apply BitVec.eq_of_toNat_eq
  rw [shiftBy, BitVec.toNat_shiftLeft, Nat.shiftLeft_eq, BitVec.toNat_ofNat]

theorem shiftBy_lsr (x : Word) (n : Nat) : shiftBy x n .lsr = BitVec.ofNat 32 (x.toNat / 2 ^ n) := by
  rw [shiftBy, ← Nat.shiftRight_eq_div_pow, ← BitVec.toNat_ushiftRight, BitVec.ofNat_toNat, BitVec.setWidth_eq]

/-- The mask of the arithmetic shift covers the bits that the right shift vacates. -/
theorem getLsbD_vacatedMask (n : Nat) (hk : k < 32) :
    (~~~((0xFFFFFFFF : Word) >>> n)).getLsbD k = decide (32 ≤ n + k) := by
  rw [show (0xFFFFFFFF : Word) = BitVec.allOnes 32 from rfl, BitVec.getLsbD_not, BitVec.getLsbD_ushiftRight,
    BitVec.getLsbD_allOnes, decide_eq_true hk, Bool.true_and, ← decide_not, decide_eq_decide, not_lt]

/-- The model's right shift with a mask for the sign is the library's arithmetic shift. -/
theorem shiftBy_asr_eq_sshiftRight (x : Word) (n : Nat) : shiftBy x n .asr = x.sshiftRight n := by
  apply BitVec.eq_of_getLsbD_eq
  intro k hk
  rw [shiftBy, BitVec.getLsbD_or, BitVec.getLsbD_sshiftRight, BitVec.getLsbD_ushiftRight, BitVec.msb_eq_getLsbD_last,
    apply_ite (BitVec.getLsbD · k), getLsbD_vacatedMask n hk]
  by_cases hin : n + k < 32
  · simp [hin, not_le.mpr hk, not_le.mpr hin]
  · simp [hin, not_le.mpr hk, not_lt.mp hin]

theorem shiftBy_asr (x : Word) (n : Nat) : shiftBy x n .asr = BitVec.ofInt 32 (x.toInt / 2 ^ n) := by
  rw [shiftBy_asr_eq_sshiftRight, BitVec.sshiftRight_eq, Int.shiftRight_eq_div_pow, Nat.cast_pow, Nat.cast_ofNat]

/-- The two halves of a rotation do not meet: below bit 32 - n the right shift gives the bit, from there the left shift. -/
theorem getLsbD_shiftBy_ror (x : Word) (hn : n < 32) (hk : k < 32) :
    (shiftBy x n .ror).getLsbD k = x.getLsbD ((k + n) % 32) := by
  rw [shiftBy, BitVec.getLsbD_or, BitVec.getLsbD_ushiftRight, BitVec.getLsbD_shiftLeft]
  by_cases hlow : k < 32 - n
  · have hbit : (k + n) % 32 = n + k := by omega
    simp [hlow, hbit]
  · have hbit : (k + n) % 32 = k - (32 - n) := by omega
    have hout : x.getLsbD (n + k) = false := BitVec.getLsbD_of_ge x _ (by omega)
    simp [hlow, hk, hbit, hout]

/-- Bit k comes back from bit k + n + m of the operand, counted modulo 32. -/
theorem shiftBy_ror_shiftBy_ror {m : Nat} (x : Word) (hn : n < 32) (hm : m < 32) (h : (n + m) % 32 = 0) :
    shiftBy (shiftBy x n .ror) m .ror = x := by
  apply BitVec.eq_of_getLsbD_eq
  intro k hk
  have hback : ((k + m) % 32 + n) % 32 = k := by omega
  rw [getLsbD_shiftBy_ror _ hm hk, getLsbD_shiftBy_ror _ hn (Nat.mod_lt _ (by decide)), hback]

end Shifter

/-- Settles O4: `shiftOperand` is `shiftBy` for every amount, and each type of `shiftBy` has its equation. -/
theorem operandShifter : Obligations.OperandShifter := by
  intro amount ty x
  simp only [shiftOperand_eq_shiftBy]
  refine ⟨fun h => ?_, shiftBy_lsl x _, shiftBy_lsr x _, shiftBy_asr x _,
    fun k hk => getLsbD_shiftBy_ror x amount.isLt hk, ?_⟩
  · simp [h]
  · have hsum : (amount.toNat + (-amount).toNat) % 32 = 0 := by
      rw [BitVec.toNat_neg]
      omega
    exact shiftBy_ror_shiftBy_ror x amount.isLt (-amount).isLt hsum

end Sys2Proof.Machine

/-! PROOFS of the family 40_alu.md: what the ALU's instructions write, and the division. -/

namespace Sys2Proof.Machine

/-! ### Instructions that only write a register (R200, R201) -/

/-- An instruction whose meaning is `finish` completes from every state, with the frame of `finish`. The first premise
is the instruction's arm of the dispatch; the second says the value it writes in the statement's words. -/
theorem exec_wrote_of_finish {i : Instr} {s : State} {rD : RegIdx} {v w : Word} (hexec : exec i s = s.finish rD v)
    (hv : v = w) : ∃ t, exec i s = .next t ∧ WroteReg s t rD w (s.cpu.pc + 4) := by
  subst hv
  rw [hexec]
  exact finish_wrote s rD v

/-! ### The immediates as numbers (R159) -/

theorem toNat_zext16 (imm : BitVec 16) : (zext16 imm).toNat = imm.toNat :=
  BitVec.toNat_setWidth_of_le (by decide)

theorem toInt_sext16 (imm : BitVec 16) : (sext16 imm).toInt = imm.toInt :=
  BitVec.toInt_signExtend_of_le (by decide)

theorem toNat_upperImm (imm : BitVec 16) : (upperImm imm).toNat = imm.toNat * 2 ^ 16 := by
  have hfits : imm.toNat * 2 ^ 16 < 2 ^ 32 := by omega
  rw [upperImm, BitVec.toNat_shiftLeft, BitVec.toNat_setWidth_of_le (by decide), Nat.shiftLeft_eq,
    Nat.mod_eq_of_lt hfits]

/-! ### The results as numbers -/

section Results

variable (a b : Word)

/-- A value is known by its number, whatever the number is written as. -/
theorem eq_ofNat_of_toNat_eq {v : Word} {n : Nat} (h : v.toNat = n) : v = BitVec.ofNat 32 n := by
  rw [← h, BitVec.ofNat_toNat, BitVec.setWidth_eq]

theorem sub_eq_ofInt : a - b = BitVec.ofInt 32 (a.toNat - b.toNat) := by
  simp only [Int.sub_eq_add_neg, BitVec.ofInt_add, BitVec.ofInt_neg, BitVec.ofInt_natCast, BitVec.ofNat_toNat,
    BitVec.setWidth_eq, BitVec.sub_eq_add_neg]

theorem and_eq_ofNat : a &&& b = BitVec.ofNat 32 (a.toNat &&& b.toNat) := eq_ofNat_of_toNat_eq (BitVec.toNat_and a b)

theorem or_eq_ofNat : a ||| b = BitVec.ofNat 32 (a.toNat ||| b.toNat) := eq_ofNat_of_toNat_eq (BitVec.toNat_or a b)

theorem xor_eq_ofNat : a ^^^ b = BitVec.ofNat 32 (a.toNat ^^^ b.toNat) := eq_ofNat_of_toNat_eq (BitVec.toNat_xor a b)

theorem setLess_eq : setLess a b = if a.toNat < b.toNat then 1 else 0 := by
  simp only [setLess, truth, BitVec.ult_iff_toNat_lt]

theorem setLessSigned_eq : setLessSigned a b = if a.toInt < b.toInt then 1 else 0 := by
  simp only [setLessSigned, truth, BitVec.slt_iff_toInt_lt]

end Results

/-! ### The word of format G (R157) -/

/-- Bits 27 to 21 of a word are out of the mask of format G. -/
theorem packG_middle_ignored (f : BitVec 4) (mid mid' : BitVec 7) (rB rA rD : RegIdx) (op : BitVec 6) :
    (f ++ mid ++ rB ++ rA ++ rD ++ op : Word) &&& 0xF01FFFFF = (f ++ mid' ++ rB ++ rA ++ rD ++ op) &&& 0xF01FFFFF := by
  have hmask : (0xF01FFFFF : Word) = BitVec.allOnes 4 ++ 0#7 ++ BitVec.allOnes 5 ++ BitVec.allOnes 5 ++
      BitVec.allOnes 5 ++ BitVec.allOnes 6 := by decide
  simp only [hmask, BitVec.and_append, BitVec.and_zero]

/-- The word of a member of group 0x31 without a shift, up to the ignored bits (R157, R171). -/
theorem packG_grp_and_mask {c : GrpCode} (h : c.group = .grp) (k : BitVec 7) (rD rA rB : RegIdx) :
    packG c.group.code c.funct rD rA (.reg rB) &&& 0xF01FFFFF =
      (c.funct ++ k ++ rB ++ rA ++ rD ++ (0b110001 : BitVec 6)) &&& 0xF01FFFFF := by
  rw [h]
  exact packG_middle_ignored c.funct 0 k rB rA rD _

/-! ### Division (R219 to R221) -/

/-- The dividend less the divisor times the quotient is the remainder, with no wrap. -/
theorem modUnsigned_eq (a b : Word) :
    modUnsigned a b = if b = 0 then 0 else BitVec.ofNat 32 (a.toNat % b.toNat) := by
  unfold modUnsigned
  congr 1
  have hsplit : a = b * BitVec.ofNat 32 (a.toNat / b.toNat) + BitVec.ofNat 32 (a.toNat % b.toNat) := by
    calc a = BitVec.ofNat 32 (b.toNat * (a.toNat / b.toNat) + a.toNat % b.toNat) :=
          eq_ofNat_of_toNat_eq (Nat.div_add_mod ..).symm
      _ = _ := by rw [BitVec.ofNat_add, BitVec.ofNat_mul, BitVec.ofNat_toNat, BitVec.setWidth_eq]
  rw [sub_eq_iff_eq_add']
  exact hsplit

/-- The truncated quotient is not negative exactly where both signs agree, unless it is 0. -/
theorem zero_le_tdiv_iff {a b : Int} (h : a.tdiv b ≠ 0) : 0 ≤ a.tdiv b ↔ (0 ≤ a ↔ 0 ≤ b) := by
  rcases le_or_gt 0 a with ha | ha <;> rcases le_or_gt 0 b with hb | hb
  · simp only [ha, hb, Int.tdiv_nonneg]
  · have := Int.tdiv_nonpos_of_nonneg_of_nonpos ha hb.le
    omega
  · have := Int.tdiv_nonpos_of_nonneg_of_nonpos (a := -a) (b := -b) (by omega) (by omega)
    rw [Int.neg_tdiv_neg] at this
    omega
  · have := Int.tdiv_nonneg_of_nonpos_of_nonpos ha.le hb.le
    omega

/-- Of all quotients of two words only that of 0x8000_0000 by -1 does not fit a word (R220). -/
theorem toInt_ofInt_tdiv {a b : Word} (h : ¬ (a = 0x80000000 ∧ b = 0xFFFFFFFF)) :
    (BitVec.ofInt 32 (a.toInt.tdiv b.toInt)).toInt = a.toInt.tdiv b.toInt := by
  rw [BitVec.toInt_ofInt, ← BitVec.toInt_sdiv, BitVec.toInt_sdiv_of_ne_or_ne a b (not_and_or.mp h)]

/-- Clause by clause; in the last the quotient fits a word, so its number is the truncated quotient itself. -/
theorem divSigned_signedQuotient (ovf a b : Word) : SignedQuotient ovf a b (divSigned ovf a b) := by
  refine ⟨fun hb => if_pos hb, fun ha hb => ?_, fun hb hovf => ?_⟩
  · rw [divSigned, if_neg (by rw [hb]; decide), if_pos ⟨ha, hb⟩]
  · have hq : (divSigned ovf a b).toInt = a.toInt.tdiv b.toInt := by
      rw [divSigned, if_neg hb, if_neg hovf, toInt_ofInt_tdiv hovf]
    rw [hq]
    refine ⟨Int.natAbs_tdiv .., fun hne => zero_le_tdiv_iff fun h0 => hne ?_⟩
    exact BitVec.eq_of_toInt_eq (hq.trans h0)

/-- DIV (R219), whatever its second operand is. -/
theorem exec_div_wrote (s : State) (rD rA : RegIdx) (b : SrcB) : ∃ t, exec (.div rD rA b) s = .next t ∧
    WroteReg s t rD (if s.opG b = 0 then 0 else BitVec.ofNat 32 ((s.reg rA).toNat / (s.opG b).toNat))
      (s.cpu.pc + 4) :=
  exec_wrote_of_finish rfl (rfl)

/-- MOD (R221). -/
theorem exec_mod_wrote (s : State) (rD rA : RegIdx) (b : SrcB) : ∃ t, exec (.mod rD rA b) s = .next t ∧
    WroteReg s t rD (if s.opG b = 0 then 0 else BitVec.ofNat 32 ((s.reg rA).toNat % (s.opG b).toNat))
      (s.cpu.pc + 4) :=
  exec_wrote_of_finish rfl (modUnsigned_eq ..)

/-- DIVS (R220). -/
theorem exec_divs_wrote (s : State) (rD rA : RegIdx) (b : SrcB) : ∃ t, exec (.divs rD rA b) s = .next t ∧
    ∃ q, WroteReg s t rD q (s.cpu.pc + 4) ∧ SignedQuotient s.config.divsOvf (s.reg rA) (s.opG b) q := by
  obtain ⟨t, ht, hwrote⟩ := finish_wrote s rD (divSigned s.config.divsOvf (s.reg rA) (s.opG b))
  exact ⟨t, ht, _, hwrote, divSigned_signedQuotient ..⟩

/-! ### The obligations -/

/-- Settles O6: each meaning is `finish` of a word that has the number stated. -/
theorem immediateArithmetic : Obligations.ImmediateArithmetic := by
  intro s rD rA imm
  simp only [← toNat_zext16, ← toInt_sext16]
  exact ⟨exec_wrote_of_finish rfl (BitVec.add_def ..), exec_wrote_of_finish rfl (sub_eq_ofInt ..),
    exec_wrote_of_finish rfl (setLess_eq ..), exec_wrote_of_finish rfl (setLessSigned_eq ..),
    fun _ => ⟨rfl, rfl, rfl, rfl⟩⟩

/-- Settles O7: bit by bit the word and its number are the same. -/
theorem immediateLogic : Obligations.ImmediateLogic := by
  intro s rD rA imm
  rw [← toNat_upperImm]
  simp only [← toNat_zext16]
  exact ⟨exec_wrote_of_finish rfl (and_eq_ofNat ..), exec_wrote_of_finish rfl (or_eq_ofNat ..),
    exec_wrote_of_finish rfl (xor_eq_ofNat ..), exec_wrote_of_finish rfl (or_eq_ofNat ..),
    fun _ => ⟨rfl, rfl, rfl, rfl⟩⟩

/-- Settles O8: as O6, on the shifter's output. -/
theorem registerArithmetic : Obligations.RegisterArithmetic := by
  intro s rD rA rB sh
  exact ⟨exec_wrote_of_finish rfl (BitVec.add_def ..), exec_wrote_of_finish rfl (sub_eq_ofInt ..),
    exec_wrote_of_finish rfl (setLess_eq ..), exec_wrote_of_finish rfl (setLessSigned_eq ..),
    fun _ => ⟨rfl, rfl, rfl, rfl⟩⟩

/-- Settles O9: as O7, on the shifter's output. -/
theorem registerLogic : Obligations.RegisterLogic := by
  intro s rD rA rB sh
  exact ⟨exec_wrote_of_finish rfl (and_eq_ofNat ..), exec_wrote_of_finish rfl (or_eq_ofNat ..),
    exec_wrote_of_finish rfl (xor_eq_ofNat ..), fun _ => ⟨rfl, rfl, rfl⟩⟩

/-- Settles O11: the unsigned quotient and remainder, the signed quotient, and the words of group 0x31. -/
theorem division : Obligations.Division := by
  intro s rD rA rB
  exact ⟨exec_div_wrote s rD rA (.reg rB), exec_mod_wrote s rD rA (.reg rB), exec_divs_wrote s rD rA (.reg rB),
    fun _ k => ⟨fun h => packG_grp_and_mask h k rD rA rB, fun h => packG_grp_and_mask h k rD rA rB,
      fun h => packG_grp_and_mask h k rD rA rB⟩⟩

end Sys2Proof.Machine

/-! PROOFS of the family 41_loadstore.md: what a load and a store do, from plain RAM too, and the LL/SC pair. -/

namespace Sys2Proof.Machine

/-! ### The exceptions of an access (R124, R251, R432) -/

section Faults

variable {s : State} {va : Word} {n : Width} {kind : AccessKind} {x : Raised}

/-- The walk raises no UNALIGNED: its reads are physical (R111 to R114, R118). -/
theorem walk_error_exc (h : s.walk va kind = .error x) : x.exc = kind.pageExc ∨ x.exc = .buserror := by
  unfold State.walk at h
  split at h
  · cases h; exact .inr rfl
  · split at h
    · split at h
      · cases h; exact .inr rfl
      · split at h <;> cases h
        exact .inl rfl
    · cases h; exact .inl rfl

/-- Check by check (R120 to R122): UNALIGNED comes from the alignment check alone. -/
theorem translate_mayRaise (h : s.translate va n kind = .error x) : MayRaise s va n kind.pageExc x.exc := by
  unfold State.translate at h
  split at h
  · cases h; exact .inl rfl
  · split at h
    · next ha =>
      cases h
      obtain ⟨htrap, hlong, hodd⟩ := (alignFault_iff ..).mp ha
      exact .inr (.inr ⟨rfl, hlong, htrap, hodd⟩)
    · split at h
      · exact (walk_error_exc h).imp_right .inl
      · cases h

theorem memRead_mayRaise (h : s.memRead va n = .error x) : MayRaise s va n .pagefault x.exc := by
  rcases memRead_cases s va n with ⟨y, ht, hr⟩ | ⟨pa, _, _, hr⟩ | ⟨pa, v, _, _, hr⟩
  · cases hr.symm.trans h; exact translate_mayRaise ht
  · cases hr.symm.trans h; exact .inr (.inl rfl)
  · cases hr.symm.trans h

/-- An access exception is no call trap, so its EPC is the instruction's own address (R431). -/
theorem raise_access_trapped (hx : AccessExc kind x) (hp : s.cpu.excPending = none) :
    Trapped s (s.raise x) x.exc x.badAddr s.cpu.pc := by
  have hpc : s.epcOf x.exc = s.cpu.pc := by simp [epcOf_eq, hx.not_recoverable.2]
  exact hpc ▸ raise_trapped x hp

end Faults

/-! ### A read answers no more than its bytes (R15, R85) -/

section ReadValue

variable {c : Config} {p : Platform} {pa v : Word} {n : Width}

theorem Width.trunc_lt (n : Width) (v : Word) : (n.trunc v).toNat < 2 ^ (8 * n.bytes) := by
  rw [Width.trunc_eq, BitVec.toNat_ofNat]
  exact (Nat.mod_le ..).trans_lt (Nat.mod_lt _ (by positivity))

theorem Memory.readLE_lt (m : Memory) (a : Nat) (n : Width) : (m.readLE a n).toNat < 2 ^ (8 * n.bytes) := by
  cases n
  · exact (BitVec.toNat_setWidth_of_le (by decide)).trans_lt (m.read a).isLt
  · exact (BitVec.toNat_setWidth_of_le (by decide)).trans_lt (m.read (a + 1) ++ m.read a).isLt
  · exact (m.readLE a .long).isLt

theorem lt_of_map_trunc {o : Option Word} (h : o.map n.trunc = some v) : v.toNat < 2 ^ (8 * n.bytes) := by
  obtain ⟨w, _, rfl⟩ := Option.map_eq_some_iff.mp h
  exact n.trunc_lt w

/-- A long has no bits to lose. -/
theorem lt_of_long (h : n = .long) (v : Word) : v.toNat < 2 ^ (8 * n.bytes) := by
  subst h
  exact v.isLt

theorem fbRead_lt {off : Nat} (h : fbRead p off n = some v) : v.toNat < 2 ^ (8 * n.bytes) := by
  unfold fbRead at h
  split at h
  · cases h; exact Memory.readLE_lt ..
  · split at h
    · next hlong => exact lt_of_long hlong.2 v
    · split at h
      · next hlong => exact lt_of_long hlong.2 v
      · exact lt_of_map_trunc h

/-- Region by region (R89): a port is truncated, a window holds bytes, a register window takes longs only. -/
theorem boardRead_lt {a off : Nat} (h : boardRead c p a off n = some v) : v.toNat < 2 ^ (8 * n.bytes) := by
  unfold boardRead at h
  cases hr : regionOf c off <;> simp only [hr, Option.ite_none_right_eq_some, reduceCtorEq] at h
  case ports => exact lt_of_map_trunc h
  case boardRegs | lsic => exact lt_of_long ((alignedLong_iff off n).mp h.1).1 v
  case nvram | diskBuffer | rom =>
    obtain ⟨_, hv⟩ := h
    cases hv
    exact Memory.readLE_lt ..

theorem busRead_lt (h : busRead c p pa n = some v) : v.toNat < 2 ^ (8 * n.bytes) := by
  simp only [busRead] at h
  split at h
  · obtain ⟨_, hv⟩ := Option.ite_none_right_eq_some.mp h
    cases hv
    exact Memory.readLE_lt ..
  · split at h
    · exact lt_of_map_trunc h
    · split at h
      · cases h
      · split at h
        · exact fbRead_lt h
        · split at h
          · exact boardRead_lt h
          · cases h; simp

theorem memRead_lt {s : State} {va : Word} (h : s.memRead va n = .ok v) : v.toNat < 2 ^ (8 * n.bytes) := by
  rcases memRead_cases s va n with ⟨x, _, hr⟩ | ⟨pa, _, _, hr⟩ | ⟨pa, w, _, hb, hr⟩
  · cases hr.symm.trans h
  · cases hr.symm.trans h
  · cases hr.symm.trans h; exact busRead_lt hb

end ReadValue

/-! ### Plain RAM (R84, R119 to R122) -/

section PlainAccess

variable {s : State} {va : Word} {n : Width}

theorem PlainRam.translate (h : PlainRam s va n) (kind : AccessKind) : s.translate va n kind = .ok va := by
  have hb : inBounds va = true := (inBounds_iff va).mpr ⟨h.low, h.area.trans (by decide)⟩
  rw [translate_checked hb h.align, if_neg (Bool.eq_false_iff.mp h.mmu)]

theorem PlainRam.writable (h : PlainRam s va n) : Writable s.config va n := .inl ⟨h.area, h.ram⟩

theorem PlainRam.memRead (h : PlainRam s va n) :
    s.memRead va n = .ok (BitVec.ofNat 32 (bytesValue s.plat.mem va n)) := by
  rw [← readLE_eq]
  exact memRead_of_bus_answers (h.translate .read) (busRead_readable (.inl h.writable))

end PlainAccess

/-! ### Loads (R251) -/

section Load

variable {i : Instr} {s : State} {rD : RegIdx} {ea : Word} {n : Width}

theorem loadTo_wrote {v : Word} (h : s.memRead ea n = .ok v) :
    ∃ t, s.loadTo rD ea n = .next t ∧ WroteReg s t rD v (s.cpu.pc + 4) := by
  simp only [State.loadTo, h]
  exact finish_wrote s rD v

theorem loadTo_trapped {x : Raised} (h : s.memRead ea n = .error x) (hp : s.cpu.excPending = none) :
    ∃ t, s.loadTo rD ea n = .next t ∧ Trapped s t x.exc x.badAddr s.cpu.pc := by
  simp only [State.loadTo, h]
  exact ⟨_, rfl, raise_access_trapped (memRead_error h) hp⟩

/-- An instruction whose meaning is `loadTo` is a load; the premise is its arm of the dispatch. -/
theorem loads_of_loadTo (hexec : exec i s = s.loadTo rD ea n) : Loads i s rD ea n := by
  unfold Loads
  rw [hexec]
  refine ⟨fun v hv => ?_, fun x hx => ⟨memRead_mayRaise hx, loadTo_trapped hx⟩⟩
  rw [Nat.mod_eq_of_lt (memRead_lt hv), ← eq_ofNat_of_toNat_eq rfl]
  exact loadTo_wrote hv

end Load

/-! ### Stores (R251, R265) -/

section Store

variable {i : Instr} {s : State} {regs : RegIdx → Word} {ea : Word} {n : Width} {v : Word}

/-- A bus write in a window of bytes stores them and reaches no device (R84, R94, R95). -/
theorem busWrite_bytesStored {c : Config} {p q : Platform} {pa : Word} (hw : Writable c pa n) (hm : p.mem.wf = true)
    (h : busWrite c p pa n v = some q) : BytesStored p q pa n v ∧ DevicesKept p q := by
  rw [busWrite_writable hw] at h
  cases h
  exact ⟨writeLE_bytesStored hm rfl, by constructor <;> rfl⟩

/-- What the statements about a store rest on: where the write completes, `i` goes on with the registers `regs` and the
platform after the write; where it raises, the exception is the whole of the meaning. -/
structure ExecutesStore (i : Instr) (s : State) (regs : RegIdx → Word) (ea : Word) (n : Width) (v : Word) : Prop where
  completes : ∀ p, s.memWrite ea n v = .ok p → ∃ t, exec i s = .next t ∧
    CpuAfter s t regs (s.cpu.pc + 4) s.cr s.cpu.excPending s.cpu.locked s.cpu.halted ∧ t.plat = p
  raises : ∀ x, s.memWrite ea n v = .error x → exec i s = .next (s.raise x)

/-- An instruction whose meaning is `storeAt` leaves the registers; the premise is its arm of the dispatch. -/
theorem executesStore_of_storeAt (hexec : exec i s = s.storeAt ea n v) : ExecutesStore i s s.reg ea n v where
  completes p hp := by
    simp only [hexec, State.storeAt, hp]
    exact ⟨_, rfl, by constructor <;> simp, by simp⟩
  raises x hx := by simp only [hexec, State.storeAt, hx]

/-- SC with the flag set (R265), whatever its second operand is: 1 to rD after the store. -/
theorem executesStore_of_locked (rD rA : RegIdx) (b : SrcB) (h : s.cpu.locked = true) :
    ExecutesStore (.sc rD rA b) s (s.regsWith rD 1) (s.reg rA) .long (s.opG b) where
  completes p hp := by
    simp only [exec, execSc, h, if_true, hp]
    exact ⟨_, rfl, by constructor <;> simp [State.setReg_reg, State.regsWith, h], by simp⟩
  raises x hx := by simp only [exec, execSc, h, if_true, hx]

namespace ExecutesStore

variable (hi : ExecutesStore i s regs ea n v)
include hi

theorem trapped {x : Raised} (h : s.memWrite ea n v = .error x) (hp : s.cpu.excPending = none) :
    ∃ t, exec i s = .next t ∧ Trapped s t x.exc x.badAddr s.cpu.pc :=
  ⟨_, hi.raises x h, raise_access_trapped (memWrite_error h) hp⟩

theorem plat_of_ok {p : Platform} {t : State} (h : s.memWrite ea n v = .ok p) (ht : exec i s = .next t) :
    t.plat = p := by
  obtain ⟨u, hu, _, hp⟩ := hi.completes p h
  cases hu.symm.trans ht
  exact hp

theorem plat_of_error {x : Raised} {t : State} (h : s.memWrite ea n v = .error x) (ht : exec i s = .next t) :
    t.plat = s.plat := by
  cases (hi.raises x h).symm.trans ht
  exact (raise_keeps s x).1

/-- The platform after a translated store is that of the bus write, or as before where the bus fails; a window of bytes
never fails (R123). -/
theorem frame {pa : Word} {t : State} (htr : s.translate ea n .write = .ok pa) (ht : exec i s = .next t)
    (hm : s.plat.mem.wf = true) :
    (Writable s.config pa n → BytesStored s.plat t.plat pa n v ∧ DevicesKept s.plat t.plat) ∧
      ∀ a, ¬ (Writable s.config pa n ∧ InAccess pa n a) → ¬ (DiskCommandPort pa ∧ InDiskBuffer a) →
        t.plat.mem.read a = s.plat.mem.read a := by
  cases hb : busWrite s.config s.plat pa n v with
  | none =>
    have hplat := hi.plat_of_error (memWrite_of_bus_fails htr hb) ht
    refine ⟨fun hw => ?_, fun a _ _ => by rw [hplat]⟩
    rw [busWrite_writable hw] at hb
    cases hb
  | some p =>
    cases hi.plat_of_ok (memWrite_of_bus_answers htr hb) ht
    exact ⟨fun hw => busWrite_bytesStored hw hm hb, busWrite_read hb hm⟩

theorem stores : Stores i s regs ea n v := by
  refine ⟨fun pa p htr hb => hi.completes p (memWrite_of_bus_answers htr hb),
    fun pa htr hb => hi.trapped (memWrite_of_bus_fails htr hb),
    fun x htr => ⟨translate_mayRaise htr, hi.trapped (memWrite_of_translate_error htr)⟩,
    fun pa t htr ht hm => hi.frame htr ht hm, fun x t htr ht => ?_⟩
  have hplat := hi.plat_of_error (memWrite_of_translate_error htr) ht
  exact ⟨.of_plat hplat, .of_plat hplat⟩

theorem storesInRam : StoresInRam i s regs ea n v := by
  intro hram hm
  obtain ⟨t, ht, hcpu, _⟩ :=
    hi.completes _ (memWrite_of_bus_answers (hram.translate .write) (busWrite_writable hram.writable))
  exact ⟨t, ht, hcpu, (hi.frame (hram.translate .write) ht hm).1 hram.writable⟩

end ExecutesStore

end Store

/-! ### Operands (R155, R250, R255) -/

section Operands

variable (s : State)

theorem toNat_memOffset (n : Width) (imm : BitVec 16) : (memOffset n imm).toNat = n.bytes * imm.toNat := by
  have hlt := imm.isLt
  cases n <;> simp only [memOffset, Width.bytes, BitVec.toNat_shiftLeft, BitVec.toNat_setWidth, Nat.shiftLeft_eq] <;>
    omega

theorem eaImm_eq (base : RegIdx) (n : Width) (imm : BitVec 16) :
    s.eaImm base n imm = BitVec.ofNat 32 ((s.reg base).toNat + n.bytes * imm.toNat) := by
  rw [← toNat_memOffset]
  exact BitVec.add_def ..

theorem eaImm_byte (base : RegIdx) (imm : BitVec 16) :
    s.eaImm base .byte imm = BitVec.ofNat 32 ((s.reg base).toNat + imm.toNat) := by
  rw [eaImm_eq, Width.bytes, Nat.one_mul]

theorem eaImm_int (base : RegIdx) (imm : BitVec 16) :
    s.eaImm base .int imm = BitVec.ofNat 32 ((s.reg base).toNat + 2 * imm.toNat) := eaImm_eq ..

theorem eaImm_long (base : RegIdx) (imm : BitVec 16) :
    s.eaImm base .long imm = BitVec.ofNat 32 ((s.reg base).toNat + 4 * imm.toNat) := eaImm_eq ..

theorem eaIdx_eq (rA rB : RegIdx) (sh : Shift) :
    s.eaIdx rA rB sh = BitVec.ofNat 32 ((s.reg rA).toNat + (shiftOperand sh (s.reg rB)).toNat) :=
  BitVec.add_def ..

theorem storeBase_eq (rD rA : RegIdx) :
    s.storeBase rD rA = if s.config.storeDataField = .rD then rA else rD := by
  unfold State.storeBase
  cases s.config.storeDataField <;> rfl

theorem storeData_eq (rD rA : RegIdx) :
    s.storeData rD rA = if s.config.storeDataField = .rD then rD else rA := by
  unfold State.storeData
  cases s.config.storeDataField <;> rfl

end Operands

/-! ### LL: a load with the flag set before it (R264) -/

section LoadLinked

variable {s t : State} {b : Bool} {v : Word}

/-- A read does not look at the flag. -/
@[simp] theorem State.setLocked_memRead (s : State) (b : Bool) (va : Word) (n : Width) :
    (s.setLocked b).memRead va n = s.memRead va n := rfl

/-- The parameters, the fatal mark and the schedule do not change with the flag. -/
theorem CpuAfter.of_setLocked {regs : RegIdx → Word} {pc : Word} {crs : CrIdx → Word} {exc : Option Exc}
    {locked halted : Bool} (h : CpuAfter (s.setLocked b) t regs pc crs exc locked halted) :
    CpuAfter s t regs pc crs exc locked halted :=
  ⟨h.regs, h.pc, h.crs, h.exc, h.locked, h.halted, h.config, h.fatal, h.schedule⟩

theorem exec_ll_value (rD rA : RegIdx) (h : s.memRead (s.reg rA) .long = .ok v) :
    ∃ t, exec (.ll rD rA) s = .next t ∧
      CpuAfter s t (s.regsWith rD v) (s.cpu.pc + 4) s.cr s.cpu.excPending true s.cpu.halted ∧
      BytesKept s.plat t.plat ∧ DevicesKept s.plat t.plat := by
  obtain ⟨t, ht, hcpu, hbytes, hdevices⟩ := loadTo_wrote (rD := rD) ((s.setLocked_memRead true ..).trans h)
  exact ⟨t, ht, hcpu.of_setLocked, hbytes, hdevices⟩

theorem exec_ll_trapped (rD rA : RegIdx) {x : Raised} (h : s.memRead (s.reg rA) .long = .error x)
    (hp : s.cpu.excPending = none) :
    ∃ t, exec (.ll rD rA) s = .next t ∧
      CpuAfter s t s.reg s.cpu.pc (s.crsBad x.badAddr) (some x.exc) true s.cpu.halted ∧
      BytesKept s.plat t.plat ∧ DevicesKept s.plat t.plat := by
  obtain ⟨t, ht, hcpu, hbytes, hdevices⟩ := loadTo_trapped (rD := rD) ((s.setLocked_memRead true ..).trans h) hp
  exact ⟨t, ht, hcpu.of_setLocked, hbytes, hdevices⟩

/-- Bits 27 to 16 of a word are out of the mask of LL's format. -/
theorem packLl_middle_ignored (f : BitVec 4) (mid mid' : BitVec 12) (rA rD : RegIdx) (op : BitVec 6) :
    (f ++ mid ++ rA ++ rD ++ op : Word) &&& 0xF000FFFF = (f ++ mid' ++ rA ++ rD ++ op) &&& 0xF000FFFF := by
  have hmask : (0xF000FFFF : Word) = BitVec.allOnes 4 ++ 0#12 ++ BitVec.allOnes 5 ++ BitVec.allOnes 5 ++
      BitVec.allOnes 6 := by decide
  simp only [hmask, BitVec.and_append, BitVec.and_zero]

/-- The word of LL in group 0x31, up to the ignored bits (R158, R171): its rB field is one of them. -/
theorem encode_ll_and_mask {e : Encoding} (h : e.ll.group = .grp) (k : BitVec 12) (rD rA : RegIdx) :
    encode e (.ll rD rA) &&& 0xF000FFFF =
      (e.ll.funct ++ k ++ rA ++ rD ++ (0b110001 : BitVec 6)) &&& 0xF000FFFF := by
  have hjoin : (e.ll.funct ++ (0 : BitVec 7) ++ (0 : RegIdx) : BitVec 16) = e.ll.funct ++ (0 : BitVec 12) :=
    BitVec.append_assoc
  have hword : encode e (.ll rD rA) = e.ll.funct ++ (0 : BitVec 12) ++ rA ++ rD ++ (0b110001 : BitVec 6) := by
    rw [← hjoin, encode, packG, h]
    rfl
  rw [hword]
  exact packLl_middle_ignored e.ll.funct _ k rA rD _

end LoadLinked

/-! ### SC (R265) -/

/-- SC, whatever its second operand is: without the flag nothing is written but 0 to rD; with it, it is a store. -/
theorem exec_sc_storesWhileLocked (s : State) (rD rA : RegIdx) (b : SrcB) :
    StoresWhileLocked (.sc rD rA b) s rD rA (s.opG b) := by
  refine ⟨fun h => ?_, fun h => (executesStore_of_locked rD rA b h).stores,
    fun h => (executesStore_of_locked rD rA b h).storesInRam⟩
  have hexec : exec (.sc rD rA b) s = s.finish rD 0 := by simp [exec, execSc, h]
  exact exec_wrote_of_finish hexec rfl

/-! ### The function codes of the indexed stores (R162 (d)) -/

theorem storeFuncts_of_wf {e : Encoding} (h : e.wf = true) :
    (e.stbx = 9 ∨ e.stbx = 10 ∨ e.stbx = 11) ∧ (e.stix = 9 ∨ e.stix = 10 ∨ e.stix = 11) ∧
      (e.stlx = 9 ∨ e.stlx = 10 ∨ e.stlx = 11) := by
  simp only [Encoding.wf, Bool.and_eq_true] at h
  obtain ⟨⟨⟨_, hreg⟩, _⟩, _⟩ := h
  simp only [Encoding.regWf, Bool.and_eq_true] at hreg
  obtain ⟨_, hcodes⟩ := hreg
  simpa [Encoding.regFunct, or_assoc] using hcodes

/-! ### The obligations -/

/-- Settles O12: each meaning is `loadTo` at the address whose number is stated. -/
theorem immediateLoads : Obligations.ImmediateLoads := by
  intro s rD rA imm
  rw [← eaImm_byte, ← eaImm_int, ← eaImm_long]
  exact ⟨loads_of_loadTo rfl, loads_of_loadTo rfl, loads_of_loadTo rfl, fun _ => ⟨rfl, rfl, rfl⟩⟩

/-- Settles O15: each meaning is `storeAt`, its base and data registers those of the field. -/
theorem immediateStores : Obligations.ImmediateStores := by
  intro s rD rA imm
  rw [← storeBase_eq, ← storeData_eq]
  exact ⟨(executesStore_of_storeAt rfl).stores, (executesStore_of_storeAt rfl).stores,
    (executesStore_of_storeAt rfl).stores, eaImm_byte .., eaImm_int .., eaImm_long .., fun _ => ⟨rfl, rfl, rfl⟩⟩

/-- Settles O16: each meaning is `storeAt`; the codes are those R162 (d) leaves. -/
theorem indexedStores : Obligations.IndexedStores := by
  intro s rD rA rB sh
  exact ⟨(executesStore_of_storeAt rfl).stores, (executesStore_of_storeAt rfl).stores,
    (executesStore_of_storeAt rfl).stores, eaIdx_eq .., fun _ => ⟨rfl, rfl, rfl, storeFuncts_of_wf⟩⟩

/-- Settles O18: the load of `exec_ll_value` or the exception of `exec_ll_trapped`; from plain RAM the load answers. -/
theorem loadLinked : Obligations.LoadLinked := by
  intro s rD rA
  exact ⟨fun _ => exec_ll_value rD rA, fun _ hx => ⟨memRead_mayRaise hx, exec_ll_trapped rD rA hx⟩,
    fun hram => exec_ll_value rD rA hram.memRead, fun _ k h => encode_ll_and_mask h k rD rA⟩

/-- Settles O19: SC with the operand of format G, and its word. -/
theorem storeConditional : Obligations.StoreConditional := by
  intro s rD rA rB
  exact ⟨exec_sc_storesWhileLocked s rD rA (.reg rB), fun _ k h => packG_grp_and_mask h k rD rA rB⟩

end Sys2Proof.Machine

/-! PROOFS of the family 42_control.md: the targets as numbers, the jumps with their links, and the branches. -/

namespace Sys2Proof.Machine

/-! ### The scaled offsets and the jump target as numbers (R159) -/

/-- A field shifted left in a word that has room for it is the field followed by zeros. -/
theorem setWidth_shiftLeft_eq_append {w : Nat} (x : BitVec w) (n : Nat) : x.setWidth (w + n) <<< n = x ++ 0#n := by
  rw [BitVec.append_def, BitVec.setWidth'_eq, BitVec.setWidth_zero, BitVec.or_zero, BitVec.shiftLeftZeroExtend_eq]

/-- The sign-extended offset of R159 loses no bit: its number is 4 times that of the field. -/
theorem toInt_scaledOffset {w : Nat} (x : BitVec w) (hw : w + 2 ≤ 32) :
    ((x.setWidth (w + 2) <<< 2).signExtend 32).toInt = 4 * x.toInt := by
  rw [BitVec.toInt_signExtend_of_le hw, setWidth_shiftLeft_eq_append, BitVec.toInt_append_zero]
  rfl

theorem toInt_jalrOffset (imm : BitVec 16) : (jalrOffset imm).toInt = 4 * imm.toInt :=
  toInt_scaledOffset imm (by decide)

theorem toInt_branchOffset (disp : BitVec 21) : (branchOffset disp).toInt = 4 * disp.toInt :=
  toInt_scaledOffset disp (by decide)

/-- The mask 0x8000_0000 keeps the bank bit. -/
theorem toNat_and_bankMask (x : Word) : (x &&& 0x80000000).toNat = x.toNat / 2 ^ 31 * 2 ^ 31 := by
  have hmask : (0x80000000 : Word) = BitVec.allOnes 32 <<< 31 := by decide
  rw [hmask, ← BitVec.shiftLeft_ushiftRight, BitVec.toNat_shiftLeft, BitVec.toNat_ushiftRight, Nat.shiftLeft_eq,
    Nat.shiftRight_eq_div_pow]
  omega

/-- The bank bit and the field scaled by 4 do not meet, so the target is their sum. -/
theorem toNat_jumpTarget (pc0 : Word) (target : BitVec 29) :
    (jumpTarget pc0 target).toNat = pc0.toNat / 2 ^ 31 * 2 ^ 31 + 4 * target.toNat := by
  have hlow : (target.setWidth 32 <<< 2).toNat = 4 * target.toNat := by
    rw [BitVec.toNat_shiftLeft, BitVec.toNat_setWidth_of_le (by decide), Nat.shiftLeft_eq]
    omega
  have hfits : 4 * target.toNat < 2 ^ 31 := by omega
  rw [jumpTarget, BitVec.toNat_or, toNat_and_bankMask, hlow, ← Nat.shiftLeft_eq, Nat.shiftLeft_add_eq_or_of_lt hfits]

/-- A sum with an offset known by its signed number. -/
theorem add_eq_ofInt_of_toInt_eq (a : Word) {b : Word} {k : Int} (h : b.toInt = k) :
    a + b = BitVec.ofInt 32 (a.toNat + k) := by
  rw [← h, BitVec.ofInt_add, BitVec.ofInt_natCast, BitVec.ofNat_toNat, BitVec.setWidth_eq, BitVec.ofInt_toInt]

/-! ### The tests of the branches (R284 to R286, D10) -/

theorem testZero_iff (x : Word) : testZero x = true ↔ x = 0 := beq_iff_eq

theorem testNotZero_iff (x : Word) : testNotZero x = true ↔ x ≠ 0 := bne_iff_ne

theorem testNegative_iff (x : Word) : testNegative x = true ↔ x.toInt < 0 := by
  have hmsb : testNegative x = x.msb := (BitVec.msb_eq_getLsbD_last x).symm
  rw [hmsb, BitVec.msb_eq_toInt, decide_eq_true_iff]

/-! ### Going to a target, with a link or without -/

/-- A jump with a link (R282, R283): the register written, the pc set, nothing else. -/
theorem setReg_setPc_wrote (s : State) (rD : RegIdx) (v pc : Word) : WroteReg s ((s.setReg rD v).setPc pc) rD v pc :=
  ⟨by constructor <;> simp [State.setReg_reg, State.regsWith], .of_plat (by simp), .of_plat (by simp)⟩

theorem exec_j_went (s : State) (target : BitVec 29) : ∃ t, exec (.j target) s = .next t ∧
    WentTo s t (BitVec.ofNat 32 (s.cpu.pc.toNat / 2 ^ 31 * 2 ^ 31 + 4 * target.toNat)) := by
  rw [← eq_ofNat_of_toNat_eq (toNat_jumpTarget ..)]
  exact ⟨_, rfl, setPc_went ..⟩

theorem exec_jal_wrote (s : State) (target : BitVec 29) : ∃ t, exec (.jal target) s = .next t ∧
    WroteReg s t 31 (s.cpu.pc + 4) (BitVec.ofNat 32 (s.cpu.pc.toNat / 2 ^ 31 * 2 ^ 31 + 4 * target.toNat)) := by
  rw [← eq_ofNat_of_toNat_eq (toNat_jumpTarget ..)]
  exact ⟨_, rfl, setReg_setPc_wrote ..⟩

/-- The base is x[rA] before the link is written, also where rD is rA (D41). -/
theorem exec_jalr_wrote (s : State) (rD rA : RegIdx) (imm : BitVec 16) : ∃ t, exec (.jalr rD rA imm) s = .next t ∧
    WroteReg s t rD (s.cpu.pc + 4) (BitVec.ofInt 32 ((s.reg rA).toNat + 4 * imm.toInt)) := by
  rw [← add_eq_ofInt_of_toInt_eq _ (toInt_jalrOffset imm)]
  exact ⟨_, rfl, setReg_setPc_wrote ..⟩

/-- A branch goes to its target exactly where what it tests holds. The first premise is the instruction's arm of the
dispatch; the second says its test in the statement's words. -/
theorem exec_went_of_branchIf {i : Instr} {s : State} {taken : Bool} {disp : BitVec 21} {p : Prop} [Decidable p]
    (hexec : exec i s = s.branchIf taken disp) (htaken : taken = true ↔ p) : ∃ t, exec i s = .next t ∧
      WentTo s t (if p then BitVec.ofInt 32 (s.cpu.pc.toNat + 4 * disp.toInt) else s.cpu.pc + 4) := by
  simp only [hexec, ← htaken, ← add_eq_ofInt_of_toInt_eq _ (toInt_branchOffset disp)]
  exact branchIf_went s taken disp

/-! ### The obligations -/

/-- Settles O30: each jump sets the pc to a target known by its number, JAL and JALR beside their link. -/
theorem jumps : Obligations.Jumps := by
  intro s target rD rA imm
  exact ⟨exec_j_went s target, exec_jal_wrote s target, exec_jalr_wrote s rD rA imm, fun _ => ⟨rfl, rfl, rfl⟩⟩

/-- Settles O31: each branch is `branchIf` of its test; BNE's statement names the case not taken first. -/
theorem branches : Obligations.Branches := by
  intro s rD disp target
  rw [← ite_not (s.reg rD = 0) target]
  exact ⟨exec_went_of_branchIf rfl (testZero_iff _), exec_went_of_branchIf rfl (testNotZero_iff _),
    exec_went_of_branchIf rfl (testNegative_iff _), fun _ => ⟨rfl, rfl, rfl⟩⟩

end Sys2Proof.Machine

/-! PROOFS of the family 43_system.md: the two modes of a privileged instruction, RFE and MFCR. -/

namespace Sys2Proof.Machine

/-! ### A privileged instruction in the two modes (R300) -/

section Modes

variable {i : Instr} {s next : State}

/-- In kernel mode a privileged instruction has its effect. The first premise is its arm of the dispatch. -/
theorem exec_privileged_kernel (hexec : exec i s = s.privileged next) (hk : (s.cr crRS).getLsbD 0 = false) :
    exec i s = .next next :=
  hexec.trans (privileged_kernel hk)

/-- In user mode it raises INVPRVG and nothing else; INVPRVG is no call trap, so the pc stays (R431). -/
theorem exec_privileged_trapped (hexec : exec i s = s.privileged next) (hu : (s.cr crRS).getLsbD 0 = true)
    (hp : s.cpu.excPending = none) : ∃ t, exec i s = .next t ∧ Trapped s t .invprvg none s.cpu.pc := by
  have hpc : s.epcOf .invprvg = s.cpu.pc := rfl
  exact ⟨_, hexec.trans (privileged_user hu), hpc ▸ raise_trapped ⟨.invprvg, none⟩ hp⟩

end Modes

/-! ### The meanings of RFE (R305) and MFCR (R32, R309) in kernel mode -/

section Kernel

variable {s : State} (hk : (s.cr crRS).getLsbD 0 = false)
include hk

theorem exec_rfe_kernel : ∃ t, exec .rfe s = .next t ∧
    CpuAfter s t s.reg (s.cr crEPC) (s.crsWith crRS (s.cr crERS)) s.cpu.excPending false s.cpu.halted ∧
    BytesKept s.plat t.plat ∧ DevicesKept s.plat t.plat := by
  obtain ⟨hcpu, hplat⟩ := returnFromException_after s
  exact ⟨_, exec_privileged_kernel rfl hk, hcpu, .of_plat hplat, .of_plat hplat⟩

theorem exec_mfcr_kernel (rD : RegIdx) (c : CrIdx) : ∃ t, exec (.mfcr rD c) s = .next t ∧
    CpuAfter s t (fun i => if i = rD ∧ (rD ≠ 0 ∨ s.config.mfcrR0Visible = true) then s.cr c else s.reg i)
      (s.cpu.pc + 4) s.cr s.cpu.excPending s.cpu.locked s.cpu.halted ∧
    BytesKept s.plat t.plat ∧ DevicesKept s.plat t.plat :=
  ⟨_, exec_privileged_kernel rfl hk, by constructor <;> simp [State.setRegMfcr_reg], .of_plat (by simp),
    .of_plat (by simp)⟩

end Kernel

/-! ### The words of group 0x29 (R158, R171) -/

/-- Under the mask of RFE's format a word is its function code and its opcode. -/
theorem append_and_functOpMask (f : BitVec 4) (mid : BitVec 22) (op : BitVec 6) :
    (f ++ mid ++ op : Word) &&& (0xF000003F : Word) = f.setWidth 32 <<< 28 ||| op.setWidth 32 := by
  have hfunct : fFunct (f ++ mid ++ op) = f := by
    rw [fFunct, extract_append_high _ _ _ _ (by decide), extract_append_high _ _ _ _ (by decide)]
    exact extract_all f
  have hop : fOp (f ++ mid ++ op) = op := by
    rw [fOp, extract_append_low _ _ _ _ (by decide)]
    exact extract_all op
  rw [Laws.RowMatch.and_funct_op, hfunct, hop]

theorem encode_rfe_and_mask (e : Encoding) (k : BitVec 22) :
    encode e .rfe &&& 0xF000003F = (e.rfe ++ k ++ (0b101001 : BitVec 6)) &&& 0xF000003F :=
  (Laws.RowMatch.rfe e).trans (append_and_functOpMask e.rfe k 0b101001).symm

/-- Bits 27 to 21 and the rA field are out of the mask of MFCR's format. -/
theorem packMfcr_middle_ignored (f : BitVec 4) (mid mid' : BitVec 7) (c : CrIdx) (rA rA' rD : RegIdx)
    (op : BitVec 6) :
    (f ++ mid ++ c ++ rA ++ rD ++ op : Word) &&& 0xF01F07FF = (f ++ mid' ++ c ++ rA' ++ rD ++ op) &&& 0xF01F07FF := by
  have hmask : (0xF01F07FF : Word) = BitVec.allOnes 4 ++ 0#7 ++ BitVec.allOnes 5 ++ 0#5 ++ BitVec.allOnes 5 ++
      BitVec.allOnes 6 := by decide
  simp only [hmask, BitVec.and_append, BitVec.and_zero]

theorem encode_mfcr_and_mask (e : Encoding) (rD : RegIdx) (c : CrIdx) (k7 : BitVec 7) (k5 : BitVec 5) :
    encode e (.mfcr rD c) &&& 0xF01F07FF =
      (e.mfcr ++ k7 ++ c ++ k5 ++ rD ++ (0b101001 : BitVec 6)) &&& 0xF01F07FF :=
  packMfcr_middle_ignored e.mfcr 0 k7 c 0 k5 rD _

/-! ### The obligations -/

/-- Settles O33: the return of `returnFromException_after` in kernel mode, INVPRVG in user mode, and the word. -/
theorem returnFromException : Obligations.ReturnFromException := by
  intro s
  exact ⟨exec_rfe_kernel, exec_privileged_trapped rfl, encode_rfe_and_mask⟩

/-- Settles O35: MFCR's own write of rD (`setRegMfcr_reg`) in kernel mode, INVPRVG in user mode, and the word. -/
theorem moveFromControl : Obligations.MoveFromControl := by
  intro s rD c
  exact ⟨fun hk => exec_mfcr_kernel hk rD c, exec_privileged_trapped rfl, fun e => encode_mfcr_and_mask e rD c⟩

end Sys2Proof.Machine

/-! PROOFS of the family 60_exceptions.md: when and where a step delivers, precise exceptions, the LSIC's arbiter, the
disk's block commands and the RTC's tick. -/

namespace Sys2Proof.Machine

/-! ### What an instruction that raises leaves (R430 to R432) -/

section Precise

variable {i : Instr} {s t : State} {kind : AccessKind} {x : Raised}

theorem Exc.callTrap_iff (e : Exc) : e.callTrap = true ↔ e = .syscall ∨ e = .brkpoint ∨ e = .fwcall := by
  cases e <;> decide

/-- The four exceptions of an access are those that record an address (R49). -/
theorem AccessExc.exc_cases (h : AccessExc kind x) :
    x.exc = .buserror ∨ x.exc = .unaligned ∨ x.exc = .pagefault ∨ x.exc = .pagewrite := by
  obtain ⟨_, hpage | halign | hbus⟩ := h
  · cases kind
    · exact .inr (.inr (.inl hpage))
    · exact .inr (.inr (.inr hpage))
  · exact .inr (.inl halign)
  · exact .inl hbus

theorem Raises.badAddr_eq_none (h : Raises i s x) (hb : x.exc ≠ .buserror) (hu : x.exc ≠ .unaligned)
    (hf : x.exc ≠ .pagefault) (hw : x.exc ≠ .pagewrite) : x.badAddr = none := by
  cases h with
  | sys | brk | fwc | user => rfl
  | access _ _ hx => rcases hx.exc_cases with h | h | h | h <;> contradiction

theorem State.crsBad_of_ne (s : State) (bad : Option Word) {c : CrIdx} (h : c ≠ crEBADADDR) :
    s.crsBad bad c = s.cr c := by
  cases bad
  · rfl
  · exact if_neg h

/-- Of the shapes of `Effect` only the two raises latch an exception: the trap is that of `s`, for LL with the flag
already set (R264). -/
theorem Effect.latched (h : Effect i s t) (hp : s.cpu.excPending = none) (ht : t.cpu.excPending ≠ none) :
    ∃ x flag, Raises i s x ∧ Trapped (s.setLocked flag) t x.exc x.badAddr (s.epcOf x.exc) ∧
      ((∀ rD rA, i ≠ .ll rD rA) → flag = s.cpu.locked) := by
  cases h with
  | raised x hx => exact ⟨x, s.cpu.locked, hx, raise_trapped x hp, fun _ => rfl⟩
  | linkedRaise rD rA x hi hx =>
    exact ⟨x, true, .access .read x hx, raise_trapped x hp, fun hne => absurd hi (hne rD rA)⟩
  | _ => simp [State.returnFromException, hp] at ht

end Precise

/-- Settles O41: the trap of `Effect.latched`, field by field. -/
theorem preciseExceptions : Obligations.PreciseExceptions := by
  intro i s t e hp hexec ht
  obtain ⟨x, flag, hraises, ⟨hcpu, hbytes, hdevices⟩, hflag⟩ :=
    (effect_of_exec hexec).latched hp (by simp [ht])
  obtain rfl : x.exc = e := Option.some.inj (hcpu.exc.symm.trans ht)
  refine ⟨hcpu.regs, fun c hc => ?_, fun hb hu hf hw => ?_, hbytes, hdevices,
    fun hne => hcpu.locked.trans (hflag hne), hcpu.halted, hcpu.config, hcpu.fatal, hcpu.schedule, ?_⟩
  · exact (hcpu.crs c).trans (State.crsBad_of_ne _ _ hc)
  · rw [hcpu.crs, hraises.badAddr_eq_none hb hu hf hw]
    rfl
  · rw [hcpu.pc, epcOf_eq]
    simp only [Exc.callTrap_iff]

/-! ### Delivery (R440, R443) -/

section Delivery

variable {s : State}

theorem deliver_of_deliverable (h : s.deliverable = true) : s.deliver = s.takeException := if_pos h

theorem deliver_of_not_deliverable (h : s.deliverable = false) : s.deliver = s := if_neg (by simp [h])

theorem deliverable_iff (s : State) : s.deliverable = true ↔
    s.cpu.excPending ≠ none ∨ ((s.cr crRS).getLsbD 1 = true ∧ s.plat.lsic.signal = true) := by
  simp [State.deliverable, State.intEnabled, Option.isSome_iff_ne_none]

end Delivery

/-- Settles O38: the two disjuncts of `deliverable`, the signal as a bit. -/
theorem deliveryCondition : Obligations.DeliveryCondition := by
  intro s
  rw [← Lsic.signal_iff]
  exact ⟨deliverable_iff s, deliver_of_not_deliverable⟩

/-- Settles O40: delivery through vector 0 is `cpuReset`; the control registers it sets, one after the other. -/
theorem vectorZeroResetsTheCpu : Obligations.VectorZeroResetsTheCpu := by
  intro s hd hv
  obtain ⟨hcpu, hplat⟩ := cpuReset_after s
  have hdisjoint (c : CrIdx) : c = crFWVEC → ¬ c = crCPUID := by rintro rfl; decide
  rw [deliver_of_deliverable hd, takeException_zero hv]
  refine ⟨{ hcpu with crs := fun c => ?_ }, .of_plat hplat, .of_plat hplat⟩
  rw [hcpu.crs, ite_or, ite_or, ite_ite_comm (h := hdisjoint c)]

/-! ### The LSIC (R410, R413 to R416) -/

section Lsic

variable (l : Lsic) {v : Nat}

/-- `PEND(v)` and `MASK(v)` are bit v of the two words taken as one, the second above the first. -/
theorem Lsic.pending_eq (v : Nat) : (l.pend1 ++ l.pend0).getLsbD v = l.pending v := by
  rw [BitVec.getLsbD_append, Lsic.pending]

theorem Lsic.masked_eq (v : Nat) : (l.mask1 ++ l.mask0).getLsbD v = l.masked v := by
  rw [BitVec.getLsbD_append, Lsic.masked]

/-- A number past the last vector completes nothing (R414). -/
theorem Lsic.complete_bits (c : Word) (hv : v < 64) :
    (l.complete c).pending v = (l.pending v && decide (v ≠ c.toNat)) ∧ (l.complete c).masked v = l.masked v := by
  unfold Lsic.complete
  split
  · exact l.clearPend_bits (by omega) hv
  · have hne : v ≠ c.toNat := by omega
    simp [hne]

/-- Vector 0 and the numbers past the last vector are not raised (R415). -/
theorem Lsic.raise_bits (r : Nat) (hv : v < 64) :
    (l.raise r).pending v = (l.pending v || decide (v = r ∧ r ≠ 0)) ∧ (l.raise r).masked v = l.masked v := by
  unfold Lsic.raise
  split
  · have hr : r ≠ 0 := by omega
    simpa [hr] using l.setPend_bits (r := r) (by omega) hv
  · have hno : ¬ (v = r ∧ r ≠ 0) := by omega
    simp [hno]

/-- The signal is a pending unmasked vector, vector 0 included (R416). -/
theorem Lsic.signal_iff_vector : l.signal = true ↔ ∃ v, v < 64 ∧ l.pending v = true ∧ l.masked v = false := by
  rw [Lsic.signal_iff]
  constructor
  · rintro ⟨k, hk, hlow | hhigh⟩
    · exact ⟨k, by omega, by simpa [Lsic.pending, Lsic.masked, hk] using hlow⟩
    · exact ⟨k + 32, by omega, by simpa [Lsic.pending, Lsic.masked] using hhigh⟩
  · rintro ⟨v, hv, hbits⟩
    by_cases hlow : v < 32
    · exact ⟨v, hlow, .inl (by simpa [Lsic.pending, Lsic.masked, hlow] using hbits)⟩
    · exact ⟨v - 32, by omega, .inr (by simpa [Lsic.pending, Lsic.masked, hlow] using hbits)⟩

/-- A device's vector of the first word sets its bit there and nothing else (R415). -/
theorem Lsic.raise_low (h1 : 1 ≤ v) (h2 : v < 32) :
    l.raise v = { l with pend0 := l.pend0 ||| BitVec.ofNat 32 (2 ^ v) } := by
  rw [Lsic.raise, if_pos (by omega), Lsic.setPend, if_pos h2, vectorBit, Nat.mod_eq_of_lt h2]

end Lsic

/-- Settles O52: the claim's two cases, and each operation bit by bit. -/
theorem lsicArbiter : Obligations.LsicArbiter := by
  intro l
  simp only [Lsic.pending_eq, Lsic.masked_eq]
  refine ⟨?_, ?_, fun c _ => l.complete_bits c, fun r _ => l.raise_bits r, l.signal_iff_vector⟩
  · rcases l.claim_cases with ⟨h0, hnone⟩ | ⟨h1, h63, hpend, hmask, _⟩
    · exact ⟨fun _ => hnone, fun _ => h0⟩
    · exact ⟨fun h0 => by omega, fun hnone => absurd ⟨hpend, hmask⟩ (hnone _ h1 h63)⟩
  · rcases l.claim_cases with ⟨h0, _⟩ | hclaim
    · exact fun hne => absurd h0 hne
    · exact fun _ => hclaim

/-! ### The disk's block commands (R471, R472, R475) -/

section Disk

variable {p : Platform} {d : Disk} {i : Nat} {img : DiskImage}

/-- A block command has no target where there is no drive, or no such block (R475). -/
theorem Disk.target_eq_none
    (h : ∀ i img, d.selected = some i → d.images[i]? = some img → img.size / 512 ≤ d.portA.toNat) :
    d.target = none := by
  cases ht : d.target with
  | none => rfl
  | some pair =>
    obtain ⟨hsel, himg, hlt⟩ := Disk.target_some ht
    exact absurd hlt (h _ _ hsel himg).not_gt

theorem Disk.target_eq_some (hsel : d.selected = some i) (himg : d.images[i]? = some img)
    (hlt : d.portA.toNat < img.size / 512) : d.target = some (i, img) := by
  simp [Disk.target, hsel, himg, DiskImage.blockCount, hlt]

theorem portWrite_diskRead (c : Config) (p : Platform) : portWrite c p 0x19 2 = some p.diskRead := rfl

theorem portWrite_diskWrite (c : Config) (p : Platform) : portWrite c p 0x19 3 = some p.diskWrite := rfl

/-- Where no block command may run, none does anything (R475). -/
theorem diskRead_of_no_target (h : p.disk.target = none) : p.diskRead = p := by simp [Platform.diskRead, h]

theorem diskWrite_of_no_target (h : p.disk.target = none) : p.diskWrite = p := by simp [Platform.diskWrite, h]

/-- The image after command 3: its block of that number replaced by the 512 bytes of the buffer (R471). -/
def DiskImage.withBlock (img : DiskImage) (block : Nat) (buffer : Memory) : DiskImage :=
  { img with bytes := img.bytes.copy (block * 512) buffer dbufBase 512 }

@[simp] theorem withBlock_size (img : DiskImage) (block : Nat) (buffer : Memory) :
    (img.withBlock block buffer).size = img.size := by
  rw [DiskImage.withBlock]

theorem diskRead_of_target (h : p.disk.target = some (i, img)) :
    p.diskRead = Platform.diskWriteInfo
      { p with mem := p.mem.copy dbufBase img.bytes (p.disk.portA.toNat * 512) 512 } 0 p.disk.portA := by
  simp [Platform.diskRead, h]

theorem diskWrite_of_target (h : p.disk.target = some (i, img)) :
    p.diskWrite = Platform.diskWriteInfo
      { p with disk := { p.disk with images := p.disk.images.set i (img.withBlock p.disk.portA.toNat p.mem) } }
      0 p.disk.portA := by
  simp [Platform.diskWrite, DiskImage.withBlock, h]

/-- The completion notes its two words and raises vector 3, bit 3 of the first word, where interrupts are enabled
(R472). -/
theorem diskWriteInfo_eq (p : Platform) (what details : Word) :
    p.diskWriteInfo what details =
      { p with
        disk := { p.disk with lastWhat := what, lastDetails := details }
        lsic := if p.disk.irqEnabled = true then { p.lsic with pend0 := p.lsic.pend0 ||| 8 } else p.lsic } := by
  unfold Platform.diskWriteInfo
  split
  · rw [Platform.raiseIrq, Lsic.raise_low _ (v := diskVector) (by decide) (by decide)]
    rfl
  · rfl

@[simp] theorem diskWriteInfo_portA (p : Platform) (what details : Word) :
    (p.diskWriteInfo what details).disk.portA = p.disk.portA := by
  rw [diskWriteInfo_eq]

theorem read_withBlock (hm : img.bytes.wf = true) (block : Nat) (buffer : Memory) (a : Nat) :
    (img.withBlock block buffer).bytes.read a =
      if block * 512 ≤ a ∧ a < block * 512 + 512 then buffer.read (dbufBase + (a - block * 512))
      else img.bytes.read a := by
  rw [DiskImage.withBlock, Memory.read_copy _ _ _ _ _ hm]

/-- After a write the drive holds the new image, and its block may be read. -/
theorem diskWrite_target (h : p.disk.target = some (i, img)) :
    p.diskWrite.disk.target = some (i, img.withBlock p.disk.portA.toNat p.mem) := by
  obtain ⟨hsel, himg, hlt⟩ := Disk.target_some h
  obtain ⟨hi, _⟩ := List.getElem?_eq_some_iff.mp himg
  rw [diskWrite_of_target h]
  apply Disk.target_eq_some
  · simpa using hsel
  · simp [hi]
  · simpa using hlt

/-- Memory after a block is read: its bytes in the buffer, every other byte as before (R471). -/
theorem diskRead_read (hm : p.mem.wf = true) (h : p.disk.target = some (i, img)) (a : Nat) :
    p.diskRead.mem.read a =
      if dbufBase ≤ a ∧ a < dbufBase + 512 then img.bytes.read (p.disk.portA.toNat * 512 + (a - dbufBase))
      else p.mem.read a := by
  rw [diskRead_of_target h, diskWriteInfo_mem, Memory.read_copy _ _ _ _ _ hm]

/-- Command 3 leaves memory as it is (R471). -/
theorem diskWrite_mem (h : p.disk.target = some (i, img)) : p.diskWrite.mem = p.mem := by
  rw [diskWrite_of_target h, diskWriteInfo_mem]

theorem diskWrite_portA (h : p.disk.target = some (i, img)) : p.diskWrite.disk.portA = p.disk.portA := by
  rw [diskWrite_of_target h, diskWriteInfo_portA]

/-- The round trip (W5): what a write put into the block is read back into the same buffer. -/
theorem diskRead_diskWrite (hm : p.mem.wf = true) (him : img.bytes.wf = true)
    (h : p.disk.target = some (i, img)) : BytesKept p p.diskWrite.diskRead := by
  intro a
  rw [diskRead_read ((diskWrite_mem h).symm ▸ hm) (diskWrite_target h), diskWrite_mem h, diskWrite_portA h,
    read_withBlock him]
  split
  · rw [if_pos (by omega)]
    congr 1
    omega
  · rfl

end Disk

/-- Settles O53: without a target both commands do nothing; with one, each is its copy and its completion, and the
round trip is `diskRead_diskWrite`. -/
theorem diskBlockCommands : Obligations.DiskBlockCommands := by
  intro c p hm
  simp only [portWrite_diskRead, portWrite_diskWrite]
  refine ⟨fun hno => ?_, fun i img hsel himg hlt him => ?_⟩
  · have hnone := Disk.target_eq_none hno
    rw [diskRead_of_no_target hnone, diskWrite_of_no_target hnone]
    exact ⟨rfl, rfl⟩
  · have h := Disk.target_eq_some hsel himg hlt
    refine ⟨⟨_, rfl, fun k hk => ?_, fun a ha => ?_, ?_⟩,
      ⟨_, img.withBlock p.disk.portA.toNat p.mem, rfl, fun a => by rw [diskWrite_mem h], withBlock_size ..,
        fun k hk => ?_, fun a ha => ?_, ?_, _, rfl, diskRead_diskWrite hm him h⟩⟩
    · rw [diskRead_read hm h, dbufBase, if_pos (by omega), Nat.add_sub_cancel_left, Nat.mul_comm]
    · rw [diskRead_read hm h, dbufBase, if_neg (by unfold InDiskBuffer at ha; omega)]
    · rw [diskRead_of_target h, diskWriteInfo_eq]
    · rw [read_withBlock him, if_pos (by omega), dbufBase, Nat.mul_comm, Nat.add_sub_cancel_left]
    · rw [read_withBlock him, if_neg (by omega)]
    · rw [diskWrite_of_target h, diskWriteInfo_eq]

/-! ### The RTC's tick (R491) -/

section Rtc

variable {p : Platform} {ms : Nat}

theorem hostEvent_rtcTick (c : Config) (p : Platform) (ms : Nat) : p.hostEvent c (.rtcTick ms) = p.rtcTick ms := rfl

theorem tickRaises_iff (r : Rtc) (ms : Nat) :
    r.tickRaises ms = true ↔ r.interval ≠ 0 ∧ r.interval.toNat ≤ r.acc + ms := by
  simp [Rtc.tickRaises]

theorem rtcTick_of_not_raises (h : ¬ (p.rtc.interval ≠ 0 ∧ p.rtc.interval.toNat ≤ p.rtc.acc + ms)) :
    p.rtcTick ms = { p with rtc := p.rtc.tick ms } := by
  rw [Platform.rtcTick, if_neg (by rwa [tickRaises_iff])]

/-- The vector raised is 1, bit 1 of the first word (R417). -/
theorem rtcTick_of_raises (h : p.rtc.interval ≠ 0 ∧ p.rtc.interval.toNat ≤ p.rtc.acc + ms) :
    p.rtcTick ms =
      { p with rtc := p.rtc.tick ms, lsic := { p.lsic with pend0 := p.lsic.pend0 ||| 2 } } := by
  rw [Platform.rtcTick, if_pos ((tickRaises_iff ..).mpr h), Platform.raiseIrq,
    Lsic.raise_low _ (v := rtcVector) (by decide) (by decide)]
  rfl

end Rtc

/-- Settles O56: the tick by whether an interval is set and the accumulator reaches it. -/
theorem rtcTick : Obligations.RtcTick := by
  intro c p ms
  rw [hostEvent_rtcTick]
  refine ⟨fun h0 => ?_, fun h0 hlt => ?_, fun h0 hle => ?_⟩
  · rw [rtcTick_of_not_raises (by simp [h0]), Rtc.tick, if_pos h0]
  · rw [rtcTick_of_not_raises (by omega), Rtc.tick, if_neg h0, if_neg (by omega)]
  · rw [rtcTick_of_raises ⟨h0, hle⟩, Rtc.tick, if_neg h0, if_pos hle]

end Sys2Proof.Machine

/-! PROOFS of the family 30_encoding.md, second part: a word decodes as an instruction exactly when it agrees with the
instruction's word on the bits that the format reads. -/

namespace Sys2Proof.Machine

/-! ### Words that agree on a set of bits -/

section Agree

variable {w w' : Word}

/-- The bits of one field of a word. -/
def fieldMask (lo len : Nat) : Word := (BitVec.allOnes len).setWidth 32 <<< lo

theorem and_eq_and_iff (m : Word) :
    w &&& m = w' &&& m ↔ ∀ k, k < 32 → m.getLsbD k = true → w.getLsbD k = w'.getLsbD k := by
  constructor
  · intro h k _ hm
    simpa [hm] using congrArg (·.getLsbD k) h
  · intro h
    apply BitVec.eq_of_getLsbD_eq
    intro k hk
    cases hm : m.getLsbD k with
    | false => simp [hm]
    | true => simp [hm, h k hk hm]

/-- Agreement on the bits of a field is equality of the field. -/
theorem and_fieldMask_iff {lo len : Nat} (hfit : lo + len ≤ 32) :
    w &&& fieldMask lo len = w' &&& fieldMask lo len ↔ w.extractLsb' lo len = w'.extractLsb' lo len := by
  have hbit (k : Nat) : (fieldMask lo len).getLsbD k = true ↔ lo ≤ k ∧ k < lo + len := by
    simp only [fieldMask, BitVec.getLsbD_shiftLeft, BitVec.getLsbD_setWidth, BitVec.getLsbD_allOnes,
      Bool.and_eq_true, Bool.not_eq_true', decide_eq_true_eq, decide_eq_false_iff_not]
    omega
  rw [and_eq_and_iff]
  constructor
  · intro h
    apply BitVec.eq_of_getLsbD_eq
    intro i hi
    simpa [hi] using h (lo + i) (by omega) ((hbit _).mpr (by omega))
  · intro h k _ hk
    obtain ⟨hlo, hhi⟩ := (hbit k).mp hk
    have hlt : k - lo < len := by omega
    simpa [hlt, Nat.add_sub_cancel' hlo] using congrArg (·.getLsbD (k - lo)) h

theorem and_or_eq_iff (m n : Word) :
    w &&& (m ||| n) = w' &&& (m ||| n) ↔ w &&& m = w' &&& m ∧ w &&& n = w' &&& n := by
  simp only [and_eq_and_iff, BitVec.getLsbD_or, Bool.or_eq_true]
  exact ⟨fun h => ⟨fun k hk hm => h k hk (.inl hm), fun k hk hn => h k hk (.inr hn)⟩,
    fun ⟨hm, hn⟩ k hk h => h.elim (hm k hk) (hn k hk)⟩

/-! The masks of the formats (R153 to R158, R171), field by field. -/

theorem agree_funct_op : w &&& 0xF000003F = w' &&& 0xF000003F ↔ fFunct w = fFunct w' ∧ fOp w = fOp w' := by
  rw [show (0xF000003F : Word) = fieldMask 28 4 ||| fieldMask 0 6 by decide, and_or_eq_iff,
    and_fieldMask_iff (by decide), and_fieldMask_iff (by decide)]
  rfl

theorem agree_mtcr : w &&& 0xF01FF83F = w' &&& 0xF01FF83F ↔
    (fFunct w = fFunct w' ∧ fOp w = fOp w') ∧ fRA w = fRA w' ∧ fRB w = fRB w' := by
  rw [show (0xF01FF83F : Word) = 0xF000003F ||| (fieldMask 11 5 ||| fieldMask 16 5) by decide, and_or_eq_iff,
    and_or_eq_iff, agree_funct_op, and_fieldMask_iff (by decide), and_fieldMask_iff (by decide)]
  rfl

theorem agree_mfcr : w &&& 0xF01F07FF = w' &&& 0xF01F07FF ↔
    (fFunct w = fFunct w' ∧ fOp w = fOp w') ∧ fRD w = fRD w' ∧ fRB w = fRB w' := by
  rw [show (0xF01F07FF : Word) = 0xF000003F ||| (fieldMask 6 5 ||| fieldMask 16 5) by decide, and_or_eq_iff,
    and_or_eq_iff, agree_funct_op, and_fieldMask_iff (by decide), and_fieldMask_iff (by decide)]
  rfl

theorem agree_ll : w &&& 0xF000FFFF = w' &&& 0xF000FFFF ↔
    (fFunct w = fFunct w' ∧ fOp w = fOp w') ∧ fRD w = fRD w' ∧ fRA w = fRA w' := by
  rw [show (0xF000FFFF : Word) = 0xF000003F ||| (fieldMask 6 5 ||| fieldMask 11 5) by decide, and_or_eq_iff,
    and_or_eq_iff, agree_funct_op, and_fieldMask_iff (by decide), and_fieldMask_iff (by decide)]
  rfl

theorem agree_formatG : w &&& 0xF01FFFFF = w' &&& 0xF01FFFFF ↔
    ((fFunct w = fFunct w' ∧ fOp w = fOp w') ∧ fRD w = fRD w' ∧ fRA w = fRA w') ∧ fRB w = fRB w' := by
  rw [show (0xF01FFFFF : Word) = 0xF000FFFF ||| fieldMask 16 5 by decide, and_or_eq_iff, agree_ll,
    and_fieldMask_iff (by decide)]
  rfl

theorem agree_all : w &&& 0xFFFFFFFF = w' &&& 0xFFFFFFFF ↔ w = w' := by
  rw [show (0xFFFFFFFF : Word) = BitVec.allOnes 32 from rfl, BitVec.and_allOnes, BitVec.and_allOnes]

end Agree

/-! ### A word is its fields (R152) -/

section Fields

variable {w w' : Word}

theorem toBits_ofBits (b : BitVec 2) : (ShiftType.ofBits b).toBits = b := by
  revert b
  decide

/-- A word of format R is known by its fields (R156). -/
theorem eq_of_fields (hgrp : w &&& 0xF01FFFFF = w' &&& 0xF01FFFFF) (hshift : fShift w = fShift w') : w = w' := by
  obtain ⟨hamount, htype⟩ := Shift.mk.inj hshift
  have hbits : fShtype w = fShtype w' := by
    rw [← toBits_ofBits (fShtype w), htype, toBits_ofBits]
  rw [← agree_all, show (0xFFFFFFFF : Word) = 0xF01FFFFF ||| (fieldMask 21 5 ||| fieldMask 26 2) by decide,
    and_or_eq_iff, and_or_eq_iff, and_fieldMask_iff (by decide), and_fieldMask_iff (by decide)]
  exact ⟨hgrp, hamount, hbits⟩

theorem packJ_fields (w : Word) : packJ (fMajor w) (fTarget29 w) = w := by
  rw [packJ, fMajor, fTarget29, BitVec.extractLsb'_append_extractLsb'_eq_extractLsb' (by decide)]
  exact extract_all w

theorem packB_fields (w : Word) : packB (fOp w) (fRD w) (fDisp21 w) = w := by
  rw [packB, fOp, fRD, fDisp21, BitVec.extractLsb'_append_extractLsb'_eq_extractLsb' (by decide),
    BitVec.extractLsb'_append_extractLsb'_eq_extractLsb' (by decide)]
  exact extract_all w

theorem packI_fields (w : Word) : packI (fOp w) (fRD w) (fRA w) (fImm16 w) = w := by
  rw [packI, fOp, fRD, fRA, fImm16, BitVec.extractLsb'_append_extractLsb'_eq_extractLsb' (by decide),
    BitVec.extractLsb'_append_extractLsb'_eq_extractLsb' (by decide),
    BitVec.extractLsb'_append_extractLsb'_eq_extractLsb' (by decide)]
  exact extract_all w

theorem packR_fields (h : fOp w = groupReg) : packR (fFunct w) (fRD w) (fRA w) (fRB w) (fShift w) = w :=
  eq_of_fields (agree_formatG.mpr (by simp [h])) (by simp)

/-- A group member's word without a shift, up to bits 27 to 21 (R157). -/
theorem packG_reg_agree (w : Word) :
    w &&& 0xF01FFFFF = packG (fOp w) (fFunct w) (fRD w) (fRA w) (.reg (fRB w)) &&& 0xF01FFFFF :=
  agree_formatG.mpr (by simp)

/-- A group member's word with a shift (R156). -/
theorem packG_shifted_fields (w : Word) :
    packG (fOp w) (fFunct w) (fRD w) (fRA w) (.shifted (fRB w) (fShift w)) = w :=
  eq_of_fields (agree_formatG.mpr (by simp)) (by simp)

end Fields

/-! ### The instruction a word holds -/

/-- The decode order of R151 as a relation: word `w` holds an instruction of format J, or that of a member whose opcode
and function code it has. -/
inductive Holds (e : Encoding) (w : Word) : Instr → Prop
  | j : fMajor w = 6 → Holds e w (.j (fTarget29 w))
  | jal : fMajor w = 7 → Holds e w (.jal (fTarget29 w))
  | major (o : MajorOp) : fOp w = e.opcode o → Holds e w (decodeMajor o w)
  | reg (o : RegOp) : fOp w = groupReg → fFunct w = e.regFunct o → Holds e w (decodeReg o w)
  | grp (o : GrpOp) : fOp w = (e.grpCode o).group.code → fFunct w = (e.grpCode o).funct →
      Holds e w (decodeGrp (e.grpCode o).group o w)
  | priv (o : PrivOp) : fOp w = groupPriv → fFunct w = e.privFunct o → Holds e w (decodePriv o w)

section Decode

variable {e : Encoding} {w w' : Word} {i : Instr}

/-- What a lookup finds has the number looked up. -/
theorem of_find_eq_some {α β : Type} [DecidableEq β] {l : List α} {g : α → β} {b : β} {a : α}
    (h : l.find? (fun o => g o == b) = some a) : g a = b := by
  simpa using List.find?_some h

/-- Branch by branch of the decoder: what it answers, the word holds. -/
theorem holds_of_decode (h : decode e w = .ok i) : Holds e w i := by
  unfold decode at h
  split at h
  · next hj => cases h; exact .j hj
  split at h
  · next hjal => cases h; exact .jal hjal
  split at h
  · next hop =>
    split at h
    · next o ho => cases h; exact .reg o hop (of_find_eq_some ho).symm
    · split at h
      · next o ho =>
        cases h
        have hcode := of_find_eq_some ho
        have hg : (e.grpCode o).group = .reg := by rw [hcode]
        exact hg ▸ .grp o (by rw [hcode]; exact hop) (by rw [hcode])
      · cases h
  split at h
  · next hop =>
    split at h
    · next o ho =>
      cases h
      have hcode := of_find_eq_some ho
      have hg : (e.grpCode o).group = .grp := by rw [hcode]
      exact hg ▸ .grp o (by rw [hcode]; exact hop) (by rw [hcode])
    · cases h
  split at h
  · next hop =>
    split at h
    · next o ho => cases h; exact .priv o hop (of_find_eq_some ho).symm
    · cases h
  · split at h
    · next o ho => cases h; exact .major o (of_find_eq_some ho).symm
    · cases h

/-- Under an allowed numbering the decoder finds what the word holds (R162). -/
theorem decode_eq_ok_iff (he : e.wf = true) : decode e w = .ok i ↔ Holds e w i := by
  refine ⟨holds_of_decode, fun h => ?_⟩
  cases h with
  | j h => exact decode_j e h
  | jal h => exact decode_jal e h
  | major o h => exact decode_majorOp he o h
  | reg o h hf => exact decode_regOp he o h hf
  | grp o h hf => exact decode_grpOp he o h hf
  | priv o h hf => exact decode_privOp he o h hf

theorem holds_packI (o : MajorOp) {rD rA : RegIdx} {imm : BitVec 16}
    (hi : decodeMajor o (packI (e.opcode o) rD rA imm) = i) : Holds e (packI (e.opcode o) rD rA imm) i :=
  hi ▸ .major o (fOp_packI ..)

theorem holds_packB (o : MajorOp) {rD : RegIdx} {disp : BitVec 21}
    (hi : decodeMajor o (packB (e.opcode o) rD disp) = i) : Holds e (packB (e.opcode o) rD disp) i :=
  hi ▸ .major o (fOp_packB ..)

theorem holds_packR (o : RegOp) {rD rA rB : RegIdx} {sh : Shift}
    (hi : decodeReg o (packR (e.regFunct o) rD rA rB sh) = i) : Holds e (packR (e.regFunct o) rD rA rB sh) i :=
  hi ▸ .reg o (fOp_packR ..) (fFunct_packR ..)

theorem holds_packG (o : GrpOp) {rD rA : RegIdx} {b : SrcB}
    (hi : decodeGrp (e.grpCode o).group o (packG (e.grpCode o).group.code (e.grpCode o).funct rD rA b) = i) :
    Holds e (packG (e.grpCode o).group.code (e.grpCode o).funct rD rA b) i :=
  hi ▸ .grp o (fOp_packG ..) (fFunct_packG ..)

theorem holds_packPriv (o : PrivOp) {rD rA : RegIdx} {b : SrcB}
    (hi : decodePriv o (packG groupPriv (e.privFunct o) rD rA b) = i) :
    Holds e (packG groupPriv (e.privFunct o) rD rA b) i :=
  hi ▸ .priv o (fOp_packG ..) (fFunct_packG ..)

/-- The word of an instruction of the encoding holds it: the decoder's reading of its fields gives the operands back. -/
theorem holds_encode (hi : i.wf e = true) : Holds e (encode e i) i := by
  cases i with
  | j t => simpa [encode] using Holds.j (e := e) (fMajor_packJ 6 t)
  | jal t => simpa [encode] using Holds.jal (e := e) (fMajor_packJ 7 t)
  | addi => exact holds_packI .addi (by simp [decodeMajor])
  | subi => exact holds_packI .subi (by simp [decodeMajor])
  | slti => exact holds_packI .slti (by simp [decodeMajor])
  | sltis => exact holds_packI .sltis (by simp [decodeMajor])
  | andi => exact holds_packI .andi (by simp [decodeMajor])
  | ori => exact holds_packI .ori (by simp [decodeMajor])
  | xori => exact holds_packI .xori (by simp [decodeMajor])
  | lui => exact holds_packI .lui (by simp [decodeMajor])
  | jalr => exact holds_packI .jalr (by simp [decodeMajor])
  | ldb => exact holds_packI .ldb (by simp [decodeMajor])
  | ldi => exact holds_packI .ldi (by simp [decodeMajor])
  | ldl => exact holds_packI .ldl (by simp [decodeMajor])
  | stb => exact holds_packI .stb (by simp [decodeMajor])
  | sti => exact holds_packI .sti (by simp [decodeMajor])
  | stl => exact holds_packI .stl (by simp [decodeMajor])
  | beq => exact holds_packB .beq (by simp [decodeMajor])
  | bne => exact holds_packB .bne (by simp [decodeMajor])
  | blt => exact holds_packB .blt (by simp [decodeMajor])
  | add => exact holds_packR .add (by simp [decodeReg])
  | sub => exact holds_packR .sub (by simp [decodeReg])
  | slt => exact holds_packR .slt (by simp [decodeReg])
  | slts => exact holds_packR .slts (by simp [decodeReg])
  | and => exact holds_packR .and (by simp [decodeReg])
  | or => exact holds_packR .or (by simp [decodeReg])
  | xor => exact holds_packR .xor (by simp [decodeReg])
  | nor => exact holds_packR .nor (by simp [decodeReg])
  | ldbx => exact holds_packR .ldbx (by simp [decodeReg])
  | ldix => exact holds_packR .ldix (by simp [decodeReg])
  | ldlx => exact holds_packR .ldlx (by simp [decodeReg])
  | stbx => exact holds_packR .stbx (by simp [decodeReg])
  | stix => exact holds_packR .stix (by simp [decodeReg])
  | stlx => exact holds_packR .stlx (by simp [decodeReg])
  | mul => exact holds_packG .mul (by simp [decodeGrp, srcB_packG (o := .mul) _ _ _ _ _ hi])
  | div => exact holds_packG .div (by simp [decodeGrp, srcB_packG (o := .div) _ _ _ _ _ hi])
  | divs => exact holds_packG .divs (by simp [decodeGrp, srcB_packG (o := .divs) _ _ _ _ _ hi])
  | mod => exact holds_packG .mod (by simp [decodeGrp, srcB_packG (o := .mod) _ _ _ _ _ hi])
  | sc => exact holds_packG .sc (by simp [decodeGrp, srcB_packG (o := .sc) _ _ _ _ _ hi])
  | ll => exact holds_packG .ll (by simp [decodeGrp])
  | sys => exact holds_packG .sys (by simp [decodeGrp])
  | brk => exact holds_packG .brk (by simp [decodeGrp])
  | fwc => exact holds_packPriv .fwc (by simp [decodePriv])
  | rfe => exact holds_packPriv .rfe (by simp [decodePriv])
  | hlt => exact holds_packPriv .hlt (by simp [decodePriv])
  | ftlb => exact holds_packPriv .ftlb (by simp [decodePriv])
  | mtcr => exact holds_packPriv .mtcr (by simp [decodePriv])
  | mfcr => exact holds_packPriv .mfcr (by simp [decodePriv])

/-- The decoder gives instructions of the encoding only. -/
theorem Holds.wf (h : Holds e w i) : i.wf e = true := by
  cases h with
  | j | jal => rfl
  | major o => cases o <;> rfl
  | reg o => cases o <;> rfl
  | grp o => exact decodeGrp_wf e o w
  | priv o => cases o <;> rfl

theorem decode_encode (he : e.wf = true) (hi : i.wf e = true) : decode e (encode e i) = .ok i :=
  (decode_eq_ok_iff he).mpr (holds_encode hi)

/-- The four bytes of a word, the lowest first, are the word again (R85). -/
theorem wordOfBytes_bytes (w : Word) :
    wordOfBytes (BitVec.ofNat 8 w.toNat) (BitVec.ofNat 8 (w.toNat / 2 ^ 8)) (BitVec.ofNat 8 (w.toNat / 2 ^ 16))
      (BitVec.ofNat 8 (w.toNat / 2 ^ 24)) = w := by
  have hbyte (k : Nat) : BitVec.ofNat 8 (w.toNat / 2 ^ k) = w.extractLsb' k 8 := by
    rw [← Nat.shiftRight_eq_div_pow]
    rfl
  have h0 : BitVec.ofNat 8 w.toNat = w.extractLsb' 0 8 := by simpa using hbyte 0
  rw [wordOfBytes, h0, hbyte, hbyte, hbyte, BitVec.extractLsb'_append_extractLsb'_eq_extractLsb' (by decide),
    BitVec.extractLsb'_append_extractLsb'_eq_extractLsb' (by decide),
    BitVec.extractLsb'_append_extractLsb'_eq_extractLsb' (by decide)]
  exact extract_all w

theorem decodeBytes_of_decode {b0 b1 b2 b3 : Byte} (h : decode e (wordOfBytes b0 b1 b2 b3) = .ok i)
    (rest : List Byte) : decodeBytes e (b0 :: b1 :: b2 :: b3 :: rest) = .ok (i, rest) := by
  simp only [decodeBytes, h]

end Decode

/-! ### Agreement on the bits that the format reads -/

section ReadBits

variable {e : Encoding} {w w' : Word} {i : Instr}

/-- The bits read of a group member's word that names an operand rB (R156, R157). -/
def srcBits : SrcB → Word
  | .reg _ => 0xF01FFFFF
  | .shifted _ _ => 0xFFFFFFFF

/-- The word of a member of group 0x31 or 0x39, in either placement, up to the bits that the placement ignores. -/
theorem packG_srcB_agree (g : ExtGroup) (w : Word) :
    w &&& srcBits (g.srcB w) =
      packG (fOp w) (fFunct w) (fRD w) (fRA w) (g.srcB w) &&& srcBits (g.srcB w) := by
  cases g with
  | reg => exact agree_all.mpr (packG_shifted_fields w).symm
  | grp => exact packG_reg_agree w

/-- In either placement those bits are the function code, the opcode and the operands. -/
theorem fields_of_srcBits_agree (g : ExtGroup) (h : w &&& srcBits (g.srcB w') = w' &&& srcBits (g.srcB w')) :
    fFunct w = fFunct w' ∧ fOp w = fOp w' ∧ fRD w = fRD w' ∧ fRA w = fRA w' ∧ g.srcB w = g.srcB w' := by
  cases g with
  | reg => cases agree_all.mp h; simp
  | grp =>
    obtain ⟨⟨⟨hf, hop⟩, hD, hA⟩, hB⟩ := agree_formatG.mp h
    exact ⟨hf, hop, hD, hA, congrArg SrcB.reg hB⟩

/-- The readBits of the five instructions with an operand rB are those of the operand. -/
theorem readBits_srcB (rD rA : RegIdx) (b : SrcB) :
    readBits (.mul rD rA b) = srcBits b ∧ readBits (.div rD rA b) = srcBits b ∧
      readBits (.divs rD rA b) = srcBits b ∧ readBits (.mod rD rA b) = srcBits b ∧
      readBits (.sc rD rA b) = srcBits b := by
  cases b <;> exact ⟨rfl, rfl, rfl, rfl, rfl⟩

theorem readBits_decodeMajor (o : MajorOp) (w : Word) : readBits (decodeMajor o w) = 0xFFFFFFFF := by
  cases o <;> rfl

theorem readBits_decodeReg (o : RegOp) (w : Word) : readBits (decodeReg o w) = 0xFFFFFFFF := by
  cases o <;> rfl

/-- Formats B and I keep every bit (R154, R155). -/
theorem encode_decodeMajor {o : MajorOp} (h : fOp w = e.opcode o) : encode e (decodeMajor o w) = w := by
  cases o
  case beq | bne | blt => exact (congrArg (packB · _ _) h.symm).trans (packB_fields w)
  all_goals exact (congrArg (packI · _ _ _) h.symm).trans (packI_fields w)

/-- Format R keeps every bit (R156). -/
theorem encode_decodeReg {o : RegOp} (hop : fOp w = groupReg) (hf : fFunct w = e.regFunct o) :
    encode e (decodeReg o w) = w := by
  cases o <;> exact (congrArg (packR · _ _ _ _) hf.symm).trans (packR_fields hop)

theorem encode_decodeGrp_agree {o : GrpOp} (hop : fOp w = (e.grpCode o).group.code)
    (hf : fFunct w = (e.grpCode o).funct) :
    w &&& readBits (decodeGrp (e.grpCode o).group o w) =
      encode e (decodeGrp (e.grpCode o).group o w) &&& readBits (decodeGrp (e.grpCode o).group o w) := by
  have hsrc := packG_srcB_agree (e.grpCode o).group w
  rw [hop, hf] at hsrc
  cases o
  case ll => exact agree_ll.mpr (by simp [encode, decodeGrp, hop, hf, Encoding.grpCode])
  case sys | brk => exact agree_funct_op.mpr (by simp [encode, decodeGrp, hop, hf, Encoding.grpCode])
  all_goals
    simp only [decodeGrp, readBits_srcB]
    exact hsrc

theorem encode_decodePriv_agree {o : PrivOp} (hop : fOp w = groupPriv) (hf : fFunct w = e.privFunct o) :
    w &&& readBits (decodePriv o w) = encode e (decodePriv o w) &&& readBits (decodePriv o w) := by
  cases o
  case mtcr => exact agree_mtcr.mpr (by simp [encode, decodePriv, hop, hf, Encoding.privFunct])
  case mfcr => exact agree_mfcr.mpr (by simp [encode, decodePriv, hop, hf, Encoding.privFunct])
  all_goals exact agree_funct_op.mpr (by simp [encode, decodePriv, hop, hf, Encoding.privFunct])

/-- A word that holds an instruction agrees with the instruction's word on the bits that its format reads. -/
theorem Holds.agree (h : Holds e w i) : w &&& readBits i = encode e i &&& readBits i := by
  cases h with
  | j h => exact agree_all.mpr ((congrArg (packJ · _) h.symm).trans (packJ_fields w)).symm
  | jal h => exact agree_all.mpr ((congrArg (packJ · _) h.symm).trans (packJ_fields w)).symm
  | major o hop => rw [readBits_decodeMajor, encode_decodeMajor hop]
  | reg o hop hf => rw [readBits_decodeReg, encode_decodeReg hop hf]
  | grp o hop hf => exact encode_decodeGrp_agree hop hf
  | priv o hop hf => exact encode_decodePriv_agree hop hf

theorem decodeGrp_congr {g : ExtGroup} {o : GrpOp}
    (h : w &&& readBits (decodeGrp g o w') = w' &&& readBits (decodeGrp g o w')) :
    fFunct w = fFunct w' ∧ fOp w = fOp w' ∧ decodeGrp g o w = decodeGrp g o w' := by
  cases o
  case ll =>
    obtain ⟨⟨hf, hop⟩, hD, hA⟩ := agree_ll.mp h
    exact ⟨hf, hop, congrArg₂ Instr.ll hD hA⟩
  case sys | brk =>
    obtain ⟨hf, hop⟩ := agree_funct_op.mp h
    exact ⟨hf, hop, rfl⟩
  all_goals
    simp only [decodeGrp, readBits_srcB] at h ⊢
    obtain ⟨hf, hop, hD, hA, hB⟩ := fields_of_srcBits_agree g h
    exact ⟨hf, hop, by rw [hD, hA, hB]⟩

theorem decodePriv_congr {o : PrivOp}
    (h : w &&& readBits (decodePriv o w') = w' &&& readBits (decodePriv o w')) :
    fFunct w = fFunct w' ∧ fOp w = fOp w' ∧ decodePriv o w = decodePriv o w' := by
  cases o
  case mtcr =>
    obtain ⟨⟨hf, hop⟩, hA, hB⟩ := agree_mtcr.mp h
    exact ⟨hf, hop, congrArg₂ Instr.mtcr hB hA⟩
  case mfcr =>
    obtain ⟨⟨hf, hop⟩, hD, hB⟩ := agree_mfcr.mp h
    exact ⟨hf, hop, congrArg₂ Instr.mfcr hD hB⟩
  all_goals
    obtain ⟨hf, hop⟩ := agree_funct_op.mp h
    exact ⟨hf, hop, rfl⟩

/-- A word that agrees with one that holds an instruction, on the bits that its format reads, holds it too. -/
theorem Holds.congr (h : Holds e w' i) (ha : w &&& readBits i = w' &&& readBits i) : Holds e w i := by
  cases h with
  | j h => cases agree_all.mp ha; exact .j h
  | jal h => cases agree_all.mp ha; exact .jal h
  | major o hop =>
    rw [readBits_decodeMajor] at ha
    cases agree_all.mp ha
    exact .major o hop
  | reg o hop hf =>
    rw [readBits_decodeReg] at ha
    cases agree_all.mp ha
    exact .reg o hop hf
  | grp o hop hf =>
    obtain ⟨hf', hop', hi⟩ := decodeGrp_congr ha
    exact hi ▸ .grp o (hop'.trans hop) (hf'.trans hf)
  | priv o hop hf =>
    obtain ⟨hf', hop', hi⟩ := decodePriv_congr ha
    exact hi ▸ .priv o (hop'.trans hop) (hf'.trans hf)

theorem holds_iff_agree : Holds e w i ↔ i.wf e = true ∧ w &&& readBits i = encode e i &&& readBits i :=
  ⟨fun h => ⟨h.wf, h.agree⟩, fun ⟨hi, ha⟩ => (holds_encode hi).congr ha⟩

end ReadBits

/-! ### The placement of the eight instructions of R162 (e) -/

section Placement

variable {e : Encoding} {c : GrpCode}

/-- Only the five instructions with an operand of either form may have one that does not fit. -/
theorem exists_srcB_of_not_wf {i : Instr} (h : i.wf e = false) : ∃ rD rA b, i = .mul rD rA b ∨ i = .div rD rA b ∨
    i = .divs rD rA b ∨ i = .mod rD rA b ∨ i = .sc rD rA b := by
  cases i with
  | mul rD rA b => exact ⟨rD, rA, b, .inl rfl⟩
  | div rD rA b => exact ⟨rD, rA, b, .inr (.inl rfl)⟩
  | divs rD rA b => exact ⟨rD, rA, b, .inr (.inr (.inl rfl))⟩
  | mod rD rA b => exact ⟨rD, rA, b, .inr (.inr (.inr (.inl rfl)))⟩
  | sc rD rA b => exact ⟨rD, rA, b, .inr (.inr (.inr (.inr rfl)))⟩
  | _ => cases h

theorem groupCode_eq (g : ExtGroup) : g.code = if g = .grp then 0b110001 else 0b111001 := by
  cases g <;> rfl

/-- The word of a group member with its group written as a number (R156, R157, R161). -/
theorem packG_code (c : GrpCode) (rD rA : RegIdx) (b : SrcB) : packG c.group.code c.funct rD rA b =
    c.funct ++ b.shiftBits ++ b.idx ++ rA ++ rD ++ (if c.group = .grp then 0b110001 else 0b111001 : BitVec 6) := by
  rw [← groupCode_eq]
  rfl

/-- What the statement says of each of the five: which operand fits, and the word of either. The premises say that the
instruction's check is that of its operand and its word that of its group, by the definitions. -/
theorem placement_srcB {o : GrpOp} {i : SrcB → Instr} {rD rA : RegIdx} (hc : e.grpCode o = c)
    (hwf : ∀ b, (i b).wf e = e.srcOk o b)
    (hword : ∀ b, encode e (i b) = packG (e.grpCode o).group.code (e.grpCode o).funct rD rA b)
    (rB : RegIdx) (sh : Shift) :
    (i (.reg rB)).wf e = decide (c.group = .grp) ∧ (i (.shifted rB sh)).wf e = (!decide (c.group = .grp)) ∧
      encode e (i (.reg rB)) = c.funct ++ (0 : BitVec 7) ++ rB ++ rA ++ rD ++
        (if c.group = .grp then 0b110001 else 0b111001 : BitVec 6) ∧
      encode e (i (.shifted rB sh)) = c.funct ++ (sh.type.toBits ++ sh.amount) ++ rB ++ rA ++ rD ++
        (if c.group = .grp then 0b110001 else 0b111001 : BitVec 6) := by
  simp only [hwf, hword, hc, packG_code, Encoding.srcOk]
  cases c.group <;> exact ⟨rfl, rfl, rfl, rfl⟩

end Placement

/-- Settles O1: the encoded word holds its instruction, and its four bytes make it up again. -/
theorem decodeInvertsEncode : Obligations.DecodeInvertsEncode := by
  intro e he i hi
  refine ⟨decode_encode he hi, decodeBytes_of_decode ?_⟩
  rw [wordOfBytes_bytes]
  exact decode_encode he hi

/-- Settles O2: what the decoder answers, the word holds (`Holds`), and it holds what it agrees with; then the words and
the operands of either placement, instruction by instruction. -/
theorem decodeReadsExactlyTheFormat : Obligations.DecodeReadsExactlyTheFormat := by
  intro e he
  refine ⟨fun w i => (decode_eq_ok_iff he).trans holds_iff_agree, fun i => exists_srcB_of_not_wf,
    fun rD rA rB sh c => ?_⟩
  exact ⟨fun h => placement_srcB (o := .mul) h (fun _ => rfl) (fun _ => rfl) rB sh,
    fun h => placement_srcB (o := .div) h (fun _ => rfl) (fun _ => rfl) rB sh,
    fun h => placement_srcB (o := .divs) h (fun _ => rfl) (fun _ => rfl) rB sh,
    fun h => placement_srcB (o := .mod) h (fun _ => rfl) (fun _ => rfl) rB sh,
    fun h => placement_srcB (o := .sc) h (fun _ => rfl) (fun _ => rfl) rB sh,
    fun h => h ▸ packG_code e.ll rD rA (.reg 0), fun h => h ▸ packG_code e.sys 0 0 (.reg 0),
    fun h => h ▸ packG_code e.brk 0 0 (.reg 0)⟩

/-- Settles O3: ten closed evaluations of the decoder. -/
theorem sampleWordsDecode : Obligations.SampleWordsDecode := by
  unfold Obligations.SampleWordsDecode
  decide

end Sys2Proof.Machine

/-! PROOFS of the families 30_encoding.md, 40_alu.md and 41_loadstore.md, second part: the immediates, NOR, MUL and the
shifted forms of group 0x39, the indexed loads, and the accesses that complete in RAM. -/

namespace Sys2Proof.Machine

/-- Settles O5: each form has its lemma. -/
theorem immediateValues : Obligations.ImmediateValues := by
  intro imm disp target pc0
  refine ⟨toNat_jumpTarget pc0 target, toInt_branchOffset disp, toNat_zext16 imm, toInt_sext16 imm, ?_,
    toInt_jalrOffset imm, ?_, toNat_memOffset .int imm, toNat_memOffset .long imm⟩
  · rw [toNat_upperImm, Nat.mul_comm]
  · rw [toNat_memOffset, Width.bytes, Nat.one_mul]

/-! ### NOR and MUL (R217, R218) -/

theorem nor_eq_ofNat (a b : Word) : ~~~(a ||| b) = BitVec.ofNat 32 (2 ^ 32 - 1 - (a.toNat ||| b.toNat)) :=
  eq_ofNat_of_toNat_eq (by rw [BitVec.toNat_not, BitVec.toNat_or])

/-- MUL, whatever its second operand is. -/
theorem exec_mul_wrote (s : State) (rD rA : RegIdx) (b : SrcB) : ∃ t, exec (.mul rD rA b) s = .next t ∧
    WroteReg s t rD (BitVec.ofNat 32 ((s.reg rA).toNat * (s.opG b).toNat)) (s.cpu.pc + 4) :=
  exec_wrote_of_finish rfl (BitVec.mul_def ..)

/-- Settles O10: NOR by its complement; the others are the meanings of format G on the shifter's output. -/
theorem notOrMultiplyAndShiftedForms : Obligations.NotOrMultiplyAndShiftedForms := by
  intro s rD rA rB sh
  exact ⟨exec_wrote_of_finish rfl (nor_eq_ofNat ..), exec_mul_wrote s rD rA (.reg rB),
    exec_mul_wrote s rD rA (.shifted rB sh), exec_div_wrote s rD rA (.shifted rB sh),
    exec_mod_wrote s rD rA (.shifted rB sh), exec_divs_wrote s rD rA (.shifted rB sh),
    exec_sc_storesWhileLocked s rD rA (.shifted rB sh),
    fun _ k => ⟨rfl, fun h => packG_grp_and_mask h k rD rA rB⟩⟩

/-! ### Loads and stores (R250 to R263) -/

/-- Settles O13: each meaning is `loadTo` at the indexed address. -/
theorem indexedLoads : Obligations.IndexedLoads := by
  intro s rD rA rB sh
  rw [← eaIdx_eq]
  exact ⟨loads_of_loadTo rfl, loads_of_loadTo rfl, loads_of_loadTo rfl, fun _ => ⟨rfl, rfl, rfl⟩⟩

/-- A read of plain RAM answers, so a load from there completes. The premise is the instruction's arm of the
dispatch. -/
theorem loadsFromRam_of_loadTo {i : Instr} {s : State} {rD : RegIdx} {ea : Word} {n : Width}
    (hexec : exec i s = s.loadTo rD ea n) : LoadsFromRam i s rD ea n := by
  intro hram
  rw [hexec]
  exact loadTo_wrote hram.memRead

/-- Settles O14: each meaning is `loadTo` at the address whose number is stated. -/
theorem loadsCompleteFromRam : Obligations.LoadsCompleteFromRam := by
  intro s rD rA rB imm sh
  rw [← eaImm_byte, ← eaImm_int, ← eaImm_long, ← eaIdx_eq]
  exact ⟨loadsFromRam_of_loadTo rfl, loadsFromRam_of_loadTo rfl, loadsFromRam_of_loadTo rfl,
    loadsFromRam_of_loadTo rfl, loadsFromRam_of_loadTo rfl, loadsFromRam_of_loadTo rfl⟩

/-- Settles O17: each meaning is `storeAt`, which completes in plain RAM. -/
theorem storesCompleteInRam : Obligations.StoresCompleteInRam := by
  intro s rD rA rB imm sh
  rw [← storeBase_eq, ← storeData_eq]
  exact ⟨(executesStore_of_storeAt rfl).storesInRam, (executesStore_of_storeAt rfl).storesInRam,
    (executesStore_of_storeAt rfl).storesInRam, (executesStore_of_storeAt rfl).storesInRam,
    (executesStore_of_storeAt rfl).storesInRam, (executesStore_of_storeAt rfl).storesInRam⟩

end Sys2Proof.Machine

/-! PROOFS of the families 43_system.md and 60_exceptions.md, second part: the call traps and the privileged group, raising
and delivering, and what each instruction does to the latches and to R0. -/

namespace Sys2Proof.Machine

/-! ### The call traps (R301 to R304) -/

section CallTraps

variable {s : State} {x : Exc}

theorem epcOf_callTrap (h : x.callTrap = true) :
    s.epcOf x = if s.config.epcCallTrap = .next then s.cpu.pc + 4 else s.cpu.pc := by
  simp [epcOf_eq, h]

/-- A call trap is recoverable: it is latched whatever is pending (R430). -/
theorem raise_callTrap (h : x.callTrap = true) : Trapped s (s.raise ⟨x, none⟩) x none
    (if s.config.epcCallTrap = .next then s.cpu.pc + 4 else s.cpu.pc) := by
  have hrec : x.recoverable = true := by
    rcases (Exc.callTrap_iff x).mp h with rfl | rfl | rfl <;> rfl
  exact epcOf_callTrap h ▸ raise_recoverable ⟨x, none⟩ hrec

theorem exec_fwc_kernel (hk : (s.cr crRS).getLsbD 0 = false) : ∃ t, exec .fwc s = .next t ∧ Trapped s t .fwcall none
    (if s.config.epcCallTrap = .next then s.cpu.pc + 4 else s.cpu.pc) :=
  ⟨_, exec_privileged_kernel rfl hk, raise_callTrap rfl⟩

/-- A word with its function code and opcode given, whatever is between. -/
theorem and_functOpMask_of_row {w : Word} {f : BitVec 4} {op : BitVec 6}
    (h : w &&& (0xF000003F : Word) = f.setWidth 32 <<< 28 ||| op.setWidth 32) (k : BitVec 22) :
    w &&& 0xF000003F = (f ++ k ++ op) &&& 0xF000003F :=
  h.trans (append_and_functOpMask f k op).symm

/-- In group 0x31 the word's group is 0x31. -/
theorem and_functOpMask_of_grp {w : Word} {c : GrpCode}
    (h : w &&& (0xF000003F : Word) = c.funct.setWidth 32 <<< 28 ||| c.group.code.setWidth 32) (hg : c.group = .grp)
    (k : BitVec 22) : w &&& 0xF000003F = (c.funct ++ k ++ (0b110001 : BitVec 6)) &&& 0xF000003F :=
  and_functOpMask_of_row (op := groupGrp) (by rw [h, hg]; rfl) k

end CallTraps

/-- Settles O32: `raise_callTrap` for the three traps, INVPRVG for FWC in user mode, and the words. -/
theorem callTraps : Obligations.CallTraps := by
  intro s
  exact ⟨⟨_, rfl, raise_callTrap rfl⟩, ⟨_, rfl, raise_callTrap rfl⟩, exec_fwc_kernel, exec_privileged_trapped rfl,
    fun e k => ⟨fun hg => and_functOpMask_of_grp (Laws.RowMatch.sys e) hg k,
      fun hg => and_functOpMask_of_grp (Laws.RowMatch.brk e) hg k,
      and_functOpMask_of_row (Laws.RowMatch.fwc e) k⟩⟩

/-! ### The privileged group (R300, R306 to R308) -/

section Privileged

variable {s : State}

/-- The meanings of the privileged group begin with the privilege check, and no other does. -/
theorem exec_eq_privileged {i : Instr} (h : privileged i = true) (s : State) :
    ∃ next, exec i s = s.privileged next := by
  cases i with
  | fwc | rfe | hlt | ftlb | mtcr | mfcr => exact ⟨_, rfl⟩
  | _ => cases h

theorem exec_hlt_kernel (hk : (s.cr crRS).getLsbD 0 = false) : ∃ t, exec .hlt s = .next t ∧
    CpuAfter s t s.reg (s.cpu.pc + 4) s.cr s.cpu.excPending s.cpu.locked true ∧
    BytesKept s.plat t.plat ∧ DevicesKept s.plat t.plat :=
  ⟨_, exec_privileged_kernel rfl hk, by constructor <;> simp, .of_plat (by simp), .of_plat (by simp)⟩

theorem exec_ftlb_kernel (hk : (s.cr crRS).getLsbD 0 = false) :
    ∃ t, exec .ftlb s = .next t ∧ WentTo s t (s.cpu.pc + 4) :=
  ⟨_, exec_privileged_kernel rfl hk, advance_went s⟩

theorem exec_mtcr_kernel (hk : (s.cr crRS).getLsbD 0 = false) (c : CrIdx) (rA : RegIdx) :
    ∃ t, exec (.mtcr c rA) s = .next t ∧
      CpuAfter s t s.reg (s.cpu.pc + 4) (s.crsWith c (s.reg rA)) s.cpu.excPending s.cpu.locked s.cpu.halted ∧
      BytesKept s.plat t.plat ∧ DevicesKept s.plat t.plat :=
  ⟨_, exec_privileged_kernel rfl hk, by constructor <;> simp [State.setCr_cr, State.crsWith], .of_plat (by simp),
    .of_plat (by simp)⟩

/-- Bits 27 to 21 and the rD field are out of the mask of MTCR's format. -/
theorem packMtcr_middle_ignored (f : BitVec 4) (mid mid' : BitVec 7) (c : CrIdx) (rA rD rD' : RegIdx)
    (op : BitVec 6) :
    (f ++ mid ++ c ++ rA ++ rD ++ op : Word) &&& 0xF01FF83F = (f ++ mid' ++ c ++ rA ++ rD' ++ op) &&& 0xF01FF83F := by
  have hmask : (0xF01FF83F : Word) = BitVec.allOnes 4 ++ 0#7 ++ BitVec.allOnes 5 ++ BitVec.allOnes 5 ++ 0#5 ++
      BitVec.allOnes 6 := by decide
  simp only [hmask, BitVec.and_append, BitVec.and_zero]

end Privileged

/-- Settles O34: each effect in kernel mode, INVPRVG in user mode, and the words. -/
theorem haltFlushAndMoveToControl : Obligations.HaltFlushAndMoveToControl := by
  intro s c rA
  exact ⟨fun hk => ⟨exec_hlt_kernel hk, exec_ftlb_kernel hk, exec_mtcr_kernel hk c rA⟩,
    fun hu hp => ⟨exec_privileged_trapped rfl hu hp, exec_privileged_trapped rfl hu hp,
      exec_privileged_trapped rfl hu hp⟩,
    fun e k k7 k5 => ⟨and_functOpMask_of_row (Laws.RowMatch.hlt e) k, and_functOpMask_of_row (Laws.RowMatch.ftlb e) k,
      packMtcr_middle_ignored e.mtcr 0 k7 c rA 0 k5 _⟩⟩

/-- Settles O36: whatever the effect behind the check is, user mode raises INVPRVG. -/
theorem privilegedInUserMode : Obligations.PrivilegedInUserMode := by
  intro s i hi hu hp
  obtain ⟨next, hexec⟩ := exec_eq_privileged hi s
  exact exec_privileged_trapped hexec hu hp

/-! ### Raising (R430, R431) -/

theorem Exc.recoverable_iff (x : Exc) :
    x.recoverable = true ↔ x = .interrupt ∨ x = .syscall ∨ x = .fwcall ∨ x = .brkpoint := by
  cases x <;> decide

/-- Settles O37: the fatal raise is `raise_nested`; any other is latched, with the pc of `epcOf`. -/
theorem raiseLatches : Obligations.RaiseLatches := by
  intro s x
  simp only [← Exc.callTrap_iff, ← epcOf_eq]
  refine ⟨fun hp hi hs hf hb => ?_, fun h => ?_⟩
  · have hrec : x.exc.recoverable = false := by
      rw [← Bool.not_eq_true, Exc.recoverable_iff]
      tauto
    exact raise_nested x (Option.isSome_iff_ne_none.mpr hp) hrec
  · rcases h with hp | hrec
    · exact raise_trapped x hp
    · exact raise_recoverable x ((Exc.recoverable_iff _).mpr hrec)

/-! ### Delivery through a vector (R441) -/

section Delivery

/-- Clearing the low bits rounds down. -/
theorem and_allOnes_shiftLeft_eq (x : Word) (n : Nat) :
    x &&& (BitVec.allOnes 32 <<< n) = BitVec.ofNat 32 (x.toNat / 2 ^ n * 2 ^ n) := by
  apply BitVec.eq_of_toNat_eq
  rw [← BitVec.shiftLeft_ushiftRight, BitVec.toNat_shiftLeft, BitVec.toNat_ushiftRight, Nat.shiftLeft_eq,
    Nat.shiftRight_eq_div_pow, BitVec.toNat_ofNat]

theorem getLsbD_iff_div_mod (x : Word) (k : Nat) : x.getLsbD k = true ↔ x.toNat / 2 ^ k % 2 = 1 := by
  rw [BitVec.getLsbD, Nat.testBit_eq_decide_div_mod_eq, decide_eq_true_iff]

/-- RS after delivery as a number: the low two bits cleared, or the low three (R441). -/
theorem deliveredRS_eq (s : State) : s.deliveredRS =
    BitVec.ofNat 32 (if s.cpu.excPending = some .fwcall ∨ (s.cr crRS).toNat / 2 ^ 7 % 2 = 1
      then (s.cr crRS).toNat / 8 * 8 else (s.cr crRS).toNat / 4 * 4) := by
  have h7 : ~~~(7 : Word) = BitVec.allOnes 32 <<< 3 := by decide
  have h3 : ~~~(3 : Word) = BitVec.allOnes 32 <<< 2 := by decide
  simp only [State.deliveredRS, getLsbD_iff_div_mod, h7, h3, and_allOnes_shiftLeft_eq]
  exact (apply_ite (BitVec.ofNat 32) ..).symm

/-- The code saved is the pending exception's, or INTERRUPT's (R400, R441). -/
theorem cause_code_eq (s : State) : s.cause.code = match s.cpu.excPending with
    | none => 1 | some .interrupt => 1 | some .syscall => 2 | some .fwcall => 3 | some .buserror => 4
    | some .brkpoint => 6 | some .invinst => 7 | some .invprvg => 8 | some .unaligned => 9
    | some .pagefault => 12 | some .pagewrite => 13 := by
  unfold State.cause
  cases s.cpu.excPending with
  | none => rfl
  | some x => cases x <;> rfl

end Delivery

/-- Settles O39: `takeException_after`, with the cause and RS as numbers. -/
theorem deliverySavesAndEnters : Obligations.DeliverySavesAndEnters := by
  intro s hd vector cause rs rs' hv
  obtain ⟨hcpu, hplat⟩ := takeException_after (s := s) hv
  rw [deliver_of_deliverable hd]
  rw [cause_code_eq, deliveredRS_eq] at hcpu
  exact ⟨hcpu, .of_plat hplat, .of_plat hplat⟩

/-! ### The latches and R0 (R32, R38, R39, R266) -/

section Latches

variable {i : Instr} {s t : State}

/-- Of the shapes of `Effect` only those of LL and RFE change the LL/SC flag. -/
theorem Effect.locked (h : Effect i s t) : t.cpu.locked = s.cpu.locked ∨
    (∃ rD rA, i = .ll rD rA ∧ t.cpu.locked = true) ∨ (i = .rfe ∧ s.user = false ∧ t.cpu.locked = false) := by
  cases h with
  | linkedLoad rD rA v hi => exact .inr (.inl ⟨rD, rA, hi, by simp⟩)
  | linkedRaise rD rA x hi =>
    obtain ⟨_, _, _, _, hlocked, _⟩ := raise_keeps (s.setLocked true) x
    exact .inr (.inl ⟨rD, rA, hi, hlocked⟩)
  | returned hi hu => exact .inr (.inr ⟨hi, hu, (returnFromException_after s).1.locked⟩)
  | raised x =>
    obtain ⟨_, _, _, _, hlocked, _⟩ := raise_keeps s x
    exact .inl hlocked
  | _ => simp

/-- Only that of HLT changes the halt latch. -/
theorem Effect.halted_cases (h : Effect i s t) :
    t.cpu.halted = s.cpu.halted ∨ (i = .hlt ∧ s.user = false ∧ t.cpu.halted = true) := by
  cases h with
  | halted hi hu => exact .inr ⟨hi, hu, by simp⟩
  | returned => exact .inl (returnFromException_after s).1.halted
  | raised x =>
    obtain ⟨_, _, _, _, _, hhalted⟩ := raise_keeps s x
    exact .inl hhalted
  | linkedRaise _ _ x =>
    obtain ⟨_, _, _, _, _, hhalted⟩ := raise_keeps (s.setLocked true) x
    exact .inl hhalted
  | _ => simp

theorem setReg_reg_zero (s : State) (rD : RegIdx) (v : Word) : (s.setReg rD v).reg 0#5 = s.reg 0#5 := by
  rw [State.setReg_reg, if_neg (fun h => h.2 h.1.symm)]

/-- Only that of MFCR, into R0 and where that is visible, changes what R0 reads. -/
theorem Effect.reg_zero (h : Effect i s t) : t.reg 0 = s.reg 0 ∨
    (s.config.mfcrR0Visible = true ∧ s.user = false ∧ ∃ c, i = .mfcr 0 c ∧ t.reg 0 = s.cr c) := by
  cases h with
  | fromControl rD c hi hu =>
    by_cases hw : rD = 0 ∧ s.config.mfcrR0Visible = true
    · obtain ⟨rfl, hvis⟩ := hw
      exact .inr ⟨hvis, hu, c, hi, by simp [State.setRegMfcr_reg, hvis]⟩
    · left
      have hkeep : ¬ ((0 : RegIdx) = rD ∧ (rD ≠ 0 ∨ s.config.mfcrR0Visible = true)) := by
        rintro ⟨rfl, hne | hvis⟩
        · exact hne rfl
        · exact hw ⟨rfl, hvis⟩
      rw [State.advance_reg, State.setRegMfcr_reg, if_neg hkeep]
  | raised x =>
    obtain ⟨_, _, _, hregs, _⟩ := raise_keeps s x
    exact .inl (hregs 0)
  | linkedRaise _ _ x =>
    obtain ⟨_, _, _, hregs, _⟩ := raise_keeps (s.setLocked true) x
    exact .inl (hregs 0)
  | returned => exact .inl ((returnFromException_after s).1.regs 0)
  | _ => simp [setReg_reg_zero]

end Latches

/-- Settles O20: the shapes of `Effect` that change a latch. -/
theorem latchesChangeOnlyByTheirInstructions : Obligations.LatchesChangeOnlyByTheirInstructions := by
  intro i s t hexec
  have heffect := effect_of_exec hexec
  exact ⟨heffect.locked.resolve_left, heffect.halted_cases.resolve_left⟩

/-- Settles O43: the one shape of `Effect` that changes the R0 cell. -/
theorem onlyMfcrChangesRegisterZero : Obligations.OnlyMfcrChangesRegisterZero := by
  intro i s t hexec
  exact (effect_of_exec hexec).reg_zero.resolve_left

end Sys2Proof.Machine

/-! PROOFS of the family 60_exceptions.md, third part: what a step can do, said once, and from it the step, the fatal state,
the halted CPU, user mode, the configuration and the invariants. -/

namespace Sys2Proof.Machine

/-! ### The host's calls (R490) -/

section HostCalls

variable {s : State}

/-- What one call of the host leaves, all the calls before a step leave. -/
theorem hostCalls_keeps {α : Type} {f : Platform → α} (hf : ∀ p e, f (p.hostEvent s.config e) = f p) :
    f s.hostCalls.plat = f s.plat := by
  have hfold (batch : List HostEvent) (p : Platform) :
      f (batch.foldl (Platform.hostEvent s.config) p) = f p := by
    induction batch generalizing p with
    | nil => rfl
    | cons e batch ih => exact (ih _).trans (hf p e)
  unfold State.hostCalls
  split
  · rfl
  · exact hfold _ _

@[simp] theorem raiseKbd_disk (p : Platform) : p.raiseKbd.disk = p.disk := by
  unfold Platform.raiseKbd
  split <;> rfl

/-- A call of the host reaches neither memory nor the disk. -/
theorem hostEvent_mem_disk (c : Config) (p : Platform) (e : HostEvent) :
    ((p.hostEvent c e).mem, (p.hostEvent c e).disk) = (p.mem, p.disk) := by
  cases e with
  | rtcTick ms =>
    simp only [Platform.hostEvent, Platform.rtcTick]
    split <;> rfl
  | keyDown code =>
    simp only [Platform.hostEvent, Platform.keyDown]
    split <;> simp
  | keyUp code =>
    simp only [Platform.hostEvent, Platform.keyUp]
    split <;> simp
  | uartReceive n char =>
    simp only [Platform.hostEvent, Platform.uartReceive]
    cases n <;> (repeat' split) <;> rfl

theorem hostCalls_mem_disk (s : State) :
    s.hostCalls.plat.mem = s.plat.mem ∧ s.hostCalls.plat.disk = s.plat.disk :=
  Prod.mk.inj (hostCalls_keeps (f := fun p => (p.mem, p.disk)) (hostEvent_mem_disk _))

theorem hostCalls_schedule (s : State) : s.hostCalls.schedule = s.schedule.tail := by
  unfold State.hostCalls
  split <;> simp_all

end HostCalls

/-! ### What a step can do (R420, R421) -/

section Step

variable {i : Instr} {s t : State}

/-- The next states of the second half of a step: an exception of the fetch or of the decoding raised, or an
instruction's effect. -/
inductive Ran (s : State) : State → Prop
  | raised (x : Raised) : Ran s (s.raise x)
  | instruction (i : Instr) (t : State) : Effect i s t → Ran s t

theorem runOne_of_fetch_error {x : Raised} (h : s.fetch = .error x) : s.runOne = .next (s.raise x) := by
  simp only [State.runOne, h]

theorem runOne_of_undecoded {w : Word} {u : Undecoded} (h : s.fetch = .ok w)
    (hu : decode s.config.enc w = .error u) : s.runOne = .next (s.raiseUndecoded u) := by
  simp only [State.runOne, h, hu]

theorem runOne_of_decoded {w : Word} {i : Instr} (h : s.fetch = .ok w) (hi : decode s.config.enc w = .ok i) :
    s.runOne = exec i s := by
  simp only [State.runOne, h, hi]

theorem runOne_ran (s : State) : ∃ t, s.runOne = .next t ∧ Ran s t := by
  cases hfetch : s.fetch with
  | error x => exact ⟨_, runOne_of_fetch_error hfetch, .raised x⟩
  | ok w =>
    cases hdecode : decode s.config.enc w with
    | error u => exact ⟨_, runOne_of_undecoded hfetch hdecode, .raised _⟩
    | ok i =>
      obtain ⟨t, ht, heffect⟩ := exec_effect i s
      exact ⟨t, (runOne_of_decoded hfetch hdecode).trans ht, .instruction i t heffect⟩

theorem step_fatal (h : s.fatal = true) : step s = .fault .nestedException := by
  rw [step, if_pos h]

theorem step_halted (hf : s.fatal = false) (hh : s.cpu.halted = true) : step s = .next s.hostCalls := by
  rw [step, if_neg (by simp [hf]), if_pos hh]

theorem step_running (hf : s.fatal = false) (hh : s.cpu.halted = false) : step s = s.hostCalls.deliver.runOne := by
  rw [step, if_neg (by simp [hf]), if_neg (by simp [hh])]

/-- Every next state of a step: the host's calls of a halted CPU, or the host's calls, the delivery check and one
instruction's worth. -/
theorem step_cases (h : step s = .next t) :
    (s.cpu.halted = true ∧ t = s.hostCalls) ∨ (s.cpu.halted = false ∧ Ran s.hostCalls.deliver t) := by
  cases hf : s.fatal with
  | true => rw [step_fatal hf] at h; cases h
  | false =>
    cases hh : s.cpu.halted with
    | true =>
      rw [step_halted hf hh] at h
      cases h
      exact .inl ⟨rfl, rfl⟩
    | false =>
      obtain ⟨u, hu, hran⟩ := runOne_ran s.hostCalls.deliver
      rw [step_running hf hh, hu] at h
      cases h
      exact .inr ⟨rfl, hran⟩

theorem Ran.config (h : Ran s t) : t.config = s.config := by
  cases h with
  | raised x =>
    obtain ⟨_, hconfig, _⟩ := raise_keeps s x
    exact hconfig
  | instruction i t h => exact h.outside.1

theorem Ran.platform (h : Ran s t) : t.plat = s.plat ∨ ∃ pa n v, busWrite s.config s.plat pa n v = some t.plat := by
  cases h with
  | raised x =>
    obtain ⟨hplat, _⟩ := raise_keeps s x
    exact .inl hplat
  | instruction i t h => exact h.platform

/-- With nothing pending, as after every delivery check, no raise is the fatal one (R430). -/
theorem Ran.fatal (h : Ran s t) (hp : s.cpu.excPending = none) : t.fatal = s.fatal := by
  cases h with
  | raised x => simp [raise_fatal, hp]
  | instruction i t h => exact h.fatal hp

/-- The R0 cell where MFCR cannot write it. -/
theorem Ran.reg_zero (h : Ran s t) (hvis : s.config.mfcrR0Visible = false) : t.reg 0 = s.reg 0 := by
  cases h with
  | raised x =>
    obtain ⟨_, _, _, hregs, _⟩ := raise_keeps s x
    exact hregs 0
  | instruction i t h =>
    refine h.reg_zero.resolve_right ?_
    rintro ⟨hvis', _⟩
    simp [hvis] at hvis'

/-- In user mode an instruction reaches no control register but EBADADDR, and does not halt (R450, R452). -/
theorem Effect.user (h : Effect i s t) (hu : s.user = true) :
    (∀ c, c ≠ crEBADADDR → t.cr c = s.cr c) ∧ t.cpu.halted = s.cpu.halted := by
  refine ⟨fun c hc => ?_, h.halted_cases.resolve_right fun hk => by simp [hu] at hk⟩
  cases h with
  | raised x => exact raise_cr s x hc
  | linkedRaise _ _ x => exact raise_cr (s.setLocked true) x hc
  | returned _ hk | toControl _ _ _ hk => simp [hu] at hk
  | _ => simp

theorem Ran.user (h : Ran s t) (hu : s.user = true) :
    (∀ c, c ≠ crEBADADDR → t.cr c = s.cr c) ∧ t.cpu.halted = s.cpu.halted := by
  cases h with
  | raised x =>
    obtain ⟨_, _, _, _, _, hhalted⟩ := raise_keeps s x
    exact ⟨fun _ hc => raise_cr s x hc, hhalted⟩
  | instruction i t h => exact h.user hu

/-! The state that the instruction of a step starts from. -/

theorem hostCalls_deliver_keeps (s : State) :
    s.hostCalls.deliver.cpu.excPending = none ∧ s.hostCalls.deliver.plat = s.hostCalls.plat ∧
      s.hostCalls.deliver.config = s.config ∧ s.hostCalls.deliver.fatal = s.fatal ∧
      s.hostCalls.deliver.schedule = s.schedule.tail := by
  obtain ⟨hexc, hplat, hconfig, hfatal, hschedule⟩ := deliver_keeps s.hostCalls
  exact ⟨hexc, hplat, hconfig.trans s.hostCalls_config, hfatal.trans s.hostCalls_fatal,
    hschedule.trans (hostCalls_schedule s)⟩

/-- Delivery keeps the R0 cell, or by a CPU reset clears it (R441, R443). -/
theorem deliver_reg_zero (s : State) : s.deliver.reg 0 = s.reg 0 ∨ s.deliver.reg 0 = 0 := by
  cases hd : s.deliverable with
  | false => exact .inl (by rw [deliver_of_not_deliverable hd])
  | true =>
    rw [deliver_of_deliverable hd]
    by_cases hv : s.vector = 0
    · rw [takeException_zero hv]
      exact .inr ((cpuReset_after s).1.regs 0)
    · exact .inl ((takeException_after hv).1.regs 0)

end Step

/-- Settles O46: `step_halted`, and what the host's calls leave. -/
theorem haltedCpuStays : Obligations.HaltedCpuStays := by
  intro s hf hh
  exact ⟨step_halted hf hh, s.hostCalls_cpu, s.hostCalls_config, s.hostCalls_fatal.trans hf, hostCalls_schedule s,
    fun a => by rw [(hostCalls_mem_disk s).1]⟩

/-- Settles O47: a live machine steps, and with nothing pending after the delivery check no raise is fatal. -/
theorem fatalIsTheOnlyStop : Obligations.FatalIsTheOnlyStop := by
  intro s
  refine ⟨step_fatal, fun hf => ?_⟩
  cases hh : s.cpu.halted with
  | true => exact ⟨_, step_halted hf hh, s.hostCalls_fatal.trans hf⟩
  | false =>
    obtain ⟨hexc, _, _, hfatal, _⟩ := hostCalls_deliver_keeps s
    obtain ⟨t, ht, hran⟩ := runOne_ran s.hostCalls.deliver
    exact ⟨t, (step_running hf hh).trans ht, (hran.fatal hexc).trans (hfatal.trans hf)⟩

/-- Settles O42: without delivery the instruction starts from the CPU as it was, in user mode. -/
theorem userModeKeepsControl : Obligations.UserModeKeepsControl := by
  intro s t hu hd h
  have hcpu := s.hostCalls_cpu
  have hcr (c : CrIdx) : s.hostCalls.cr c = s.cr c := by rw [State.cr, hcpu, State.cr]
  rcases step_cases h with ⟨_, rfl⟩ | ⟨_, hran⟩
  · exact ⟨fun c _ => hcr c, by rw [hcpu]⟩
  · rw [deliver_of_not_deliverable hd] at hran
    obtain ⟨hkeep, hhalted⟩ := hran.user ((congrArg (·.getLsbD 0) (hcr crRS)).trans hu)
    exact ⟨fun c hc => (hkeep c hc).trans (hcr c), by rw [hhalted, hcpu]⟩

/-- Settles O49: the host's calls, the delivery check and the bus each keep the platform's invariants; the R0 cell and the
fatal mark follow the step. -/
theorem stepKeepsTheInvariants : Obligations.StepKeepsTheInvariants := by
  intro s t hs h
  obtain ⟨hplat, _⟩ := hostCalls_wf hs.plat
  have hcell : s.hostCalls.reg 0 = s.reg 0 := by rw [State.reg, s.hostCalls_cpu, State.reg]
  rcases step_cases h with ⟨_, rfl⟩ | ⟨_, hran⟩
  · exact ⟨hplat, fun hvis => hcell.trans (hs.cell (s.hostCalls_config ▸ hvis)), s.hostCalls_fatal.trans hs.alive⟩
  · obtain ⟨hexc, hdplat, hconfig, hfatal, _⟩ := hostCalls_deliver_keeps s
    refine ⟨?_, fun hvis => ?_, (hran.fatal hexc).trans (hfatal.trans hs.alive)⟩
    · rw [← hdplat] at hplat
      rcases hran.platform with hsame | ⟨pa, n, v, hwrite⟩
      · exact hsame ▸ hplat
      · exact hplat.busWrite hwrite
    · rw [hran.config] at hvis
      rw [hran.reg_zero hvis]
      rcases deliver_reg_zero s.hostCalls with hkept | hzero
      · exact hkept.trans (hcell.trans (hs.cell (hconfig ▸ hvis)))
      · exact hzero

/-! ### Fetching and decoding (R125, R170, R300, R421) -/

section Fetch

variable {e : Encoding} {w : Word} {u : Undecoded} {s : State}

theorem fOp_eq_groupPriv_iff (w : Word) : fOp w = groupPriv ↔ w.toNat % 64 = 0x29 := by
  rw [← BitVec.toNat_inj, fOp, BitVec.extractLsb'_toNat, Nat.shiftRight_zero]
  rfl

/-- Only a word of group 0x29 is undecoded for its privileged function code (R151). -/
theorem decode_error_iff_priv (h : decode e w = .error u) :
    (∃ f, u = .unusedPrivFunct f) ↔ fOp w = groupPriv := by
  constructor
  · rintro ⟨f, rfl⟩
    by_contra hop
    simp only [decode, hop, if_false] at h
    repeat' split at h
    all_goals cases h
  · intro hop
    rw [decode_priv e hop] at h
    cases hfind : e.findPriv (fFunct w) with
    | none => exact ⟨fFunct w, by simpa [hfind] using h.symm⟩
    | some o => simp [hfind] at h

theorem undecodedExc_eq (h : decode e w = .error u) :
    s.undecodedExc u = if w.toNat % 64 = 0x29 ∧ s.user = true then .invprvg else .invinst := by
  have hgroup := (decode_error_iff_priv h).trans (fOp_eq_groupPriv_iff w)
  cases u <;> simp [State.undecodedExc, ← hgroup]

/-- An undecoded word raises no call trap, so its EPC is its own address (R431). -/
theorem raiseUndecoded_trapped (h : decode e w = .error u) (hp : s.cpu.excPending = none) :
    Trapped s (s.raiseUndecoded u)
      (if w.toNat % 64 = 0x29 ∧ s.user = true then .invprvg else .invinst) none s.cpu.pc := by
  have hpc : s.epcOf (s.undecodedExc u) = s.cpu.pc := by
    rw [undecodedExc_eq h]
    split <;> rfl
  exact undecodedExc_eq h ▸ hpc ▸ raise_trapped ⟨s.undecodedExc u, none⟩ hp

/-- The long at an address is the word that its four bytes make up (R85). -/
theorem readLE_long (m : Memory) (a : Nat) :
    m.readLE a .long = wordOfBytes (m.read a) (m.read (a + 1)) (m.read (a + 2)) (m.read (a + 3)) := rfl

theorem decode_of_decodeBytes {b0 b1 b2 b3 : Byte} {i : Instr} {rest : List Byte}
    (h : decodeBytes e [b0, b1, b2, b3] = .ok (i, rest)) : decode e (wordOfBytes b0 b1 b2 b3) = .ok i := by
  cases hdecode : decode e (wordOfBytes b0 b1 b2 b3) with
  | ok j => simp_all [decodeBytes]
  | error u => simp [decodeBytes, hdecode] at h

end Fetch

/-- Settles O44: the second half of a step on the word fetched, which in a window of bytes is that of its four bytes. -/
theorem stepRunsDecodedInstruction : Obligations.StepRunsDecodedInstruction := by
  intro s i hf hh u
  obtain ⟨hexc, _, hconfig, _, hschedule⟩ := hostCalls_deliver_keeps s
  have hword (w : Word) (hfetch : u.memRead u.cpu.pc .long = .ok w) (hi : decode s.config.enc w = .ok i) :
      step s = exec i u :=
    (step_running hf hh).trans (runOne_of_decoded hfetch (hconfig.symm ▸ hi))
  refine ⟨hword, fun pa htr hread hbytes => hword _ ?_ (decode_of_decodeBytes hbytes), hexc, hconfig, hschedule⟩
  rw [← readLE_long]
  exact memRead_of_bus_answers htr (busRead_readable (hconfig.symm ▸ hread))

/-- Settles O45: the access exception of the fetch, or the exception of the decoding, is the whole of the step. -/
theorem stepWithoutInstruction : Obligations.StepWithoutInstruction := by
  intro s hf hh u
  obtain ⟨hexc, _, hconfig, _⟩ := hostCalls_deliver_keeps s
  refine ⟨fun x hx => ⟨_, (step_running hf hh).trans (runOne_of_fetch_error hx),
    raise_access_trapped (memRead_error hx) hexc⟩, fun w hw hno => ?_⟩
  cases hdecode : decode s.config.enc w with
  | ok i => exact absurd hdecode (hno i)
  | error v =>
    exact ⟨_, (step_running hf hh).trans (runOne_of_undecoded hw (hconfig.symm ▸ hdecode)),
      raiseUndecoded_trapped hdecode hexc⟩

/-! ### The disk images' number and lengths (R469) -/

section Sizes

variable {c : Config} {p q : Platform} {v : Word}

/-- The lengths of the images, in order. -/
def imageSizes (p : Platform) : List Nat := p.disk.images.map DiskImage.size

theorem imageSizes_of_disk (h : q.disk = p.disk) : imageSizes q = imageSizes p := by
  rw [imageSizes, h, imageSizes]

/-- Of the disk's commands only the block write touches an image, and it keeps the image's length (R471). -/
theorem imageSizes_diskCommand (p : Platform) (v : Word) : imageSizes (p.diskCommand v) = imageSizes p := by
  unfold Platform.diskCommand
  split
  case h_2 =>
    unfold Platform.diskRead
    split
    · rfl
    · simp [imageSizes]
  case h_3 =>
    cases ht : p.disk.target with
    | none => rw [diskWrite_of_no_target ht]
    | some pair =>
      obtain ⟨_, himg, _⟩ := Disk.target_some ht
      obtain ⟨_, hget⟩ := List.getElem?_eq_some_iff.mp himg
      rw [diskWrite_of_target ht, imageSizes, diskWriteInfo_images, List.map_set, withBlock_size, ← hget,
        ← List.map_set, List.set_getElem_self, imageSizes]
  case h_5 =>
    unfold Disk.driveSize
    split <;> rfl
  all_goals rfl

theorem imageSizes_portWrite {port : Nat} (h : portWrite c p port v = some q) : imageSizes q = imageSizes p := by
  unfold portWrite at h
  split at h
  case h_5 => cases h; exact imageSizes_diskCommand p v
  case h_8 => cases h; exact imageSizes_of_disk (rtcCommand_keeps ..).2.1
  case h_12 => cases h; exact imageSizes_of_disk (hubAction_keeps ..).2
  case h_13 => cases h; exact imageSizes_of_disk (hubSetPortA_keeps ..).2.1
  case h_14 => cases h; exact imageSizes_of_disk (hubSetPortB_keeps ..).2.1
  case h_15 => cases h
  all_goals cases h; rfl

theorem imageSizes_boardRegWrite (p : Platform) (k : Nat) (v : Word) :
    imageSizes (boardRegWrite p k v) = imageSizes p := by
  unfold boardRegWrite
  repeat' split
  all_goals rfl

/-- Region by region (R89): only the ports and the reset reach the disk, and the reset keeps the images (R474). -/
theorem imageSizes_boardWrite {a off : Nat} {n : Width} (h : boardWrite c p a off n v = some q) :
    imageSizes q = imageSizes p := by
  unfold boardWrite at h
  cases hr : regionOf c off <;> simp only [hr, Option.ite_none_right_eq_some, reduceCtorEq] at h
  case ports => exact imageSizes_portWrite h
  case boardRegs => obtain ⟨_, h⟩ := h; cases h; exact imageSizes_boardRegWrite ..
  case lsic =>
    obtain ⟨_, h⟩ := h
    obtain ⟨l, _, rfl⟩ := Option.map_eq_some_iff.mp h
    rfl
  case resetTrigger => obtain ⟨_, h⟩ := h; split at h <;> cases h <;> rfl
  case nvram | diskBuffer | rom => obtain ⟨_, h⟩ := h; cases h; rfl

theorem imageSizes_busWrite {pa : Word} {n : Width} (h : busWrite c p pa n v = some q) :
    imageSizes q = imageSizes p := by
  unfold busWrite at h
  simp only at h
  split at h
  · obtain ⟨_, h⟩ := Option.ite_none_right_eq_some.mp h; cases h; rfl
  split at h
  · obtain ⟨_, h⟩ := Option.ite_none_right_eq_some.mp h; cases h; rfl
  split at h
  · cases h
  split at h
  · simp only [fbWrite, Option.ite_none_right_eq_some] at h
    obtain ⟨_, h⟩ := h; cases h; rfl
  split at h
  · exact imageSizes_boardWrite h
  · cases h; rfl

/-- The ROM lies outside the windows that a store changes, and outside the disk buffer (R84, R94, R95, R97). -/
theorem busWrite_read_rom {pa : Word} {n : Width} {a : Nat} (hm : p.mem.wf = true)
    (h : busWrite c p pa n v = some q) (ha : 0xFFFE0000 ≤ a) : q.mem.read a = p.mem.read a := by
  have hb := n.bytes_cases
  refine busWrite_read h hm a ?_ ?_
  · rintro ⟨hw, _, hlt⟩
    unfold Writable at hw
    omega
  · rintro ⟨_, _, hlt⟩
    omega

end Sizes

/-- Settles O48: the host's calls and delivery change none of it, and a bus write keeps the ROM and the lengths. -/
theorem configurationNeverChanges : Obligations.ConfigurationNeverChanges := by
  intro s t hm h
  obtain ⟨hmem, hdisk⟩ := hostCalls_mem_disk s
  rcases step_cases h with ⟨_, rfl⟩ | ⟨_, hran⟩
  · exact ⟨s.hostCalls_config, fun a _ => by rw [hmem], imageSizes_of_disk hdisk⟩
  · obtain ⟨_, hplat, hconfig, _⟩ := hostCalls_deliver_keeps s
    have hread (a : Nat) : s.hostCalls.deliver.plat.mem.read a = s.plat.mem.read a := by rw [hplat, hmem]
    have hsizes : imageSizes s.hostCalls.deliver.plat = imageSizes s.plat :=
      imageSizes_of_disk (by rw [hplat, hdisk])
    refine ⟨hran.config.trans hconfig, ?_⟩
    rcases hran.platform with hsame | ⟨pa, n, v, hwrite⟩
    · rw [hsame]
      exact ⟨fun a _ => hread a, hsizes⟩
    · have hwf : s.hostCalls.deliver.plat.mem.wf = true := by rw [hplat, hmem, hm]
      exact ⟨fun a ha => (busWrite_read_rom hwf hwrite ha).trans (hread a),
        (imageSizes_busWrite hwrite).trans hsizes⟩

end Sys2Proof.Machine

/-! PROOFS of the families 20_memory.md and 70_reset_and_hazards.md, second part: the windows of bytes, the framebuffer's
documented values, the board reset, and the power-on state. -/

namespace Sys2Proof.Machine

/-! ### The windows of bytes (R84, R85, R94, R95, R100) -/

section Windows

variable {c : Config} {p : Platform} {pa : Word} {n : Width}

theorem busRead_writable (h : Writable c pa n) :
    busRead c p pa n = some (BitVec.ofNat 32 (bytesValue p.mem pa n)) := by
  rw [busRead_readable (.inl h), readLE_eq]

/-- A write inside a window stores its bytes, reaches no device, keeps the canonical form and is read back. -/
theorem busWrite_roundTrip (h : Writable c pa n) (v : Word) (hm : p.mem.wf = true) :
    ∃ q, busWrite c p pa n v = some q ∧ BytesStored p q pa n v ∧ DevicesKept p q ∧ q.mem.wf = true ∧
      busRead c q pa n = some (BitVec.ofNat 32 (v.toNat % 2 ^ (8 * n.bytes))) := by
  have hwrite := busWrite_writable (p := p) (v := v) h
  obtain ⟨hstored, hdevices⟩ := busWrite_bytesStored h hm hwrite
  refine ⟨_, hwrite, hstored, hdevices, Memory.wf_writeLE _ _ _ hm, ?_⟩
  rw [busRead_writable h, hstored.value]

/-- An access that starts in a window and leaves it fails (R84, R100). -/
theorem bus_fails_leaving_window (v : Word)
    (h : (pa.toNat < 0x10000000 ∧ c.ramSize < pa.toNat + n.bytes) ∨
      (0xF8001000 ≤ pa.toNat ∧ pa.toNat < 0xF8011000 ∧ 0xF8011000 < pa.toNat + n.bytes) ∨
      (0xF8020000 ≤ pa.toNat ∧ pa.toNat < 0xF8020200 ∧ 0xF8020200 < pa.toNat + n.bytes)) :
    busRead c p pa n = none ∧ busWrite c p pa n v = none := by
  rcases h with ⟨hram, hlen⟩ | ⟨hlo, hhi, hlen⟩ | ⟨hlo, hhi, hlen⟩
  · rw [busRead_ram hram, busWrite_ram hram, if_neg (by omega), if_neg (by omega)]
    exact ⟨rfl, rfl⟩
  · have hout : within (pa.toNat - 0xF8000000) n 0x11000 = false := decide_eq_false (by omega)
    rw [busRead_area31 (by omega), busWrite_area31 (by omega), boardRead, boardWrite,
      regionOf_nvram (by omega) (by omega)]
    simp [hout]
  · have hout : within (pa.toNat - 0xF8000000) n 0x20200 = false := decide_eq_false (by omega)
    rw [busRead_area31 (by omega), busWrite_area31 (by omega), boardRead, boardWrite,
      regionOf_diskBuffer (by omega) (by omega)]
    simp [hout]

/-- The RAM-descriptor page takes a write without effect, or not at all (R87). -/
theorem busWrite_ramDesc (h : areaOf pa = 2) (v : Word) :
    busWrite c p pa n v = none ∨ busWrite c p pa n v = some p := by
  simp only [busWrite, h]
  cases Config.ramDescWrite (offsetOf pa) n.bytes (n.trunc v)
  · exact .inl rfl
  · exact .inr rfl

end Windows

/-! ### The framebuffer (R88) -/

section Framebuffer

variable {c : Config} {p : Platform} {pa : Word} {n : Width}

theorem busWrite_framebuffer (ha : areaOf pa = 24) (h : c.fbPresent = true) (v : Word) :
    busWrite c p pa n v = fbWrite p (offsetOf pa) n v := by
  simp [busWrite, ha, h]

theorem fbWrite_cases (p : Platform) (off : Nat) (n : Width) (v : Word) :
    fbWrite p off n v = none ∨ ∃ q, fbWrite p off n v = some q ∧ { q with fbWrites := p.fbWrites } = p := by
  simp only [fbWrite]
  split
  · exact .inr ⟨_, rfl, rfl⟩
  · exact .inl rfl

/-- The documented slot-info bytes as numbers (R88). -/
def slotInfo : List Nat :=
  [0xA1, 0x7C, 0x00, 0x0C, 0x35, 0x4E, 0x49, 0x4B, 0x6B, 0x69, 0x6E, 0x6E, 0x6F, 0x77, 0x66, 0x62, 0x2C, 0x31, 0x36, 0x00]

/-- The slot-info bytes are those of the statement, and past them nothing is listed. -/
theorem read_slotInfo (j : Nat) : ((Memory.place [] 0 fbSlotInfo).read j).toNat = slotInfo.getD j 0 := by
  have hbytes : slotInfo = fbSlotInfo.map BitVec.toNat := by decide
  rw [Memory.read_place 0 fbSlotInfo j rfl, hbytes]
  split
  · next hj =>
    have hlt : j < fbSlotInfo.length := by omega
    simp [hlt]
  · next hj =>
    have hge : fbSlotInfo.length ≤ j := by omega
    simp [hge, Memory.read, Memory.unlisted]

/-- The value of the slot-info bytes from offset k on, the lowest first. -/
def slotInfoValue (k : Nat) : Width → Nat
  | .byte => slotInfo.getD k 0
  | .int => slotInfo.getD k 0 + 2 ^ 8 * slotInfo.getD (k + 1) 0
  | .long => slotInfo.getD k 0 + 2 ^ 8 * slotInfo.getD (k + 1) 0 + 2 ^ 16 * slotInfo.getD (k + 2) 0 +
      2 ^ 24 * slotInfo.getD (k + 3) 0

theorem bytesValue_slotInfo (pa : Word) (n : Width) :
    bytesValue (Memory.place [] 0 fbSlotInfo) pa n = slotInfoValue pa.toNat n := by
  cases n <;> simp only [bytesValue, slotInfoValue, read_slotInfo]

/-- An access that lies whole in the slot-info bytes reads them. -/
theorem busRead_slotInfo (h : c.fbPresent = true) {k : Nat} (hk : k + n.bytes ≤ 20) :
    busRead c p (0xC0000000 + BitVec.ofNat 32 k) n = some (BitVec.ofNat 32 (slotInfoValue k n)) := by
  have hb := n.bytes_cases
  have hnat : (BitVec.ofNat 32 k).toNat = k := by rw [BitVec.toNat_ofNat]; omega
  have hsum : (0xC0000000 + BitVec.ofNat 32 k : Word).toNat = 0xC0000000 + k := by
    rw [BitVec.toNat_add, hnat, show (0xC0000000 : Word).toNat = 0xC0000000 from rfl]
    omega
  have harea : areaOf (0xC0000000 + BitVec.ofNat 32 k) = 24 := by rw [areaOf_eq, hsum]; omega
  have hoff : offsetOf (0xC0000000 + BitVec.ofNat 32 k) = k := by rw [offsetOf_eq, hsum]; omega
  have hvalue := readLE_eq (Memory.place [] 0 fbSlotInfo) (BitVec.ofNat 32 k) n
  rw [bytesValue_slotInfo, hnat] at hvalue
  rw [busRead_framebuffer harea h, hoff, fbRead, if_pos (show k + n.bytes ≤ fbSlotInfo.length from hk), hvalue]

end Framebuffer

/-- Settles O24: the windows, then the two opaque areas, then the framebuffer's documented values. -/
theorem byteWindows : Obligations.ByteWindows := by
  intro c p pa n v
  rw [← areaOf_eq]
  refine ⟨fun h => ⟨busRead_writable h, busWrite_roundTrip h v⟩, bus_fails_leaving_window v,
    fun h => busWrite_ramDesc h v, fun ha h => ?_, fun h => ⟨fun k hk => busRead_slotInfo h (n := .byte) (show k + 1 ≤ 20 by omega),
      fun k hk => busRead_slotInfo h (n := .int) (show k + 2 ≤ 20 by omega),
      fun k hk => busRead_slotInfo h (n := .long) (show k + 4 ≤ 20 by omega), ?_, ?_⟩⟩
  · rw [busWrite_framebuffer ha h]
    exact fbWrite_cases ..
  · rw [busRead_framebuffer (by decide) h]; rfl
  · rw [busRead_framebuffer (by decide) h]; rfl

/-! ### The reset trigger (R98, R101) -/

section BoardReset

variable (c : Config) (p : Platform) (n : Width)

theorem busRead_resetTrigger : busRead c p 0xF8800000 n = none := by
  rw [busRead_area31 (by decide), boardRead, regionOf_resetTrigger (by decide)]

theorem busWrite_resetTrigger (v : Word) : busWrite c p 0xF8800000 n v =
    if n = .long then (if v = boardResetValue then some p.boardReset else some p) else none := by
  rw [busWrite_area31 (by decide), boardWrite, regionOf_resetTrigger (by decide)]

end BoardReset

/-- No line of a reset hub is enabled (R488). -/
theorem Hub.reset_lines (d : Fin 16) : Hub.reset.lines[d.val] = 0 := by
  simp [Hub.reset]

/-- No key of a reset keyboard is pressed or outstanding (R489). -/
theorem Keyboard.reset_keys (k : Fin 86) : Keyboard.reset.isPressed[k.val] = false ∧
    Keyboard.reset.outstandingPress[k.val] = false ∧ Keyboard.reset.outstandingRelease[k.val] = false := by
  simp [Keyboard.reset]

/-- Settles O29: the trigger's one value is `boardReset`, device by device. -/
theorem boardReset : Obligations.BoardReset := by
  intro c p n v
  refine ⟨⟨p.boardReset, busWrite_resetTrigger .., fun _ => rfl, rfl, rfl, rfl, rfl, rfl, rfl, rfl, rfl, rfl,
    Hub.reset_lines, rfl, rfl, Keyboard.reset_keys, rfl, rfl⟩, fun hv => ?_, fun hn => ?_, busRead_resetTrigger ..⟩
  · rw [busWrite_resetTrigger, if_pos rfl]
    exact if_neg hv
  · rw [busWrite_resetTrigger, if_neg hn]

/-! ### The power-on state (R495, R500, R505) -/

section PowerOn

variable {k : Construction}

/-- The platform of a construction: the contents placed, every device reset. -/
def Construction.platform (k : Construction) : Platform :=
  { Platform.reset with
    mem := (k.ramInit.place nvramBase k.nvramInit).place romBase k.rom
    disk := { Disk.reset with images := k.disks } }

theorem construct_allowed (h : k.allowed = true) :
    State.construct k = .next { State.reset with config := k.parameters, plat := k.platform } := if_pos h

theorem construct_refused (h : k.allowed = false) : State.construct k = .refused .notAMachine :=
  if_neg (by simp [h])

/-- The bounds that the power-on state rests on (R84, R94, R469, R495). -/
structure Construction.Bounds (k : Construction) : Prop where
  ramSize : k.config.ramSize ≤ 0x10000000
  ramInit : k.ramInit.wf = true
  inRam   : ∀ c ∈ k.ramInit, c.1 < k.config.ramSize
  nvram   : k.nvramInit.length ≤ 0x10000
  count   : k.disks.length ≤ 8
  images  : ∀ i ∈ k.disks, DiskImage.Wf i

theorem Construction.bounds_of_allowed (h : k.allowed = true) : k.Bounds := by
  simp only [Construction.allowed, Config.wf, Bool.and_eq_true, decide_eq_true_eq, List.all_eq_true] at h
  obtain ⟨⟨⟨⟨⟨⟨⟨⟨_, hsize⟩, _⟩, _⟩, hwf⟩, hin⟩, hnvram⟩, hcount⟩, himages⟩ := h
  exact ⟨hsize, hwf, hin, hnvram, hcount, himages⟩

/-- A byte of memory at power-on: the ROM's, else NVRAM's, else the one listed for RAM. -/
theorem Construction.read_platform (h : k.Bounds) (a : Nat) : k.platform.mem.read a =
    if hrom : romBase ≤ a ∧ a < romBase + k.rom.length then k.rom[a - romBase]'(by omega)
    else if hnvram : nvramBase ≤ a ∧ a < nvramBase + k.nvramInit.length then k.nvramInit[a - nvramBase]'(by omega)
    else k.ramInit.read a := by
  have hwf := Memory.wf_place nvramBase k.nvramInit h.ramInit
  rw [Construction.platform, Memory.read_place _ _ _ hwf, Memory.read_place _ _ _ h.ramInit]

theorem Construction.read_ram (h : k.Bounds) {a : Nat} (ha : a < k.config.ramSize) :
    k.platform.mem.read a = k.ramInit.read a := by
  have hsize := h.ramSize
  rw [read_platform h, dif_neg (by unfold romBase; omega), dif_neg (by unfold nvramBase; omega)]

theorem Construction.read_nvram (h : k.Bounds) {j : Nat} (hj : j < k.nvramInit.length) :
    k.nvramInit[j]? = some (k.platform.mem.read (nvramBase + j)) := by
  have hlen := h.nvram
  rw [read_platform h, dif_neg (by unfold romBase nvramBase; omega), dif_pos (by omega)]
  simp [hj]

theorem Construction.read_rom (h : k.Bounds) {j : Nat} (hj : j < k.rom.length) :
    k.rom[j]? = some (k.platform.mem.read (romBase + j)) := by
  rw [read_platform h, dif_pos (by omega)]
  simp [hj]

/-- Nothing is placed in the disk buffer (R95). -/
theorem Construction.read_diskBuffer (h : k.Bounds) {j : Nat} (hj : j < 512) :
    k.platform.mem.read (dbufBase + j) = 0 := by
  have hlen := h.nvram
  have hsize := h.ramSize
  rw [read_platform h, dif_neg (by unfold romBase dbufBase; omega), dif_neg (by unfold nvramBase dbufBase; omega)]
  exact Memory.read_above fun c hc => by have := h.inRam c hc; unfold dbufBase; omega

theorem Construction.platform_wf (h : k.Bounds) : k.platform.Wf where
  mem := Memory.wf_place _ _ (Memory.wf_place _ _ h.ramInit)
  images := h.images
  count := h.count
  selected := fun i hi => by cases hi
  lines := fun d => .inl (Hub.reset_lines d)
  keys := Keyboard.reset_keys 0

end PowerOn

/-- Settles O51: the refusal, and the state of a construction in bounds: its contents byte by byte, its devices reset. -/
theorem powerOnState : Obligations.PowerOnState := by
  intro k
  refine ⟨construct_refused, fun hallowed => ?_⟩
  have h := Construction.bounds_of_allowed hallowed
  exact ⟨_, construct_allowed hallowed, rfl, rfl, rfl, rfl, rfl, rfl, rfl, rfl, rfl, rfl, rfl,
    fun _ => Construction.read_ram h, fun _ => Construction.read_nvram h, fun _ => Construction.read_rom h,
    fun _ => Construction.read_diskBuffer h, fun j => by simp [Construction.platform, Platform.reset], rfl, rfl, rfl,
    rfl, rfl, rfl, Hub.reset_lines, rfl, rfl, Keyboard.reset_keys, rfl, rfl,
    ⟨Construction.platform_wf h, fun _ => rfl, rfl⟩⟩

/-- Settles O50: the empty construction is allowed, so its power-on state is the state after reset, and in bounds. -/
theorem resetHasTheInvariants : Obligations.ResetHasTheInvariants := by
  have hallowed : (⟨defaultConfig, [], [], [], []⟩ : Construction).allowed = true := by decide
  have h := Construction.bounds_of_allowed hallowed
  exact ⟨⟨Construction.platform_wf h, fun _ => rfl, rfl⟩, construct_allowed hallowed⟩

end Sys2Proof.Machine

/-! PROOFS of the family 60_exceptions.md, fourth part: the disk's other commands, the UARTs, the RTC's commands, the
keyboard and the hub. -/

namespace Sys2Proof.Machine

/-! ### The disk's ports and other commands (R470, R471) -/

section DiskCommands

variable {p : Platform} {d : Disk} {v : Word}

theorem portWrite_disk (c : Config) (p : Platform) (v : Word) : portWrite c p 0x19 v = some (p.diskCommand v) := rfl

theorem diskCommand_other (h : v = 0 ∨ 8 ≤ v.toNat) : p.diskCommand v = p := by
  have hv : v.toNat = 0 ∨ 8 ≤ v.toNat := h.imp_left fun h0 => by rw [h0]; rfl
  unfold Platform.diskCommand
  split
  case h_8 => rfl
  all_goals omega

theorem driveSize_of_image {img : DiskImage} (h : d.images[d.portA.toNat]? = some img) :
    d.driveSize = { d with portA := 1, portB := img.countWord } := by
  simp only [Disk.driveSize, h]

theorem driveSize_of_no_image (h : d.images.length ≤ d.portA.toNat) :
    d.driveSize = { d with portA := 0, portB := 0 } := by
  simp only [Disk.driveSize, List.getElem?_eq_none h]

/-- Drive size sets the two ports only. -/
theorem driveSize_keeps (d : Disk) : { d.driveSize with portA := d.portA, portB := d.portB } = d := by
  unfold Disk.driveSize
  split <;> rfl

end DiskCommands

/-- Settles O54: command by command; drive size by whether port_a names an image. -/
theorem diskOtherCommands : Obligations.DiskOtherCommands := by
  intro c p v
  simp only [portWrite_disk]
  refine ⟨rfl, rfl, rfl, rfl, rfl, ?_, ?_, ?_, ?_, ?_, fun h => by rw [diskCommand_other h]⟩
  case refine_3 =>
    rintro rfl
    refine ⟨{ p with disk := p.disk.driveSize }, rfl, ?_, fun img himg => ?_, fun hlen => ?_⟩
    · simp only [driveSize_keeps]
    · simp only [driveSize_of_image himg]
      exact ⟨trivial, DiskImage.countWord_of_lt⟩
    · simp only [driveSize_of_no_image hlen]
      exact ⟨trivial, trivial⟩
  all_goals
    rintro rfl
    rfl

/-! ### The UARTs (R480 to R482, R493) -/

section Uart

theorem Uart.command_eq (u : Uart) (v : Word) : u.command v =
    if v = 1 then { u with output := u.output ++ [BitVec.ofNat 8 u.data.toNat] }
    else if v = 2 then { u with data := u.lastData, lastData := 0xFFFF }
    else if v = 3 then { u with irqEnabled := true }
    else if v = 4 then { u with irqEnabled := false } else u := by
  unfold Uart.command
  split
  case h_1 h | h_2 h | h_3 h | h_4 h =>
    cases eq_ofNat_of_toNat_eq h
    rfl
  case h_5 h1 h2 h3 h4 =>
    rw [if_neg (by rintro rfl; exact h1 rfl), if_neg (by rintro rfl; exact h2 rfl),
      if_neg (by rintro rfl; exact h3 rfl), if_neg (by rintro rfl; exact h4 rfl)]

theorem portWrite_uart (c : Config) (p : Platform) (n : UartId) (v : Word) :
    portWrite c p (match n with | .uart0 => 0x10 | .uart1 => 0x12) v = some (p.setUart n ((p.uart n).command v)) := by
  cases n <;> rfl

theorem setUart_uart (p : Platform) (n m : UartId) (u : Uart) :
    (p.setUart n u).uart m = if m = n then u else p.uart m := by
  cases n <;> cases m <;> rfl

@[simp] theorem setUart_lsic (p : Platform) (n : UartId) (u : Uart) : (p.setUart n u).lsic = p.lsic := by
  cases n <;> rfl

/-- The latch takes the character zero-extended (R493). -/
theorem setWidth_eq_ofNat (b : Byte) : b.setWidth 32 = BitVec.ofNat 32 b.toNat :=
  eq_ofNat_of_toNat_eq (BitVec.toNat_setWidth_of_le (by decide))

theorem hostEvent_uartReceive_none {c : Config} (h : c.uartIrq = none) (p : Platform) (n : UartId) (b : Byte) :
    p.hostEvent c (.uartReceive n b) = p.setUart n { p.uart n with lastData := BitVec.ofNat 32 b.toNat } := by
  simp only [Platform.hostEvent, Platform.uartReceive, h, setWidth_eq_ofNat]

theorem hostEvent_uartReceive_some {c : Config} {w : Nat} (h : c.uartIrq = some w) (p : Platform) (n : UartId)
    (b : Byte) : p.hostEvent c (.uartReceive n b) =
      { p.setUart n { p.uart n with lastData := BitVec.ofNat 32 b.toNat } with
        lsic := if (p.uart n).irqEnabled = true then p.lsic.raise w else p.lsic } := by
  simp only [Platform.hostEvent, Platform.uartReceive, h, setWidth_eq_ofNat, Platform.raiseIrq, setUart_lsic]
  split
  · rfl
  · rw [← setUart_lsic p n]

end Uart

/-- Settles O55: the ports of either UART, its commands, and the host's call by whether there is a vector. -/
theorem uartCommands : Obligations.UartCommands := by
  intro c p n v b port u
  refine ⟨?_, ?_, ?_, ⟨_, portWrite_uart c p n v, congrArg (p.setUart n) (Uart.command_eq u v)⟩,
    fun h => hostEvent_uartReceive_none h p n b, fun w h => hostEvent_uartReceive_some h p n b,
    fun m u' => setUart_uart p n m u'⟩
  · cases n <;> rfl
  · cases n <;> rfl
  · cases n <;> exact ⟨_, rfl, rfl⟩

/-! ### The RTC's commands (R484, R485) -/

section RtcCommands

variable {p : Platform}

/-- NOW: the overridden clock, else the host's (R484). -/
theorem rtcNow_fst (p : Platform) : p.rtcNow.1 = match p.rtc.override with
    | some t => t
    | none => Config.hostClock p.hostReads := by
  unfold Platform.rtcNow
  cases p.rtc.override <;> rfl

/-- A read of NOW from the host counts; one of an overridden clock does not. -/
theorem rtcNow_snd (p : Platform) : p.rtcNow.2 =
    { p with hostReads := if p.rtc.override = none then p.hostReads + 1 else p.hostReads } := by
  unfold Platform.rtcNow
  cases p.rtc.override <;> rfl

theorem portWrite_rtc (c : Config) (p : Platform) (v : Word) :
    portWrite c p 0x20 v = some (p.rtcCommand c.rtcMsMode v) := rfl

/-- Every command value, as the RTC's registers and the count of clock reads after it. -/
theorem rtcCommand_eq (mode : RtcMsMode) (p : Platform) (v : Word) : p.rtcCommand mode v =
    { p with
      hostReads := if p.rtc.override = none ∧ (v = 2 ∨ v = 3 ∨ v = 4 ∨ (v = 5 ∧ mode = .subsecond))
        then p.hostReads + 1 else p.hostReads
      rtc :=
        if v = 1 then { p.rtc with interval := p.rtc.data }
        else if v = 2 then { p.rtc with data := BitVec.ofNat 32 (p.rtcNow.1 / 1000) }
        else if v = 3 then
          { p.rtc with data := if mode = .subsecond then BitVec.ofNat 32 (p.rtcNow.1 % 1000)
              else BitVec.ofNat 32 p.rtcNow.1 }
        else if v = 4 then { p.rtc with override := some (p.rtc.data.toNat * 1000 + p.rtcNow.1 % 1000) }
        else if v = 5 then
          { p.rtc with override := some (if mode = .subsecond
              then p.rtcNow.1 - p.rtcNow.1 % 1000 + p.rtc.data.toNat % 1000 else p.rtc.data.toNat) }
        else p.rtc } := by
  have hseconds : p.rtcNow.1 / 1000 * 1000 = p.rtcNow.1 - p.rtcNow.1 % 1000 := by omega
  unfold Platform.rtcCommand
  split
  case h_1 h => cases eq_ofNat_of_toNat_eq h; simp
  case h_2 h => cases eq_ofNat_of_toNat_eq h; simp [Platform.rtcGive, rtcNow_snd]
  case h_3 h => cases eq_ofNat_of_toNat_eq h; cases mode <;> simp [Platform.rtcGive, rtcNow_snd, rtcMillis]
  case h_4 h => cases eq_ofNat_of_toNat_eq h; simp [Platform.rtcOverride, rtcNow_snd]
  case h_5 h => cases eq_ofNat_of_toNat_eq h; cases mode <;> simp [Platform.rtcOverride, rtcNow_snd, hseconds]
  case h_6 h1 h2 h3 h4 h5 =>
    have hne1 : v ≠ 1 := by rintro rfl; exact h1 rfl
    have hne2 : v ≠ 2 := by rintro rfl; exact h2 rfl
    have hne3 : v ≠ 3 := by rintro rfl; exact h3 rfl
    have hne4 : v ≠ 4 := by rintro rfl; exact h4 rfl
    have hne5 : v ≠ 5 := by rintro rfl; exact h5 rfl
    simp only [hne1, hne2, hne3, hne4, hne5, false_and, or_self, and_false, if_false]

end RtcCommands

/-- Settles O57: the registers after a command, read off `rtcCommand_eq`. -/
theorem rtcCommands : Obligations.RtcCommands := by
  intro c p v r now readsNow
  refine ⟨rfl, rfl, rfl, _, portWrite_rtc c p v, ?_⟩
  rw [rtcCommand_eq, rtcNow_fst]
  exact ⟨rfl, rfl, rfl⟩

/-! ### The keyboard's actions (R478, R487, R489) -/

section KeyboardActions

variable {k : Keyboard} {scan : KbdScan} {i : Fin 86}

/-- A scan from 0 up meets the lowest index that passes the test. -/
theorem find_finRange_eq_some {n : Nat} {test : Fin n → Bool} {i : Fin n} (hi : test i = true)
    (hbelow : ∀ j, j < i → test j = false) : (List.finRange n).find? test = some i := by
  rw [List.find?_eq_some_iff_getElem]
  refine ⟨hi, i.val, by simp, by simp, fun j hj => ?_⟩
  simp only [List.getElem_finRange, Bool.not_eq_true']
  exact hbelow _ hj

theorem find_finRange_eq_none {n : Nat} {test : Fin n → Bool} (h : ∀ i, test i = false) :
    (List.finRange n).find? test = none :=
  List.find?_eq_none.mpr fun i _ => by simp [h i]

/-- Key i has an event that is not given out yet. -/
def Keyboard.Outstanding (k : Keyboard) (i : Fin 86) : Prop :=
  k.outstandingRelease[i.val] = true ∨ k.outstandingPress[i.val] = true

/-- Give out the event of key i, its release before its press. -/
def Keyboard.take (k : Keyboard) (i : Fin 86) : Keyboard :=
  if k.outstandingRelease[i.val] = true then k.takeRelease i else k.takePress i

/-- Key i is the one that the scan gives out (R478). -/
def Keyboard.First (scan : KbdScan) (k : Keyboard) (i : Fin 86) : Prop :=
  (scan = .interleaved → ∀ j, j < i → ¬ k.Outstanding j) ∧
    (scan = .releasesFirst →
      (k.outstandingRelease[i.val] = true → ∀ j, j < i → k.outstandingRelease[j.val] = false) ∧
      (k.outstandingRelease[i.val] = false →
        (∀ j : Fin 86, k.outstandingRelease[j.val] = false) ∧ ∀ j, j < i → k.outstandingPress[j.val] = false))

theorem nextEvent_of_none (h : ∀ i, ¬ k.Outstanding i) : k.nextEvent scan = { k with portA := 0xFFFF } := by
  have hrelease (i : Fin 86) : k.outstandingRelease[i.val] = false := Bool.eq_false_iff.mpr fun hr => h i (.inl hr)
  have hpress (i : Fin 86) : k.outstandingPress[i.val] = false := Bool.eq_false_iff.mpr fun hp => h i (.inr hp)
  unfold Keyboard.nextEvent
  cases scan with
  | interleaved => rw [find_finRange_eq_none fun i => by simp [hrelease i, hpress i]]
  | releasesFirst => simp only [find_finRange_eq_none hrelease, find_finRange_eq_none hpress]

/-- In either order the scan gives out the event it meets first. -/
theorem nextEvent_of_first (hi : k.Outstanding i) (h : k.First scan i) : k.nextEvent scan = k.take i := by
  obtain ⟨hinterleaved, hreleases⟩ := h
  unfold Keyboard.nextEvent
  cases scan with
  | interleaved =>
    have hbelow (j : Fin 86) (hj : j < i) : (k.outstandingRelease[j.val] || k.outstandingPress[j.val]) = false := by
      simpa [Keyboard.Outstanding] using hinterleaved rfl j hj
    rw [find_finRange_eq_some (by simpa [Keyboard.Outstanding] using hi) hbelow]
    rfl
  | releasesFirst =>
    obtain ⟨hrelease, hpress⟩ := hreleases rfl
    unfold Keyboard.take
    cases hr : k.outstandingRelease[i.val] with
    | true => simp only [find_finRange_eq_some (test := fun j => k.outstandingRelease[j.val]) hr (hrelease hr), if_true]
    | false =>
      obtain ⟨hnone, hbelow⟩ := hpress hr
      have hp : k.outstandingPress[i.val] = true := hi.resolve_left (by simp [hr])
      simp only [find_finRange_eq_none hnone,
        find_finRange_eq_some (test := fun j => k.outstandingPress[j.val]) hp hbelow, Bool.false_eq_true, if_false]

theorem code_or_releaseBit (i : Fin 86) :
    BitVec.ofNat 32 i.val ||| (0x8000 : Word) = BitVec.ofNat 32 (0x8000 + i.val) := by
  revert i
  decide

theorem take_portA (k : Keyboard) (i : Fin 86) : (k.take i).portA =
    if k.outstandingRelease[i.val] = true then BitVec.ofNat 32 (0x8000 + i.val) else BitVec.ofNat 32 i.val := by
  rw [← code_or_releaseBit, Keyboard.take]
  split <;> rfl

/-- One key's bit cleared, and set. -/
theorem getElem_set_false (x : Vector Bool 86) {code : Nat} (h : code < 86) (j : Fin 86) :
    (x.set code false h)[j.val] = (x[j.val] && decide (j.val ≠ code)) := by
  rw [Vector.getElem_set]
  by_cases hj : code = j.val
  · simp [hj]
  · simp [hj, Ne.symm hj]

theorem getElem_set_true (x : Vector Bool 86) {code : Nat} (h : code < 86) (j : Fin 86) :
    (x.set code true h)[j.val] = (x[j.val] || decide (j.val = code)) := by
  rw [Vector.getElem_set]
  by_cases hj : code = j.val
  · simp [hj]
  · simp [hj, Ne.symm hj]

/-- The key's events are gone, the others' stay. -/
theorem take_outstanding (k : Keyboard) (i j : Fin 86) :
    (k.take i).outstandingRelease[j.val] = (k.outstandingRelease[j.val] && decide (j ≠ i)) ∧
      (k.take i).outstandingPress[j.val] = (k.outstandingPress[j.val] && decide (j ≠ i)) := by
  simp only [ne_eq, Fin.ext_iff]
  unfold Keyboard.take
  split
  · exact ⟨getElem_set_false _ i.isLt j, getElem_set_false _ i.isLt j⟩
  · next hr =>
    refine ⟨?_, getElem_set_false _ i.isLt j⟩
    show k.outstandingRelease[j.val] = _
    by_cases h : j.val = i.val
    · simp [h, hr]
    · simp [h]

/-- Next event keeps what is pressed, and port_b. -/
theorem nextEvent_keeps (scan : KbdScan) (k : Keyboard) :
    (k.nextEvent scan).isPressed = k.isPressed ∧ (k.nextEvent scan).portB = k.portB := by
  unfold Keyboard.nextEvent
  repeat' split
  all_goals exact ⟨rfl, rfl⟩

theorem isDown_of_key (h : k.portA.toNat = i.val) :
    k.isDown = { k with portA := if k.isPressed[i.val] = true then 1 else 0 } := by
  simp only [Keyboard.isDown, h, i.isLt, dite_true]

theorem isDown_of_ge (h : 86 ≤ k.portA.toNat) : k.isDown = k := dif_neg (by omega)

theorem keyboard_action_other {v : Word} (h : v = 0 ∨ 4 ≤ v.toNat) : k.action scan v = k := by
  have hv : v.toNat = 0 ∨ 4 ≤ v.toNat := h.imp_left fun h0 => by rw [h0]; rfl
  unfold Keyboard.action
  split
  case h_4 => rfl
  all_goals omega

/-- With slot 1 selected, hub port 0x32 is the keyboard's (R487). -/
theorem portWrite_hubAction_keyboard {p : Platform} (h : p.hub.selected.toNat = 1) (c : Config) (v : Word) :
    portWrite c p 0x32 v = some { p with kbd := p.kbd.action c.kbdScan v } := by
  simp only [portWrite, Platform.hubAction, h]

end KeyboardActions

/-- Settles O58: next event by the key that the scan meets first; the other actions one by one. -/
theorem keyboardNextEvent : Obligations.KeyboardNextEvent := by
  intro c p v hsel k out
  simp only [portWrite_hubAction_keyboard hsel]
  obtain ⟨hpressed, hportB⟩ := nextEvent_keeps c.kbdScan k
  refine ⟨⟨_, rfl, rfl, hpressed, hportB, nextEvent_of_none, fun i hi hinterleaved hreleases => ?_⟩,
    ⟨_, rfl, rfl, rfl, rfl, rfl, Keyboard.reset_keys⟩, fun i hi => ?_, fun hge => ?_, fun hv => ?_⟩
  · have htake : k.nextEvent c.kbdScan = k.take i := nextEvent_of_first hi ⟨hinterleaved, hreleases⟩
    show (k.nextEvent c.kbdScan).portA = _ ∧ ∀ j : Fin 86, (k.nextEvent c.kbdScan).outstandingRelease[j.val] = _ ∧
      (k.nextEvent c.kbdScan).outstandingPress[j.val] = _
    rw [htake]
    exact ⟨take_portA k i, take_outstanding k i⟩
  · exact congrArg (fun kbd => some { p with kbd := kbd }) (isDown_of_key hi)
  · exact congrArg (fun kbd => some { p with kbd := kbd }) (isDown_of_ge hge)
  · rw [keyboard_action_other hv]

/-! ### Key events (R476, R492) -/

section KeyEvents

variable {p : Platform} {code : Nat}

/-- The keyboard's line raises its vector where it is enabled, and reaches the LSIC only. -/
theorem raiseKbd_eq (p : Platform) : p.raiseKbd =
    { p with lsic := if p.hub.lines[1] = 0 then p.lsic else p.lsic.raise p.hub.lines[1] } := by
  have hline : p.kbdLine = p.hub.lines[1] := rfl
  rw [Platform.raiseKbd, hline]
  split
  · rfl
  · rfl

theorem keyDown_of_key (h : 1 ≤ code ∧ code ≤ 85) : p.keyDown code =
    { p with
      lsic := if p.hub.lines[1] = 0 then p.lsic else p.lsic.raise p.hub.lines[1]
      kbd := { p.kbd with
        isPressed := p.kbd.isPressed.set code true (by omega)
        outstandingPress := p.kbd.outstandingPress.set code true (by omega) } } := by
  rw [Platform.keyDown, dif_pos h, raiseKbd_eq]

theorem keyUp_of_key (h : 1 ≤ code ∧ code ≤ 85) : p.keyUp code =
    { p with
      lsic := if p.hub.lines[1] = 0 then p.lsic else p.lsic.raise p.hub.lines[1]
      kbd := { p.kbd with
        isPressed := p.kbd.isPressed.set code false (by omega)
        outstandingRelease := p.kbd.outstandingRelease.set code true (by omega) } } := by
  rw [Platform.keyUp, dif_pos h, raiseKbd_eq]

/-- A code outside the table changes nothing (log entry 15). -/
theorem keyEvents_of_no_key (h : code = 0 ∨ 86 ≤ code) : p.keyDown code = p ∧ p.keyUp code = p :=
  ⟨dif_neg (by omega), dif_neg (by omega)⟩

end KeyEvents

/-- Settles O59: the platform after either event, and the key's bits. -/
theorem keyEvents : Obligations.KeyEvents := by
  intro c p code
  refine ⟨keyEvents_of_no_key, fun h1 h85 => ?_⟩
  have hdown : p.hostEvent c (.keyDown code) = _ := keyDown_of_key ⟨h1, h85⟩
  have hup : p.hostEvent c (.keyUp code) = _ := keyUp_of_key ⟨h1, h85⟩
  have hcode : code < 86 := by omega
  rw [hdown, hup]
  exact ⟨rfl, rfl, rfl, rfl, rfl, rfl, rfl, rfl, fun j => ⟨getElem_set_true _ hcode j, getElem_set_true _ hcode j, rfl,
    getElem_set_false _ hcode j, rfl, getElem_set_true _ hcode j⟩⟩

/-! ### The hub (R476, R487, R488) -/

section Hub

variable {p : Platform} {v : Word}

theorem hubMagic_eq (p : Platform) : p.hubMagic =
    if p.hub.selected.toNat = 0 then Config.hubCtrlMagic
    else if p.hub.selected.toNat = 1 then 0x8FC48FC4 else 0 := by
  unfold Platform.hubMagic
  split <;> simp_all [kbdMagic]

theorem hubPortA_eq (p : Platform) : p.hubPortA =
    if p.hub.selected.toNat = 0 then p.hub.portA else if p.hub.selected.toNat = 1 then p.kbd.portA else 0 := by
  unfold Platform.hubPortA
  split <;> simp_all

theorem hubPortB_eq (p : Platform) : p.hubPortB =
    if p.hub.selected.toNat = 0 then p.hub.portB else if p.hub.selected.toNat = 1 then p.kbd.portB else 0 := by
  unfold Platform.hubPortB
  split <;> simp_all

theorem select_selected (h : Hub) (v : Word) :
    (h.select v).selected.toNat = if v.toNat < 16 then v.toNat else h.selected.toNat := by
  unfold Hub.select
  split
  · next hv => exact Nat.mod_eq_of_lt hv
  · rfl

theorem select_keeps (h : Hub) (v : Word) : { h.select v with selected := h.selected } = h := by
  unfold Hub.select
  split <;> rfl

/-- An empty slot ignores writes and actions (R487). -/
theorem hub_empty_slot (h : 2 ≤ p.hub.selected.toNat) (scan : KbdScan) (v : Word) :
    p.hubAction scan v = p ∧ p.hubSetPortA v = p ∧ p.hubSetPortB v = p := by
  unfold Platform.hubAction Platform.hubSetPortA Platform.hubSetPortB
  split
  · omega
  · omega
  · exact ⟨rfl, rfl, rfl⟩

/-- With slot 0 selected, hub port 0x32 is the controller's (R487). -/
theorem portWrite_hubAction_ctrl (h : p.hub.selected.toNat = 0) (c : Config) (v : Word) :
    portWrite c p 0x32 v = some (p.hubCtrlAction v) := by
  simp only [portWrite, Platform.hubAction, h]

/-- Actions 1 and 3 of the controller set the line of slot port_b (R476). -/
theorem hubCtrlAction_line (hd : p.hub.portB.toNat < 16) (hv : v = 1 ∨ v = 3) : p.hubCtrlAction v =
    { p with hub := { p.hub with
      lines := p.hub.lines.set p.hub.portB.toNat (if v = 1 then 48 + p.hub.portB.toNat else 0) } } := by
  rw [Platform.hubCtrlAction, if_neg (by omega)]
  rcases hv with rfl | rfl <;> simp [Hub.setLine, hd]

theorem hubCtrlAction_reset (hd : p.hub.portB.toNat < 16) : p.hubCtrlAction 2 = p.hubReset := if_neg (by omega)

theorem hubCtrlAction_other (h : 16 ≤ p.hub.portB.toNat ∨ v = 0 ∨ 4 ≤ v.toNat) : p.hubCtrlAction v = p := by
  unfold Platform.hubCtrlAction
  split
  · rfl
  · next hd =>
    have hv : v.toNat = 0 ∨ 4 ≤ v.toNat := (h.resolve_left hd).imp_left fun h0 => by rw [h0]; rfl
    split
    case h_4 => rfl
    all_goals omega

end Hub

/-- Settles O60: the ports by the selected slot, then the controller's actions. -/
theorem hubPorts : Obligations.HubPorts := by
  intro c p v sel d
  refine ⟨?_, congrArg some (hubMagic_eq p), rfl, congrArg some (hubPortA_eq p), congrArg some (hubPortB_eq p),
    ⟨_, rfl, ?_, select_selected p.hub v⟩, rfl, fun h0 => ?_, fun h1 => ?_, fun h2 => ?_, fun h0 hd hv => ?_,
    fun h0 hd hv => ?_, fun h0 h => ?_⟩
  · exact congrArg some (eq_ofNat_of_toNat_eq (BitVec.toNat_setWidth_of_le (by decide)))
  · exact congrArg (fun hub => { p with hub := hub }) (select_keeps p.hub v)
  · simp only [portWrite, Platform.hubSetPortA, Platform.hubSetPortB, show p.hub.selected.toNat = 0 from h0]
    exact ⟨trivial, trivial⟩
  · simp only [portWrite, Platform.hubSetPortA, Platform.hubSetPortB, show p.hub.selected.toNat = 1 from h1]
    exact ⟨trivial, trivial⟩
  · obtain ⟨haction, hportA, hportB⟩ := hub_empty_slot h2 c.kbdScan v
    exact ⟨congrArg some haction, congrArg some hportA, congrArg some hportB⟩
  · refine ⟨_, portWrite_hubAction_ctrl h0 c v, ?_⟩
    rw [hubCtrlAction_line hd hv]
    refine ⟨rfl, fun i => ?_⟩
    rw [Vector.getElem_set]
    by_cases hi : i.val = d
    · simp [hi, d]
    · simp [hi, Ne.symm hi, d]
  · cases hv
    refine ⟨_, portWrite_hubAction_ctrl h0 c 2, ?_⟩
    rw [hubCtrlAction_reset hd]
    exact ⟨rfl, rfl, Hub.reset_lines, rfl, rfl, Keyboard.reset_keys, rfl, rfl⟩
  · rw [portWrite_hubAction_ctrl h0, hubCtrlAction_other h]

end Sys2Proof.Machine
